-- ==== Sys2Proof/Word.lean ====
section
/-! DEFINITION. The two bit-vector types of the block: a byte of a buffer, a stream or a stored block, and a
32-bit register or command word (00_scope.md R11 "register width 32 bits", R13). Lengths, positions, counts and
offsets are natural numbers (R13: "a + b on lengths is exact"). -/

namespace Sys2Proof

/-- A byte: an unsigned 8-bit value (R13). -/
abbrev Byte := BitVec 8

/-- A register or command word: 32 bits, bit 0 the least significant (R11, R13). -/
abbrev Word := BitVec 32

end Sys2Proof
end

