-- ==== Sys2Proof/Syntax.lean ====
section
/-! DEFINITION. The instructions of the block: one constructor for each row of spec/opcode_table.json. The first
five are command words (format `cmd`, 30_encoding.md R62 to R64); the last three are the tokens the decoder tells
apart (format `rle_token`, R65 to R68, R77). -/

namespace Sys2Proof

/-- One constructor per row of the opcode table. -/
inductive Instr where
  /-- COMPRESS, OP 0x1 (R63, R88). -/
  | compress
  /-- DECOMPRESS, OP 0x2 (R63, R96). -/
  | decompress
  /-- BLOCK_WRITE, OP 0x3 (R63, R111). -/
  | blockWrite
  /-- BLOCK_READ, OP 0x4 (R63, R112). -/
  | blockRead
  /-- ILLEGAL_CMD: the verdict for the command word `w` that is none of the four above (R64, R77, R128). -/
  | illegalCmd (w : Word)
  /-- RUN: the 3-byte token `00 c v` (R67, R68 (a)). -/
  | run (c v : Byte)
  /-- LIT0_TAIL: the byte 0x00 with fewer than two stream bytes after it, a literal zero (R68 (b)). -/
  | lit0Tail
  /-- LIT: the literal byte `l`, not 0x00 (R66, R68 (c)). -/
  | lit (l : Byte)
  deriving DecidableEq, Repr

end Sys2Proof
end

