-- ==== Sys2Proof/Config.lean ====
section
/-! DEFINITION. The implementation parameters of 00_scope.md R11 and the lengths derived from them. The
parameters are fixed for one block; the constraints a legal configuration meets are `Config.wf` in
WellFormed.lean. The spec leaves no value free in this hardware, so this file holds no free value. -/

namespace Sys2Proof

/-- `RAW_MODE` (R11, conflict C4): where a RAW block's bytes go. -/
inductive RawMode where
  /-- `WIDE`: the physical block is S + 4 bytes and holds the whole logical block (R74). -/
  | wide
  /-- `TRUNC`: the physical block is S bytes and the last 4 logical bytes are dropped (R75). -/
  | trunc
  deriving DecidableEq, Repr

/-- `ZERO_LIT_MODE` (R11, conflict C1): how a short zero piece is written. -/
inductive ZeroLitMode where
  /-- `ESCAPE`: away from the end, as the run record `00 L 00` (R85). -/
  | escape
  /-- `VERBATIM`: as L zero literals everywhere (R85). -/
  | verbatim
  deriving DecidableEq, Repr

/-- The parameters of one block (R11), with the default configuration of R12 as the field defaults. -/
structure Config where
  /-- `SECTOR_SIZE`, written S: the length of a logical block. -/
  sectorSize : Nat := 512
  /-- `IN_CAP`: the length of the IN buffer. -/
  inCap : Nat := 1024
  /-- `RAW_MODE`. -/
  rawMode : RawMode := .wide
  /-- `ZERO_LIT_MODE`. -/
  zeroLitMode : ZeroLitMode := .escape
  /-- `STRICT_DECODE`. -/
  strictDecode : Bool := false
  deriving DecidableEq, Repr

namespace Config

/-- `HDR_SIZE`: the bytes of the size field (R11). -/
def hdrSize : Nat := 4

/-- `MIN_RUN`: the shortest run written as a run record whatever its byte (R11). -/
def minRun : Nat := 3

/-- `MAX_RUN`: the longest run one record can count (R11). -/
def maxRun : Nat := 255

/-- `MARKER`: the byte that opens a run record (R11). -/
def marker : Byte := 0x00

/-- The default configuration (R12). -/
def default : Config := {}

/-- `CAP` = S − 4: the largest compressed length stored ENCODED (R11). -/
def cap (c : Config) : Nat := c.sectorSize - hdrSize

/-- `OUT_CAP` = 2 × IN_CAP: the length of the OUT buffer (R11). -/
def outCap (c : Config) : Nat := 2 * c.inCap

/-- `PHYS_SIZE`: the length of a physical block, S + 4 under WIDE and S under TRUNC (R11). -/
def physSize (c : Config) : Nat :=
  match c.rawMode with
  | .wide => c.sectorSize + hdrSize
  | .trunc => c.sectorSize

end Config

end Sys2Proof
end

