-- ==== Sys2Proof/WellFormed.lean ====
section
/-! DEFINITION. What a well-formed instruction and a legal configuration are. Three checks on instructions and
configurations: the word of an illegal command is none of the four legal words (30_encoding.md R64), a LIT token
is not 0x00 (R66), and the parameters meet every constraint of 00_scope.md R11. -/

namespace Sys2Proof

/-- The four legal command words (R63: "the four legal command words are exactly 0x00000001, 0x00000002,
0x00000003 and 0x00000004"). -/
def legalCommandWords : List Word := [0x00000001, 0x00000002, 0x00000003, 0x00000004]

/-- A well-formed instruction: its operands are ones its table row can hold (R64, R66, R77). -/
def Instr.wf : Instr → Bool
  | .compress => true
  | .decompress => true
  | .blockWrite => true
  | .blockRead => true
  | .illegalCmd w => !legalCommandWords.contains w
  | .run _ _ => true
  | .lit0Tail => true
  | .lit l => l != Config.marker

/-- A legal configuration: 5 ≤ S ≤ IN_CAP ≤ 2048, CAP ≥ 1 and PHYS_SIZE ≤ 4096 (R11). -/
def Config.wf (c : Config) : Bool :=
  decide (5 ≤ c.sectorSize) && decide (c.sectorSize ≤ c.inCap) && decide (c.inCap ≤ 2048) &&
    decide (1 ≤ c.cap) && decide (c.physSize ≤ 4096)

/-- A legal store size: DEV_SECTORS is in 0..2^32 − 1 (R11, R39). -/
def devSectorsLegal (n : Nat) : Bool := decide (n ≤ 2 ^ 32 - 1)

end Sys2Proof
end

