-- ==== Sys2Proof/Decode.lean ====
section
/-! DEFINITION. The byte order of the block (00_scope.md R13), the decoder of its two encoded formats
(30_encoding.md R61: command words and stream tokens), the encoder written from the same tables, and the opcode
table's mnemonics. -/

namespace Sys2Proof

/-- `LE32(b0, b1, b2, b3)`: the little-endian reading of four bytes (R13). -/
def le32 (b0 b1 b2 b3 : Byte) : Word :=
  BitVec.ofNat 32 (b0.toNat + 256 * b1.toNat + 65536 * b2.toNat + 16777216 * b3.toNat)

/-- `bytesLE32(v)` = `[v[7:0], v[15:8], v[23:16], v[31:24]]` (R13). -/
def bytesLE32 (v : Word) : List Byte :=
  [v.extractLsb' 0 8, v.extractLsb' 8 8, v.extractLsb' 16 8, v.extractLsb' 24 8]

/-- The OP field `CMD[3:0]` of a command word (R62, R69). -/
def opField (w : Word) : BitVec 4 := w.extractLsb' 0 4

/-- The RSV field `CMD[31:4]` of a command word (R62). -/
def rsvField (w : Word) : BitVec 28 := w.extractLsb' 4 28

/-- One command row of the opcode table: it matches a word when `(word & mask) = match` (R77). -/
structure CommandRow where
  /-- The row's match value. -/
  pattern : Word
  /-- The row's mask. -/
  mask : Word
  /-- The instruction the row stands for. -/
  instr : Instr
  deriving DecidableEq, Repr

/-- The four command rows, in table order (R63, R77). -/
def commandRows : List CommandRow :=
  [⟨0x00000001, 0xFFFFFFFF, .compress⟩, ⟨0x00000002, 0xFFFFFFFF, .decompress⟩,
   ⟨0x00000003, 0xFFFFFFFF, .blockWrite⟩, ⟨0x00000004, 0xFFFFFFFF, .blockRead⟩]

/-- Decodes a command word: the first row that matches, else the verdict ILLEGAL_CMD (R64: "the decoder is total";
R77: "Rows are checked in table order"). -/
def decodeCommand (w : Word) : Instr :=
  match commandRows.find? (fun r => w &&& r.mask == r.pattern) with
  | some r => r.instr
  | none => .illegalCmd w

/-- The two formats of the opcode table (R61). -/
inductive Format where
  /-- `cmd`: one 32-bit word (R62). -/
  | cmd
  /-- `rle_token`: one or three bytes at a token boundary of a stream (R65). -/
  | rleToken
  deriving DecidableEq, Repr

/-- Why bytes are no instruction. -/
inductive DecodeError where
  /-- Fewer than the four bytes of a command word (R61). -/
  | shortCommandWord
  /-- No byte stands at the stream position, so there is no token (R68: "let the decoder stand at a token boundary
  i < N"). -/
  | endOfStream
  deriving DecidableEq, Repr

/-- The token at the head of the unread stream bytes `C[i..N)`, and the bytes after it (R68, R69). The three cases
are R68 (a), (b) and (c): a 0x00 with two bytes after it opens a RUN, any other 0x00 is a literal, and so is any
other byte. -/
def decodeToken : List Byte → Except DecodeError (Instr × List Byte)
  | [] => .error .endOfStream
  | b :: bs =>
    if b = Config.marker then
      match bs with
      | c :: v :: rest => .ok (.run c v, rest)
      | _ => .ok (.lit0Tail, bs)
    else .ok (.lit b, bs)

/-- Decodes the head of a byte list in the given format; total, and it rejects by name (R61, R64, R68). -/
def decode : Format → List Byte → Except DecodeError (Instr × List Byte)
  | .cmd, b0 :: b1 :: b2 :: b3 :: rest => .ok (decodeCommand (le32 b0 b1 b2 b3), rest)
  | .cmd, _ => .error .shortCommandWord
  | .rleToken, bs => decodeToken bs

/-- The command word of a command, from the OP table of R63; an illegal command's word is its operand. A token has
no command word. -/
def commandWord : Instr → Option Word
  | .compress => some 0x00000001
  | .decompress => some 0x00000002
  | .blockWrite => some 0x00000003
  | .blockRead => some 0x00000004
  | .illegalCmd w => some w
  | .run _ _ => none
  | .lit0Tail => none
  | .lit _ => none

/-- The format of an instruction's row in the opcode table. -/
def Instr.format : Instr → Format
  | .compress => .cmd
  | .decompress => .cmd
  | .blockWrite => .cmd
  | .blockRead => .cmd
  | .illegalCmd _ => .cmd
  | .run _ _ => .rleToken
  | .lit0Tail => .rleToken
  | .lit _ => .rleToken

/-- Encodes an instruction as bytes: a command as its word, least significant byte first (R46, R63), a token as
R65 writes it. -/
def encode : Instr → List Byte
  | .compress => bytesLE32 0x00000001
  | .decompress => bytesLE32 0x00000002
  | .blockWrite => bytesLE32 0x00000003
  | .blockRead => bytesLE32 0x00000004
  | .illegalCmd w => bytesLE32 w
  | .run c v => [Config.marker, c, v]
  | .lit0Tail => [Config.marker]
  | .lit l => [l]

/-- Whether the bytes `rest` may follow the instruction's own in a stream for the row's condition to hold: a
trailing zero literal has fewer than two bytes after it (R68 (b), the table's condition `i + 2 >= N`); no other row
looks past its own bytes. -/
def Instr.follows (i : Instr) (rest : List Byte) : Bool :=
  match i with
  | .lit0Tail => decide (rest.length < 2)
  | .compress => true
  | .decompress => true
  | .blockWrite => true
  | .blockRead => true
  | .illegalCmd _ => true
  | .run _ _ => true
  | .lit _ => true

/-- The mnemonic of an instruction's row (R79, and the token and verdict rows of R77). -/
def Instr.mnemonic : Instr → String
  | .compress => "COMPRESS"
  | .decompress => "DECOMPRESS"
  | .blockWrite => "BLOCK_WRITE"
  | .blockRead => "BLOCK_READ"
  | .illegalCmd _ => "ILLEGAL_CMD"
  | .run _ _ => "RUN"
  | .lit0Tail => "LIT0_TAIL"
  | .lit _ => "LIT"

/-- The first `n` bytes of a number, least significant first. -/
def numberBytes : Nat → Nat → List Byte
  | 0, _ => []
  | n + 1, w => BitVec.ofNat 8 w :: numberBytes n (w / 256)

/-- The format of a table row of `nbits` bits: a command row has 32 bits, a token row at most 24
(opcode_table.json: lengths 1 and 3 bytes). -/
def formatOfBits (nbits : Nat) : Format := if nbits ≤ 24 then .rleToken else .cmd

/-- The bytes the hardware stores for a table row's bits: the `nbits / 8` bytes of a token, the four bytes of a
command word. -/
def tableBytes (nbits w : Nat) : List Byte :=
  match formatOfBits nbits with
  | .rleToken => numberBytes (nbits / 8) w
  | .cmd => numberBytes 4 w

/-- The instruction the decoder reads from a table row's bits. -/
def decodeTableWord (nbits w : Nat) : Option Instr :=
  match decode (formatOfBits nbits) (tableBytes nbits w) with
  | .ok (i, _) => some i
  | .error _ => none

end Sys2Proof
end

