-- ==== Sys2Proof/Machine/State.lean ====
section
/-! DEFINITION. The state of the model as plain data: the Engine's nine registers and three buffers (10_state.md
R18, R20, R33 to R35), the decoder's hidden state (R36), the Store (R37 to R39), the Host agent's program and what it
has observed (R8, R17, R82), and the configuration the block was built with (00_scope.md R11). With it the reasons a
step can stop, and the state after reset (R41). -/

namespace Sys2Proof.Machine

/-- A memory: (address, byte) pairs in one canonical form (`Memory.wf`). What an address that is not listed reads as
is a constant of the memory: `bufferBlank` for the buffers, `storeBlank` for the Store. -/
abbrev Memory := List Host.Cell

/-- What a buffer byte that is not listed reads as: 0x00, its reset value (R41). -/
def bufferBlank : Byte := 0x00

/-- What a Store byte that is not listed reads as. DESIGN CHOICE (assumption 1, unsafe): the launch contents are any
bytes (R37), and 0xEE is the launch byte of the programs of 95_test_vectors.md section 3. Any other launch contents
are a `State` whose `disk` lists them. -/
def storeBlank : Byte := 0xEE

/-- The canonical form: addresses strictly rising, and no entry equal to what an unlisted address reads as. -/
abbrev Memory.wf (blank : Byte) (m : Memory) : Prop :=
  m.Pairwise (fun a b => a.1 < b.1) ∧ ∀ c ∈ m, c.2 ≠ blank

/-- The nine registers of the host window (R20). -/
inductive Reg where
  | cmd | status | inLen | origLen | sector | outLen | hdr | consumed | produced
  deriving DecidableEq, Repr

/-- The three byte buffers of the host window (R33 to R35). -/
inductive Buffer where
  /-- IN, IN_CAP bytes, read and written by the Host (R33). -/
  | inB
  /-- OUT, OUT_CAP bytes, read-only to the Host (R34). -/
  | outB
  /-- PHYS, PHYS_SIZE bytes, read-only to the Host (R35). -/
  | physB
  deriving DecidableEq, Repr

/-- The error codes STATUS.ERR takes (R23). -/
inductive ErrCode where
  | none | invalid | illegalCmd | range | corrupt
  deriving DecidableEq, Repr

/-- The conditions that raise a fatal error (R24, R129). -/
inductive FatalCode where
  /-- SECTOR is not below DEV_SECTORS (R131). -/
  | range
  /-- The inspector found an unusable size field, or a strict decode failed (R132). -/
  | corrupt
  deriving DecidableEq, Repr

/-- The state of a physical block as its writer decided it (R25, R108), held in STATUS.MODE. -/
inductive BlockMode where
  | raw | encoded
  deriving DecidableEq, Repr

/-- The command a decoder scan belongs to: the one whose results the scan's end writes (R96, R112). -/
inductive Owner where
  | decompress | blockRead
  deriving DecidableEq, Repr

/-- The decoder's hidden state inside a DECOMPRESS or an ENCODED BLOCK_READ (R36: "the decoder's stream position i
and produced count p"), with the stream bytes not yet read and the bytes produced. -/
structure Decoder where
  /-- The unread stream bytes `C[i..N)`. -/
  rest : List Byte
  /-- The stream position i. -/
  pos : Nat
  /-- The output D so far, the latest byte first; its length is the produced count p. -/
  made : List Byte
  /-- The output capacity that remains, Lout − len(D) (R67, R92). -/
  room : Nat
  /-- The command the scan runs inside. -/
  owner : Owner
  deriving DecidableEq, Repr

/-- The direction of a host access (R82). -/
inductive Dir where
  | read | write
  deriving DecidableEq, Repr

/-- A host access as R82 encodes it: the tuple (direction, width, offset, value). The width is in bits and may be any
number, since the window turns every width but 8 and 32 away (R51); a read has no use for the value. -/
structure Access where
  dir : Dir
  width : Nat
  off : Nat
  value : Word
  deriving DecidableEq, Repr

/-- What the Host agent may do next (R8, R82, R145). -/
inductive HostAction where
  /-- One access to the window. -/
  | access (a : Access)
  /-- `W8 off` of the byte the access before it read: the second half of COPYBACK (R81). -/
  | writeBack8 (off : Nat)
  /-- RESET, the platform's reset as a Host-side action (R145). -/
  | reset
  deriving DecidableEq, Repr

/-- What the Host observes of one action. -/
inductive Response where
  /-- The value a read returned; an 8-bit read's byte stands in bits 7:0. -/
  | value (v : Word)
  /-- A write the window took. -/
  | written
  /-- A bus error: the access had no effect on any state (R52, R133). -/
  | busError
  /-- A RESET (R145). -/
  | resetDone
  /-- No access was made: a write-back with no byte read before it. -/
  | nothing
  deriving DecidableEq, Repr

/-- The state of the model. -/
structure State where
  /-- The parameters the block was built with (R11); no step changes them (R18). -/
  cfg : Config
  /-- CMD, offset 0x000 (R21). -/
  cmd : Word
  /-- STATUS, offset 0x004: ERR in 3:0, FATAL in 4, MODE in 5, the rest reserved (R22). -/
  status : Word
  /-- IN_LEN, offset 0x008 (R26). -/
  inLen : Word
  /-- ORIG_LEN, offset 0x00C (R27). -/
  origLen : Word
  /-- SECTOR, offset 0x010 (R28). -/
  sector : Word
  /-- OUT_LEN, offset 0x014 (R29). -/
  outLen : Word
  /-- HDR, offset 0x018 (R30). -/
  hdr : Word
  /-- CONSUMED, offset 0x01C (R31). -/
  consumed : Word
  /-- PRODUCED, offset 0x020 (R32). -/
  produced : Word
  /-- IN[0..IN_CAP) (R33), by index. -/
  inBuf : Memory
  /-- OUT[0..OUT_CAP) (R34), by index. -/
  outBuf : Memory
  /-- PHYS[0..PHYS_SIZE) (R35), by index. -/
  phys : Memory
  /-- The decoder's hidden state (R36): none between host accesses, some while a scan is in progress. -/
  decoder : Option Decoder
  /-- DEV_SECTORS, the Store's size in blocks (R39). -/
  devSectors : Nat
  /-- The Store's blocks (R37): byte j of Blk[s] is at address s × PHYS_SIZE + j. -/
  disk : Memory
  /-- RD_CNT (R38). -/
  rdCnt : Word
  /-- WR_CNT (R38). -/
  wrCnt : Word
  /-- The Host's remaining actions, the next one first (R17, R82). -/
  program : List HostAction
  /-- What the Host has observed, the latest first (R17). -/
  responses : List Response
  deriving DecidableEq, Repr

/-- Why a step stops with a fault. -/
inductive Fault where
  /-- Raised by the meanings of RUN, LIT0_TAIL and LIT, run by themselves in a state where the decoder does not stand
  at a boundary of such a token. A token is a piece of a stream that a scan reads (R68, R92: "At stream position
  i < N, with output D so far and len(D) < Lout"); the spec gives it no effect anywhere else. Safe: the model stops,
  and no step of the machine raises it (`State.fetch` hands a token to its meaning only at its boundary). -/
  | tokenOutsideScan
  deriving DecidableEq, Repr

/-- Why a step is refused. -/
inductive Refusal where
  /-- No meaning for the instruction. No arm of the dispatch raises it in this model. Safe. -/
  | notModelled (mnemonic : String)
  /-- Raised by `step` when the parameters break a constraint of R11 ("It must refuse a configuration that breaks any
  constraint in the last column"). Safe: such a block does not exist. -/
  | illegalConfig
  deriving DecidableEq, Repr

namespace State

/-- The state of a block after reset with the Store attached and a host program waiting (R41, R147). The Store's size,
blocks and counters are launch arguments (R37 to R39), and so is the program (R17). -/
def launch (cfg : Config) (devSectors : Nat) (disk : Memory) (rdCnt wrCnt : Word)
    (program : List HostAction) : State where
  cfg := cfg
  cmd := 0
  status := 0
  inLen := 0
  origLen := 0
  sector := 0
  outLen := 0
  hdr := 0
  consumed := 0
  produced := 0
  inBuf := []
  outBuf := []
  phys := []
  decoder := none
  devSectors := devSectors
  disk := disk
  rdCnt := rdCnt
  wrCnt := wrCnt
  program := program
  responses := []

/-- The machine right after reset: every register 0 and every buffer byte 0x00 (R41), with the default configuration
(R12) and no host program. DESIGN CHOICE (assumptions 1 to 3, unsafe): the launch arguments, for which the spec gives
no value, are those of the programs of 95_test_vectors.md section 3, DEV_SECTORS = 8, every block 0xEE, and both
counters 0. -/
def reset : State := launch Config.default 8 [] 0 0 []

end State

end Sys2Proof.Machine
end

