-- ==== Sys2Proof/Machine/Flags.lean ====
section
/-! DEFINITION. The flags of the machine: the fields of STATUS (10_state.md R22 to R25), how each is read and how a
command writes it. STATUS is the only register with fields; the codec and the adapter compute no carry, zero or sign
flag (40_codec.md R102). -/

namespace Sys2Proof.Machine

/-- The value of an error code in STATUS.ERR (R23). -/
def ErrCode.toWord : ErrCode → Word
  | .none => 0
  | .invalid => 1
  | .illegalCmd => 2
  | .range => 3
  | .corrupt => 4

/-- An error code as the 4 bits of STATUS.ERR (R22). -/
def ErrCode.code (e : ErrCode) : BitVec 4 := e.toWord.extractLsb' 0 4

/-- The error code of a fatal condition (R24). -/
def FatalCode.err : FatalCode → ErrCode
  | .range => .range
  | .corrupt => .corrupt

/-- STATUS.MODE as a bit: 0 for RAW, 1 for ENCODED (R22, R25). -/
def BlockMode.toBool : BlockMode → Bool
  | .raw => false
  | .encoded => true

/-- STATUS.ERR, bits 3:0 (R22). -/
def errField (st : Word) : BitVec 4 := st.extractLsb' 0 4

/-- STATUS.FATAL, bit 4 (R22, R24). -/
def fatalBit (st : Word) : Bool := st.getLsbD 4

/-- STATUS.MODE, bit 5 (R22, R25). -/
def modeBit (st : Word) : Bool := st.getLsbD 5

/-- STATUS bits 31:6, reserved (R22). -/
def reservedBits (st : Word) : BitVec 26 := st.extractLsb' 6 26

/-- STATUS as the Host reads it: bits 31:6 are hardwired to 0 (R22). -/
def statusView (st : Word) : Word := st &&& 0x0000003F

/-- Writes STATUS.ERR and nothing else (R23). -/
def withErr (st : Word) (e : ErrCode) : Word := (st &&& 0xFFFFFFF0) ||| e.toWord

/-- Sets STATUS.FATAL and nothing else (R24). -/
def withFatal (st : Word) : Word := st ||| 0x00000010

/-- Writes STATUS.MODE and nothing else (R25). -/
def withMode (st : Word) (m : BlockMode) : Word :=
  (st &&& 0xFFFFFFDF) ||| (if m.toBool then 0x00000020 else 0)

end Sys2Proof.Machine
end

