-- ==== Sys2Proof/Machine/Ops.lean ====
section
/-! DEFINITION. The shared operations: reading and writing a memory, the register file, the two Store primitives
(20_memory.md R50), the non-fatal and fatal error entries (60_exceptions.md R126, R129) and reset, the only way out of
the FATAL condition (R136, 70_reset_and_hazards.md R144), the decoder's token steps (40_codec.md R92), and the
command gate (R130). -/

namespace Sys2Proof.Machine

/-! ## Memories -/

namespace Memory

/-- The byte at address `a`. -/
def read (blank : Byte) : Memory → Nat → Byte
  | [], _ => blank
  | (k, b) :: m, a => if k = a then b else read blank m a

/-- The bytes at the `n` addresses from `base` on, of a memory that lists no address below `base`. -/
def unroll (blank : Byte) : Memory → Nat → Nat → List Byte
  | _, _, 0 => []
  | [], base, n + 1 => blank :: unroll blank [] (base + 1) n
  | (k, b) :: m, base, n + 1 =>
    if k = base then b :: unroll blank m (base + 1) n else blank :: unroll blank ((k, b) :: m) (base + 1) n

/-- The `n` bytes from address `base` on. -/
def readRange (blank : Byte) (m : Memory) (base n : Nat) : List Byte :=
  unroll blank (m.filter (fun c => decide (base ≤ c.1))) base n

/-- The canonical entries of the bytes `bs` stored from address `base` on. -/
def cells (blank : Byte) : Nat → List Byte → Memory
  | _, [] => []
  | base, b :: bs => if b = blank then cells blank (base + 1) bs else (base, b) :: cells blank (base + 1) bs

/-- Stores the bytes `bs` from address `base` on and leaves every other address alone. -/
def write (blank : Byte) (m : Memory) (base : Nat) (bs : List Byte) : Memory :=
  m.filter (fun c => decide (c.1 < base)) ++ cells blank base bs ++
    m.filter (fun c => decide (base + bs.length ≤ c.1))

end Memory

/-- A whole buffer that holds exactly `bs`. -/
def bufferOf (bs : List Byte) : Memory := Memory.cells bufferBlank 0 bs

/-- `B ++ rep(0x00, n − len(B))`: a result, then zero bytes up to length `n` (R34, R73). -/
def zeroPadded (n : Nat) (bs : List Byte) : List Byte := bs ++ List.replicate (n - bs.length) 0x00

namespace State

/-! ## The register file -/

/-- `Reg[NAME]` as the Host reads it (R14, R20): the register, with STATUS's reserved bits hardwired to 0 (R22). -/
def readReg (s : State) : Reg → Word
  | .cmd => s.cmd
  | .status => statusView s.status
  | .inLen => s.inLen
  | .origLen => s.origLen
  | .sector => s.sector
  | .outLen => s.outLen
  | .hdr => s.hdr
  | .consumed => s.consumed
  | .produced => s.produced

/-- A host write to a register: it changes the four RW registers and turns the RO ones away (R20, R52 (c)). -/
def writeReg (s : State) (v : Word) : Reg → Option State
  | .cmd => some { s with cmd := v }
  | .inLen => some { s with inLen := v }
  | .origLen => some { s with origLen := v }
  | .sector => some { s with sector := v }
  | .status => none
  | .outLen => none
  | .hdr => none
  | .consumed => none
  | .produced => none

/-! ## Errors, the fatal entry, and reset -/

/-- STATUS.FATAL = 1 (R24). -/
def fatal (s : State) : Bool := fatalBit s.status

/-- Ends a command with a non-fatal error code in STATUS.ERR and nothing else (R126, R128). -/
def setErr (s : State) (e : ErrCode) : State := { s with status := withErr s.status e }

/-- `fail Invalid`: a codec command ends with ERR = INVALID and OUT_LEN = 0, and writes nothing else (R126, R127). -/
def failInvalid (s : State) : State := { s with outLen := 0, status := withErr s.status .invalid }

/-- `raise Fatal(code)`, the one fatal entry (R129): STATUS.ERR takes the code, STATUS.FATAL becomes 1, and
everything the command did before stays done. -/
def raiseFatal (s : State) (c : FatalCode) : State :=
  { s with status := withFatal (withErr s.status c.err) }

/-- RESET (R41, R144): every register 0 and every buffer byte 0x00, no scan in progress, the Store untouched. It is the
one way back from the FATAL condition (R136). The configuration, the Host's program and what it observed are no
Engine state. -/
def resetEngine (s : State) : State :=
  { s with
    cmd := 0, status := 0, inLen := 0, origLen := 0, sector := 0, outLen := 0, hdr := 0, consumed := 0,
    produced := 0, inBuf := [], outBuf := [], phys := [], decoder := none }

/-- The gate of every command word (R130, R134 step 1): while STATUS.FATAL = 1 nothing executes. -/
def whenLive (s : State) (k : State → Host.Outcome State Fault Refusal) : Host.Outcome State Fault Refusal :=
  if s.fatal then .next s else k s

/-- Records what the Host observes of the action just taken. -/
def respond (s : State) (r : Response) : State := { s with responses := r :: s.responses }

/-- The Host's remaining actions, after it has taken the one before them. -/
def withProgram (s : State) (p : List HostAction) : State := { s with program := p }

/-! ## The Store (R50) -/

/-- The address of byte 0 of `Blk[sec]` in `disk` (R37). -/
def blockBase (s : State) (sec : Nat) : Nat := sec * s.cfg.physSize

/-- `Blk[sec]`: the whole physical block of a sector, PHYS_SIZE bytes (R37). -/
def block (s : State) (sec : Nat) : List Byte :=
  Memory.readRange storeBlank s.disk (s.blockBase sec) s.cfg.physSize

/-- `DevRead(sec)`'s effect on the Store: RD_CNT + 1 mod 2^32 (R38, R50). The block it returns is `block`. -/
def devRead (s : State) : State := { s with rdCnt := s.rdCnt + 1 }

/-- `DevWrite(sec, blk)`: replaces the whole block and adds 1 to WR_CNT mod 2^32 (R38, R50). -/
def devWrite (s : State) (sec : Nat) (blk : List Byte) : State :=
  { s with disk := Memory.write storeBlank s.disk (s.blockBase sec) blk, wrCnt := s.wrCnt + 1 }

/-- `PHYS[0..PHYS_SIZE) <- blk` (R35). -/
def setPhys (s : State) (blk : List Byte) : State := { s with phys := bufferOf blk }

end State

/-! ## The decoder's token steps (R92) -/

namespace Decoder

/-- A scan of the stream `c` for `want` bytes, at position 0 with nothing produced (R93: `i <- 0; D <- []`). -/
def start (c : List Byte) (want : Nat) (owner : Owner) : Decoder := ⟨c, 0, [], want, owner⟩

/-- The output D so far (R92). -/
def out (d : Decoder) : List Byte := d.made.reverse

/-- The requested length Lout (R91). -/
def want (d : Decoder) : Nat := d.made.length + d.room

/-- The scan's loop goes on: `i < N and len(D) < Lout` (R93). -/
def ready (d : Decoder) : Bool := !d.rest.isEmpty && decide (0 < d.room)

/-- The RUN step: 3 stream bytes are consumed and `k = min(c, Lout − len(D))` copies of `v` produced (R92). -/
def takeRun (d : Decoder) (c v : Byte) : Decoder :=
  let k := min c.toNat d.room
  { d with rest := d.rest.drop 3, pos := d.pos + 3, made := List.replicate k v ++ d.made, room := d.room - k }

/-- The LIT step: 1 stream byte is consumed and `b` produced (R92). -/
def takeLit (d : Decoder) (b : Byte) : Decoder :=
  { d with rest := d.rest.drop 1, pos := d.pos + 1, made := b :: d.made, room := d.room - 1 }

/-- The token that stands at the scan's position, if the stream has a byte there (R68). -/
def token (d : Decoder) : Option Instr :=
  match decodeToken d.rest with
  | .ok (i, _) => some i
  | .error _ => none

/-- The step of a token: a RUN's, or a literal's (R92). A command is no token and takes no step of the decoder. -/
def take (d : Decoder) : Instr → Decoder
  | .run c v => d.takeRun c v
  | .lit0Tail => d.takeLit Config.marker
  | .lit l => d.takeLit l
  | .compress => d
  | .decompress => d
  | .blockWrite => d
  | .blockRead => d
  | .illegalCmd _ => d

/-- `DecStep` (R92): the step of the token that stands at the scan's position. -/
def step (d : Decoder) : Decoder :=
  match d.token with
  | some i => d.take i
  | none => d

/-- The loop of R93, at most `n` iterations. -/
def scanFor : Nat → Decoder → Decoder
  | 0, d => d
  | n + 1, d => if d.ready then scanFor n d.step else d

/-- The whole scan (R93): it ends after at most N iterations, since each consumes at least one stream byte. -/
def scan (d : Decoder) : Decoder := scanFor d.rest.length d

end Decoder

namespace State

/-- A command opens its scan (R36, R93). -/
def openDecoder (s : State) (d : Decoder) : State := { s with decoder := some d }

/-- The open scan runs to its end inside the command's atomic step (R9, R36). -/
def runDecoder (s : State) : State := { s with decoder := s.decoder.map Decoder.scan }

/-- Runs the token `i` by itself: its step, where the decoder's scan goes on and `i` stands at its position. -/
def tokenStep (s : State) (i : Instr) (f : Decoder → Decoder) : Host.Outcome State Fault Refusal :=
  match s.decoder with
  | some d =>
    if d.ready && d.token == some i then .next { s with decoder := some (f d) } else .fault .tokenOutsideScan
  | none => .fault .tokenOutsideScan

end State

end Sys2Proof.Machine
end

