-- ==== Sys2Proof/Machine/Operands.lean ====
section
/-! DEFINITION. Every operand form of the commands (30_encoding.md R62, R69): a command word has no operand fields, so
the operands are the registers IN_LEN, ORIG_LEN and SECTOR, slices of IN, and, for a physical block, its size field and
payload. -/

namespace Sys2Proof.Machine

/-- The size field of a physical block: `LE32(P[0], P[1], P[2], P[3])` (R44, R69, R72). -/
def sizeField (p : List Byte) : Word := le32 (p.getD 0 0) (p.getD 1 0) (p.getD 2 0) (p.getD 3 0)

/-- `B[a..b)`: the bytes at indices a ≤ i < b (R13). -/
def slice (bs : List Byte) (a b : Nat) : List Byte := (bs.drop a).take (b - a)

namespace State

/-- `IN[0..n)` (R33). -/
def inBytes (s : State) (n : Nat) : List Byte := Memory.readRange bufferBlank s.inBuf 0 n

/-- `OUT[0..n)` (R34). -/
def outBytes (s : State) (n : Nat) : List Byte := Memory.readRange bufferBlank s.outBuf 0 n

/-- `PHYS[0..n)` (R35). -/
def physBytes (s : State) (n : Nat) : List Byte := Memory.readRange bufferBlank s.phys 0 n

/-- The codec's input length, `Reg[IN_LEN]` (R26). -/
def inputLength (s : State) : Nat := s.inLen.toNat

/-- The requested decoded length, `Reg[ORIG_LEN]` (R27). -/
def requestedLength (s : State) : Nat := s.origLen.toNat

/-- The codec's input, `IN[0..IN_LEN)` (R33, R69). -/
def codecInput (s : State) : List Byte := s.inBytes s.inputLength

/-- The sector operand of a block command, `Reg[SECTOR]` (R28). -/
def sectorIndex (s : State) : Nat := s.sector.toNat

/-- The logical block `IN[0..S)`; IN_LEN is not read (R33, R111). -/
def logicalBlock (s : State) : List Byte := s.inBytes s.cfg.sectorSize

/-- COMPRESS's argument check fails: `n = 0 or n > IN_CAP` (R88, R127). -/
def compressInvalid (s : State) : Bool := decide (s.inputLength = 0) || decide (s.cfg.inCap < s.inputLength)

/-- DECOMPRESS's argument check fails: `N = 0 or N > IN_CAP or Lout = 0 or Lout > OUT_CAP` (R96, R127). -/
def decompressInvalid (s : State) : Bool :=
  decide (s.inputLength = 0) || decide (s.cfg.inCap < s.inputLength) ||
    decide (s.requestedLength = 0) || decide (s.cfg.outCap < s.requestedLength)

/-- The range check of a block command fails: `s ≥ DEV_SECTORS` (R110, R131). -/
def sectorOutOfRange (s : State) : Bool := decide (s.devSectors ≤ s.sectorIndex)

end State

end Sys2Proof.Machine
end

