-- ==== Sys2Proof/Machine/Codec.lean ====
section
/-! DEFINITION. The codec: the encoder (40_codec.md R83 to R86), the decoder as a function (R91 to R93), and the commands
COMPRESS (R88) and DECOMPRESS (R96). The spec's scan position i in X is the suffix `X[i..n)` here: `X[i]` is its head
and n − i its length. -/

namespace Sys2Proof.Machine

/-! ## Encoder -/

/-- How many of the first `limit` bytes of a list equal `v` without a break. -/
def runLength (v : Byte) : Nat → List Byte → Nat
  | 0, _ => 0
  | _ + 1, [] => 0
  | limit + 1, b :: bs => if b = v then runLength v limit bs + 1 else 0

/-- `PieceLen(X, i)` on the suffix `X[i..n)`: the length of the run at its head, capped at MAX_RUN (R84). -/
def pieceLen : List Byte → Nat
  | [] => 0
  | v :: bs => 1 + runLength v (Config.maxRun - 1) bs

/-- `i ≥ n − 2` on the suffix `X[i..n)`: at most two bytes are left (R85). -/
def inTail (suffix : List Byte) : Bool := decide (suffix.length ≤ 2)

/-- `EmitPiece`: the tokens of a piece of `len` bytes `v`, `tail` saying whether it starts in the last two positions
(R85). -/
def emitPiece (mode : ZeroLitMode) (v : Byte) (len : Nat) (tail : Bool) : List Byte :=
  if Config.minRun ≤ len then [Config.marker, BitVec.ofNat 8 len, v]
  else if v ≠ Config.marker then List.replicate len v
  else if mode = .verbatim then List.replicate len Config.marker
  else if tail then List.replicate len Config.marker
  else [Config.marker, BitVec.ofNat 8 len, Config.marker]

/-- The loop of `Encode` on a suffix, at most `n` iterations (R86). -/
def encodeFor (mode : ZeroLitMode) : Nat → List Byte → List Byte
  | 0, _ => []
  | _ + 1, [] => []
  | n + 1, v :: bs =>
    let suffix := v :: bs
    let len := pieceLen suffix
    emitPiece mode v len (inTail suffix) ++ encodeFor mode n (suffix.drop len)

/-- `Encode(X)`: the stream of X; the loop ends after at most n iterations, since a piece has at least one byte
(R86). -/
def encodeBytes (mode : ZeroLitMode) (x : List Byte) : List Byte := encodeFor mode x.length x

/-! ## Decoder -/

/-- The decoder's result `(data, cons, prod)` (R93). -/
structure Decoded where
  /-- The bytes produced. -/
  data : List Byte
  /-- The final stream position. -/
  cons : Nat
  /-- The number of bytes produced. -/
  prod : Nat
  deriving DecidableEq, Repr

/-- What a scan has come to: its output, position and produced count (R93). -/
def Decoder.result (d : Decoder) : Decoded := ⟨d.out, d.pos, d.made.length⟩

/-- `Decode(C, Lout)` (R93). -/
def decodeBytes (c : List Byte) (want : Nat) : Decoded := (Decoder.start c want .decompress).scan.result

/-! ## COMPRESS and DECOMPRESS -/

namespace State

/-- The writes of a COMPRESS that completes with stream `z` (R40, R88). -/
def commitCompress (s : State) (z : List Byte) : State :=
  { s with
    outBuf := bufferOf (zeroPadded s.cfg.outCap z)
    outLen := BitVec.ofNat 32 z.length
    consumed := s.inLen
    produced := BitVec.ofNat 32 z.length
    status := withErr s.status .none }

/-- The writes of a DECOMPRESS whose scan came to `r` (R40, R96). -/
def commitDecompress (s : State) (want : Nat) (r : Decoded) : State :=
  { s with
    outBuf := bufferOf (zeroPadded s.cfg.outCap r.data)
    outLen := BitVec.ofNat 32 want
    consumed := BitVec.ofNat 32 r.cons
    produced := BitVec.ofNat 32 r.prod
    status := withErr s.status .none }

/-- DECOMPRESS opens its scan of `IN[0..IN_LEN)` for ORIG_LEN bytes (R96). -/
def openDecompress (s : State) : State :=
  s.openDecoder (Decoder.start s.codecInput s.requestedLength .decompress)

end State

/-- COMPRESS (R88): while live, INVALID on a bad length, else OUT takes the stream of `IN[0..IN_LEN)`. -/
def execCompress (s : State) : Host.Outcome State Fault Refusal :=
  s.whenLive fun s =>
    if s.compressInvalid then .next s.failInvalid
    else .next (s.commitCompress (encodeBytes s.cfg.zeroLitMode s.codecInput))

end Sys2Proof.Machine
end

