-- ==== Sys2Proof/Machine/Adapter.lean ====
section
/-! DEFINITION. The block adapter: the metadata inspector (41_adapter.md R105), the fallback mux on the write side
(R106, R107) and on the read side (R109), and the commands BLOCK_WRITE (R111) and BLOCK_READ (R112). DECOMPRESS stands
here too, beside the end of a scan that both decoding commands share. -/

namespace Sys2Proof.Machine

/-! ## Inspector -/

/-- The class of a size field (R76, R105). -/
inductive SizeClass where
  | raw | encoded | invalid
  deriving DecidableEq, Repr

/-- `Classify(h)` (R105). -/
def classify (c : Config) (h : Nat) : SizeClass :=
  if h = 0 then .raw
  else if h ≤ c.cap then .encoded
  else .invalid

/-! ## Write-side mux -/

/-- The outcome of the fallback selector: the mode, the size field and the stream (R106). -/
structure Selection where
  mode : BlockMode
  size : Nat
  stream : List Byte
  deriving DecidableEq, Repr

/-- `SelectWrite(L)`: ENCODED when the stream fits CAP, else RAW (R106). -/
def selectWrite (c : Config) (l : List Byte) : Selection :=
  let z := encodeBytes c.zeroLitMode l
  if c.cap < z.length then ⟨.raw, 0, []⟩ else ⟨.encoded, z.length, z⟩

/-- `Pack(mode, h, Z, L)`: the physical block (R73 to R75, R107). -/
def pack (c : Config) (sel : Selection) (l : List Byte) : List Byte :=
  match sel.mode with
  | .encoded =>
    bytesLE32 (BitVec.ofNat 32 sel.size) ++ sel.stream ++
      List.replicate (c.physSize - Config.hdrSize - sel.size) 0x00
  | .raw =>
    match c.rawMode with
    | .wide => bytesLE32 0 ++ l
    | .trunc => bytesLE32 0 ++ slice l 0 (c.sectorSize - 4)

/-! ## Read-side mux -/

/-- What the read side of the mux makes of a physical block (R109). -/
inductive Unpacked where
  /-- `OK(mode, h, B, cons, prod)`, less the h that HDR already holds. -/
  | ok (mode : BlockMode) (block : List Byte) (cons prod : Nat)
  /-- `CORRUPT(h)`. -/
  | corrupt
  deriving DecidableEq, Repr

/-- The RAW case of `Unpack`: the payload is the logical block; under TRUNC its last 4 bytes read as zero (R109). -/
def unpackRaw (c : Config) (p : List Byte) : Unpacked :=
  match c.rawMode with
  | .wide => .ok .raw (slice p 4 (c.sectorSize + 4)) 0 c.sectorSize
  | .trunc => .ok .raw (slice p 4 c.sectorSize ++ List.replicate 4 0x00) 0 (c.sectorSize - 4)

/-- The ENCODED case of `Unpack`, from the decoder's result on the `h` stream bytes: CORRUPT when STRICT_DECODE is on
and the decode is short or leaves stream bytes, else the bytes produced, zero-filled to S (R109). -/
def unpackDecoded (c : Config) (h : Nat) (r : Decoded) : Unpacked :=
  if c.strictDecode && (decide (r.prod < c.sectorSize) || decide (r.cons < h)) then .corrupt
  else .ok .encoded (r.data ++ List.replicate (c.sectorSize - r.prod) 0x00) r.cons r.prod

/-- The stream of an ENCODED block, `P[4..4+h)`, as the scan of a BLOCK_READ (R109). -/
def blockScan (c : Config) (p : List Byte) (h : Nat) : Decoder :=
  Decoder.start (slice p 4 (4 + h)) c.sectorSize .blockRead

namespace State

/-- The writes of a BLOCK_WRITE after its DevWrite (R40, R111). -/
def commitWrite (s : State) (sel : Selection) : State :=
  { s with
    hdr := BitVec.ofNat 32 sel.size
    status := withErr (withMode s.status sel.mode) .none }

/-- The writes of a BLOCK_READ before it unpacks: the DevRead, PHYS and HDR (R112). -/
def latchBlock (s : State) (p : List Byte) : State :=
  { (s.devRead.setPhys p) with hdr := sizeField p }

/-- The end of a BLOCK_READ: CORRUPT is fatal, else OUT takes the logical block (R40, R112, R132). -/
def commitRead (s : State) : Unpacked → State
  | .corrupt => s.raiseFatal .corrupt
  | .ok mode b cons prod =>
    { s with
      outBuf := bufferOf (zeroPadded s.cfg.outCap b)
      outLen := BitVec.ofNat 32 s.cfg.sectorSize
      consumed := BitVec.ofNat 32 cons
      produced := BitVec.ofNat 32 prod
      status := withErr (withMode s.status mode) .none }

/-- The end of a scan: the command it belongs to writes its results, and nothing of the scan survives (R18, R36, R96,
R109). -/
def closeDecoder (s : State) : State :=
  match s.decoder with
  | none => s
  | some d =>
    match d.owner with
    | .decompress => { s with decoder := none }.commitDecompress d.want d.result
    | .blockRead => { s with decoder := none }.commitRead (unpackDecoded s.cfg s.hdr.toNat d.result)

end State

/-! ## DECOMPRESS, BLOCK_WRITE and BLOCK_READ -/

/-- DECOMPRESS (R96): while live, INVALID on a bad length, else its scan is opened, run to its end and closed, all in
this one step. -/
def execDecompress (s : State) : Host.Outcome State Fault Refusal :=
  s.whenLive fun s =>
    if s.decompressInvalid then .next s.failInvalid
    else .next s.openDecompress.runDecoder.closeDecoder

/-- BLOCK_WRITE (R111): while live, RANGE before anything else (R110), else the block is assembled and stored. -/
def execBlockWrite (s : State) : Host.Outcome State Fault Refusal :=
  s.whenLive fun s =>
    if s.sectorOutOfRange then .next (s.raiseFatal .range)
    else
      let l := s.logicalBlock
      let sel := selectWrite s.cfg l
      let blk := pack s.cfg sel l
      .next (((s.setPhys blk).devWrite s.sectorIndex blk).commitWrite sel)

/-- BLOCK_READ (R112): while live, RANGE before the read (R110), else the block is latched and unpacked by the class of
its size field (R109). -/
def execBlockRead (s : State) : Host.Outcome State Fault Refusal :=
  s.whenLive fun s =>
    if s.sectorOutOfRange then .next (s.raiseFatal .range)
    else
      let p := s.block s.sectorIndex
      let h := (sizeField p).toNat
      let t := s.latchBlock p
      match classify s.cfg h with
      | .raw => .next (t.commitRead (unpackRaw s.cfg p))
      | .invalid => .next (t.commitRead .corrupt)
      | .encoded => .next (t.openDecoder (blockScan s.cfg p h)).runDecoder.closeDecoder

end Sys2Proof.Machine
end

