-- ==== Sys2Proof/Machine/Command.lean ====
section
/-! DEFINITION. The meaning of every command word that is no command: ILLEGAL_CMD (30_encoding.md R64,
60_exceptions.md R128). -/

namespace Sys2Proof.Machine

/-- ILLEGAL_CMD (R128): while live, STATUS.ERR takes 2 and nothing else changes; CMD already holds the word. -/
def execIllegalCmd (_w : Word) (s : State) : Host.Outcome State Fault Refusal :=
  s.whenLive fun s => .next (s.setErr .illegalCmd)

end Sys2Proof.Machine
end

