-- ==== Sys2Proof/Machine/Tokens.lean ====
section
/-! DEFINITION. The meanings of the stream tokens RUN, LIT0_TAIL and LIT (40_codec.md R92): one micro-step of the
decoder's loop (10_state.md R36, R93). DECOMPRESS and an ENCODED BLOCK_READ run these same steps to the end inside
their own atomic step. -/

namespace Sys2Proof.Machine

/-- RUN `00 c v`: consumes 3 stream bytes and produces `min(c, Lout − len(D))` copies of `v` (R67, R92, R94). -/
def execRun (c v : Byte) (s : State) : Host.Outcome State Fault Refusal :=
  s.tokenStep (.run c v) fun d => d.takeRun c v

/-- LIT0_TAIL: consumes the trailing 0x00 and produces it (R68 (b), R92, R94 (c)). -/
def execLit0Tail (s : State) : Host.Outcome State Fault Refusal :=
  s.tokenStep .lit0Tail fun d => d.takeLit Config.marker

/-- LIT: consumes the literal byte `l` and produces it (R66, R92). -/
def execLit (l : Byte) (s : State) : Host.Outcome State Fault Refusal :=
  s.tokenStep (.lit l) fun d => d.takeLit l

end Sys2Proof.Machine
end

