-- ==== Sys2Proof/Machine/Dispatch.lean ====
section
/-! DEFINITION. The dispatch: one arm per constructor of Instr. -/

namespace Sys2Proof.Machine

def exec (i : Instr) (s : State) : Host.Outcome State Fault Refusal :=
  match i with
  -- command words
  | .compress => Sys2Proof.Machine.execCompress s
  | .decompress => Sys2Proof.Machine.execDecompress s
  | .blockWrite => Sys2Proof.Machine.execBlockWrite s
  | .blockRead => Sys2Proof.Machine.execBlockRead s
  | .illegalCmd w => Sys2Proof.Machine.execIllegalCmd w s
  -- stream tokens
  | .run c v => Sys2Proof.Machine.execRun c v s
  | .lit0Tail => Sys2Proof.Machine.execLit0Tail s
  | .lit l => Sys2Proof.Machine.execLit l s

end Sys2Proof.Machine
end

