-- ==== Sys2Proof/Machine/Window.lean ====
section
/-! DEFINITION. The host window: its map (20_memory.md R49), which accesses it takes (R51, R52), what an access reads or
writes (R46, R47, R53), and the Host's pseudo-instructions (30_encoding.md R81). Offsets only: where the window sits in
the Host's own map is the platform's `WINDOW_BASE` (R43). -/

namespace Sys2Proof.Machine

/-- The register at a window offset (R20). -/
def regAt : Nat → Option Reg
  | 0x000 => some .cmd
  | 0x004 => some .status
  | 0x008 => some .inLen
  | 0x00C => some .origLen
  | 0x010 => some .sector
  | 0x014 => some .outLen
  | 0x018 => some .hdr
  | 0x01C => some .consumed
  | 0x020 => some .produced
  | _ => none

/-- The window offset of a register (R20). -/
def Reg.offset : Reg → Nat
  | .cmd => 0x000
  | .status => 0x004
  | .inLen => 0x008
  | .origLen => 0x00C
  | .sector => 0x010
  | .outLen => 0x014
  | .hdr => 0x018
  | .consumed => 0x01C
  | .produced => 0x020

/-- The window offset of byte 0 of a buffer (R49). -/
def Buffer.base : Buffer → Nat
  | .inB => 0x1000
  | .outB => 0x2000
  | .physB => 0x3000

/-- The length of a buffer (R33 to R35). -/
def Buffer.size (c : Config) : Buffer → Nat
  | .inB => c.inCap
  | .outB => c.outCap
  | .physB => c.physSize

/-- The `n` bytes from window offset `off` on lie inside buffer `b`. -/
def Buffer.holds (c : Config) (b : Buffer) (off n : Nat) : Bool :=
  decide (b.base ≤ off) && decide (off + n ≤ b.base + b.size c)

/-- The buffer that all `n` bytes from window offset `off` on lie inside, with the index of the first (R49, R51). -/
def bufferAt (c : Config) (off n : Nat) : Option (Buffer × Nat) :=
  if Buffer.holds c .inB off n then some (.inB, off - Buffer.base .inB)
  else if Buffer.holds c .outB off n then some (.outB, off - Buffer.base .outB)
  else if Buffer.holds c .physB off n then some (.physB, off - Buffer.base .physB)
  else none

namespace State

/-- The contents of a buffer. -/
def buffer (s : State) : Buffer → Memory
  | .inB => s.inBuf
  | .outB => s.outBuf
  | .physB => s.phys

/-- Byte `i` of a buffer. -/
def bufferByte (s : State) (b : Buffer) (i : Nat) : Byte := Memory.read bufferBlank (s.buffer b) i

/-- A read of the window: the value, or none where the access is a bus error (R51, R52). A 32-bit read is of a register
or of 4 buffer bytes in little-endian order (R46, R47); an 8-bit read is of a buffer byte, in bits 7:0 of the value. A
read changes nothing (R53). -/
def windowRead (s : State) (width off : Nat) : Option Word :=
  match width with
  | 32 =>
    if off % 4 ≠ 0 then none
    else match regAt off with
      | some r => some (s.readReg r)
      | none =>
        match bufferAt s.cfg off 4 with
        | some (b, i) =>
          some (le32 (s.bufferByte b i) (s.bufferByte b (i + 1)) (s.bufferByte b (i + 2)) (s.bufferByte b (i + 3)))
        | none => none
  | 8 =>
    match bufferAt s.cfg off 1 with
    | some (b, i) => some ((s.bufferByte b i).setWidth 32)
    | none => none
  | _ => none

/-- Writes bytes into a buffer from index `i` on: into IN, the only buffer the Host may write (R33 to R35, R52 (c)). -/
def writeBuffer (s : State) (b : Buffer) (i : Nat) (bs : List Byte) : Option State :=
  match b with
  | .inB => some { s with inBuf := Memory.write bufferBlank s.inBuf i bs }
  | .outB => none
  | .physB => none

/-- A write to the window, apart from the command a CMD write starts: the state with the location written, or none
where the access is a bus error (R51, R52). A 32-bit write is to a RW register or to 4 bytes of IN in little-endian
order (R46, R47); an 8-bit write stores bits 7:0 in a byte of IN. -/
def windowWrite (s : State) (width off : Nat) (v : Word) : Option State :=
  match width with
  | 32 =>
    if off % 4 ≠ 0 then none
    else match regAt off with
      | some r => s.writeReg v r
      | none =>
        match bufferAt s.cfg off 4 with
        | some (b, i) => s.writeBuffer b i (bytesLE32 v)
        | none => none
  | 8 =>
    match bufferAt s.cfg off 1 with
    | some (b, i) => s.writeBuffer b i [v.extractLsb' 0 8]
    | none => none
  | _ => none

end State

/-- The command word of an access: it is the 32-bit write of it to CMD (R21). -/
def Access.commandWord (a : Access) : Option Word :=
  match a.dir with
  | .read => none
  | .write => if a.width = 32 ∧ a.off = Reg.cmd.offset then some a.value else none

namespace State

/-- The access an action makes, if any. A write-back writes the byte that the access just before it read (R81). -/
def accessOf (s : State) : HostAction → Option Access
  | .access a => some a
  | .writeBack8 off =>
    match s.responses with
    | .value v :: _ => some ⟨.write, 8, off, v⟩
    | _ => none
  | .reset => none

/-- An access that starts no command, with what the Host observes of it (R51 to R53, R133). -/
def accessEffect (s : State) (a : Access) : State :=
  match a.dir with
  | .read =>
    match s.windowRead a.width a.off with
    | some v => s.respond (.value v)
    | none => s.respond .busError
  | .write =>
    match s.windowWrite a.width a.off a.value with
    | some t => t.respond .written
    | none => s.respond .busError

/-- A CMD write is taken: CMD holds the word whatever the state (R21), and the Host has made its write. -/
def acceptCommand (s : State) (w : Word) : State := { s with cmd := w }.respond .written

/-- An action that starts no command. -/
def actionEffect (s : State) (a : HostAction) : State :=
  match a with
  | .reset => s.resetEngine.respond .resetDone
  | .access _ | .writeBack8 _ =>
    match s.accessOf a with
    | some x => s.accessEffect x
    | none => s.respond .nothing

end State

/-! ## The Host's pseudo-instructions -/

/-- The pseudo-instructions of the host program notation (R81). -/
inductive Pseudo where
  /-- `SET IN_LEN, v`. -/
  | setInLen (v : Word)
  /-- `SET ORIG_LEN, v`. -/
  | setOrigLen (v : Word)
  /-- `SET SECTOR, v`. -/
  | setSector (v : Word)
  /-- `DO` with the OP word of a command. -/
  | doCmd (w : Word)
  /-- `LOAD b0 b1 … bk-1`. -/
  | load (bs : List Byte)
  /-- `LOADREP v, k, at a`. -/
  | loadRep (v : Byte) (k a : Nat)
  /-- `COPYBACK n`. -/
  | copyBack (n : Nat)
  /-- `CHECK <reg> = v`: its access; that the read returns v is the program's claim. -/
  | check (r : Reg)
  deriving DecidableEq, Repr

/-- `W32 off, v` (R82). -/
def w32 (off : Nat) (v : Word) : HostAction := .access ⟨.write, 32, off, v⟩

/-- `W8 off, b` (R82). -/
def w8 (off : Nat) (b : Byte) : HostAction := .access ⟨.write, 8, off, b.setWidth 32⟩

/-- `R32 off` (R82). -/
def r32 (off : Nat) : HostAction := .access ⟨.read, 32, off, 0⟩

/-- `R8 off` (R82). -/
def r8 (off : Nat) : HostAction := .access ⟨.read, 8, off, 0⟩

/-- The 8-bit writes of `bs` to consecutive offsets from `off` on. -/
def w8s : Nat → List Byte → List HostAction
  | _, [] => []
  | off, b :: bs => w8 off b :: w8s (off + 1) bs

/-- The expansion of a pseudo-instruction into host actions (R81). -/
def Pseudo.expand : Pseudo → List HostAction
  | .setInLen v => [w32 Reg.inLen.offset v]
  | .setOrigLen v => [w32 Reg.origLen.offset v]
  | .setSector v => [w32 Reg.sector.offset v]
  | .doCmd w => [w32 Reg.cmd.offset w]
  | .load bs => w8s (Buffer.base .inB) bs
  | .loadRep v k a => w8s (Buffer.base .inB + a) (List.replicate k v)
  | .copyBack n =>
    (List.range n).flatMap fun i => [r8 (Buffer.base .outB + i), .writeBack8 (Buffer.base .inB + i)]
  | .check r => [r32 r.offset]

end Sys2Proof.Machine
end

