-- ==== Sys2Proof/Machine/Fetch.lean ====
section
/-! DEFINITION. What the machine does next (00_scope.md R8, R9; 10_state.md R36): the token at the position of a scan in
progress, before any host access; else the command of the Host's next access; else that access itself. -/

namespace Sys2Proof.Machine

/-- What the machine does next. -/
inductive Fetch where
  /-- It runs the instruction `i` in the state `s`. -/
  | instr (i : Instr) (s : State)
  /-- It runs no instruction and comes to the state `s`. -/
  | plain (s : State)
  deriving DecidableEq, Repr

namespace State

/-- The next micro-step of a scan in progress: its next token, or its end (R36, R93). -/
def fetchToken (s : State) (d : Decoder) : Fetch :=
  if d.ready then
    match d.token with
    | some i => .instr i s
    | none => .plain s.closeDecoder
  else .plain s.closeDecoder

/-- The Host's next action: a CMD write starts the command it encodes (R21, R55, R64). -/
def fetchAction (s : State) (a : HostAction) : Fetch :=
  match (s.accessOf a).bind Access.commandWord with
  | some w => .instr (decodeCommand w) (s.acceptCommand w)
  | none => .plain (s.actionEffect a)

/-- What the machine does next. No host access falls inside a command (R9, R36); with no action left the block is idle
and its state persists (60_exceptions.md R143). -/
def fetch (s : State) : Fetch :=
  match s.decoder with
  | some d => s.fetchToken d
  | none =>
    match s.program with
    | [] => .plain s
    | a :: rest => (s.withProgram rest).fetchAction a

/-- The parameters and the Store's size meet every constraint of R11. -/
def legalConfig (s : State) : Bool := s.cfg.wf && devSectorsLegal s.devSectors

/-- `withFetchWord`'s placement (assumption 5): a command word as the Host's next CMD write, a token as the stream of a
scan at its start, with room for OUT_CAP bytes. -/
def placeWord (s : State) (nbits w : Nat) : State :=
  match formatOfBits nbits with
  | .cmd => { s with decoder := none, program := w32 Reg.cmd.offset (BitVec.ofNat 32 w) :: s.program }
  | .rleToken => { s with decoder := some (Decoder.start (tableBytes nbits w) s.cfg.outCap .decompress) }

end State

end Sys2Proof.Machine
end

