-- ==== Sys2Proof/Machine/Step.lean ====
section
/-! DEFINITION. One step of the machine: one host access with the whole command it starts (00_scope.md R9), or one
micro-step of a scan in progress (10_state.md R36). -/

namespace Sys2Proof.Machine

/-- One step: it refuses an illegal configuration (R11), else does what `State.fetch` finds next. -/
def step (s : State) : Host.Outcome State Fault Refusal :=
  if s.legalConfig then
    match s.fetch with
    | .instr i t => exec i t
    | .plain t => .next t
  else .refused .illegalConfig

/-- `s` with the table row's instruction placed where the next step fetches it. -/
def State.withFetchWord (s : State) (nbits w : Nat) : State := s.placeWord nbits w

end Sys2Proof.Machine
end

