-- ==== Sys2Proof/Safety.lean ====
section
/-! DEFINITION. The terms the claims use: what a normal end of a run is (00_scope.md R17), the invariant of the machine,
the pieces of an input (40_codec.md R84), a valid stream (R100), and the accesses the window takes (20_memory.md R51,
R52), said apart from the functions that perform them. -/

namespace Sys2Proof.Machine

/-! ## Runs -/

/-- A normal end of a run: every action of the Host is made, no scan is in progress and STATUS.FATAL = 0 (R17, R130). -/
def State.normalEnd (s : State) : Bool := s.program.isEmpty && s.decoder.isNone && !s.fatal

/-- A decoder a legal machine can hold: its output fits OUT, and a block's scan is for S bytes (R96, R109). -/
structure Decoder.Fits (c : Config) (d : Decoder) : Prop where
  /-- The requested length is at most OUT_CAP. -/
  want_le : d.want ≤ c.outCap
  /-- A BLOCK_READ's scan is for a logical block. -/
  block : d.owner = .blockRead → d.want = c.sectorSize

/-- The invariant of the machine: the configuration is legal (R11), the memories are canonical and list only addresses
that exist (R33 to R37), STATUS holds a legal word (R22 to R24), the lengths recorded fit OUT (R29, R32), and a scan in
progress is a legal one of a live machine (R36, R130). -/
structure State.Inv (s : State) : Prop where
  config : s.legalConfig = true
  in_wf : Memory.wf bufferBlank s.inBuf
  in_below : ∀ c ∈ s.inBuf, c.1 < s.cfg.inCap
  out_wf : Memory.wf bufferBlank s.outBuf
  out_below : ∀ c ∈ s.outBuf, c.1 < s.cfg.outCap
  phys_wf : Memory.wf bufferBlank s.phys
  phys_below : ∀ c ∈ s.phys, c.1 < s.cfg.physSize
  disk_wf : Memory.wf storeBlank s.disk
  disk_below : ∀ c ∈ s.disk, c.1 < s.devSectors * s.cfg.physSize
  /-- Bits 31:6 of STATUS are 0 (R22). -/
  reserved : reservedBits s.status = 0
  /-- STATUS.ERR holds one of the codes of R23. -/
  err : ∃ e : ErrCode, errField s.status = e.code
  /-- STATUS.FATAL is set exactly with ERR = RANGE or CORRUPT (R24). -/
  fatal_iff : s.fatal = true ↔ ∃ c : FatalCode, errField s.status = c.err.code
  out_len : s.outLen.toNat ≤ s.cfg.outCap
  produced : s.produced.toNat ≤ s.cfg.outCap
  scan_fits : ∀ d, s.decoder = some d → d.Fits s.cfg
  scan_live : ∀ d, s.decoder = some d → s.fatal = false

/-! ## Inputs and streams -/

/-- One piece of an input (R84): its byte, its length, and whether it starts in the last two positions (R85). -/
structure Piece where
  byte : Byte
  len : Nat
  tail : Bool
  deriving DecidableEq, Repr

/-- The pieces of a suffix, at most `n` of them, in order. -/
def piecesFor : Nat → List Byte → List Piece
  | 0, _ => []
  | _ + 1, [] => []
  | n + 1, v :: bs =>
    ⟨v, pieceLen (v :: bs), inTail (v :: bs)⟩ :: piecesFor n ((v :: bs).drop (pieceLen (v :: bs)))

/-- The pieces the encoder cuts an input into (R84, R86). -/
def pieces (x : List Byte) : List Piece := piecesFor x.length x

/-- A zero piece of length 1 or 2 that starts at i < n − 2 (R98, R99): the pieces the two modes write differently. -/
def Piece.shortZero (p : Piece) : Bool := p.byte == Config.marker && decide (p.len < Config.minRun) && !p.tail

/-- The stream bytes of a piece: 3 where it becomes a RUN, its length where it becomes literals (R87). -/
def Piece.cost (mode : ZeroLitMode) (p : Piece) : Nat :=
  if Config.minRun ≤ p.len ∨ (mode = .escape ∧ p.shortZero = true) then 3 else p.len

/-- A stream valid for a length: it is consumed exactly and fills the output exactly (R100). -/
def validStream (c : List Byte) (want : Nat) : Prop :=
  (decodeBytes c want).cons = c.length ∧ (decodeBytes c want).prod = want

/-! ## Accesses -/

/-- The registers the Host may write (R20). -/
def Reg.hostWritable : Reg → Bool
  | .cmd => true
  | .inLen => true
  | .origLen => true
  | .sector => true
  | .status => false
  | .outLen => false
  | .hdr => false
  | .consumed => false
  | .produced => false

/-- The window takes a read of this width at this offset (R51, R52 (a) and (b)): 32 bits at a multiple of 4, of a
register or of 4 bytes inside one buffer, or 8 bits inside a buffer. -/
def readTaken (c : Config) (width off : Nat) : Prop :=
  (width = 32 ∧ off % 4 = 0 ∧
    ((∃ r : Reg, off = r.offset) ∨ ∃ b : Buffer, b.base ≤ off ∧ off + 4 ≤ b.base + b.size c)) ∨
  (width = 8 ∧ ∃ b : Buffer, b.base ≤ off ∧ off < b.base + b.size c)

/-- The window takes a write of this width at this offset (R51, R52): as a read, but of a RW register or of IN. -/
def writeTaken (c : Config) (width off : Nat) : Prop :=
  (width = 32 ∧ off % 4 = 0 ∧
    ((∃ r : Reg, off = r.offset ∧ r.hostWritable = true) ∨
      (Buffer.base .inB ≤ off ∧ off + 4 ≤ Buffer.base .inB + c.inCap))) ∨
  (width = 8 ∧ Buffer.base .inB ≤ off ∧ off < Buffer.base .inB + c.inCap)

end Sys2Proof.Machine
end

