-- ==== Sys2Proof/Certificates/Slice0/Obligations.lean ====
section
/-! DEFINITION. The statements for the provers, from the numbered rules of spec/ (OBLIGATIONS.json lists them). -/

open Sys2Proof Sys2Proof.Machine

/-! ## Encodings -/

/-- Words and tokens written out from R63, R64 and R68, as the decoder reads them. -/
def Obligations.SampleWordsDecode : Prop :=
  decode .cmd [0x01, 0x00, 0x00, 0x00] = .ok (.compress, []) ∧
  decode .cmd [0x02, 0x00, 0x00, 0x00] = .ok (.decompress, []) ∧
  decode .cmd [0x03, 0x00, 0x00, 0x00] = .ok (.blockWrite, []) ∧
  decode .cmd [0x04, 0x00, 0x00, 0x00] = .ok (.blockRead, []) ∧
  decode .cmd [0x11, 0x00, 0x00, 0x00] = .ok (.illegalCmd 0x00000011, []) ∧
  decode .cmd [0x03, 0x00, 0x00, 0x80] = .ok (.illegalCmd 0x80000003, []) ∧
  decode .rleToken [0x00, 0x05, 0x41, 0x42] = .ok (.run 0x05 0x41, [0x42]) ∧
  decode .rleToken [0x00, 0x41] = .ok (.lit0Tail, [0x41]) ∧
  decode .rleToken [0x41, 0x42] = .ok (.lit 0x41, [0x42])

/-- R63: the OP assignment, and the four legal command words. -/
def Obligations.OpAssignment : Prop :=
  ∀ w : Word,
    (decodeCommand w = .compress ↔ w = 0x00000001) ∧
    (decodeCommand w = .decompress ↔ w = 0x00000002) ∧
    (decodeCommand w = .blockWrite ↔ w = 0x00000003) ∧
    (decodeCommand w = .blockRead ↔ w = 0x00000004) ∧
    (opField w = 0 ∨ 5 ≤ opField w → decodeCommand w = .illegalCmd w) ∧
    (decodeCommand w ≠ .illegalCmd w ↔ w = 0x00000001 ∨ w = 0x00000002 ∨ w = 0x00000003 ∨ w = 0x00000004)

/-- R64: which words are illegal, that every word is legal or illegal, and what an illegal word does. -/
def Obligations.IllegalCommandWords : Prop :=
  ∀ w : Word,
    (decodeCommand w = .illegalCmd w ↔ (opField w = 0 ∨ 5 ≤ opField w ∨ rsvField w ≠ 0)) ∧
    (decodeCommand w = .illegalCmd w ∨
      ((w = 1 ∨ w = 2 ∨ w = 3 ∨ w = 4) ∧ decodeCommand w ≠ .illegalCmd w)) ∧
    ∀ s : State, s.fatal = false → decodeCommand w = .illegalCmd w →
      exec (decodeCommand w) s = .next { s with status := withErr s.status .illegalCmd }

/-- Decoding undoes encoding, for every well-formed instruction of both formats, with every operand, in front of any
bytes its table row lets stand behind it. -/
def Obligations.DecodeOfEncode : Prop :=
  ∀ (i : Instr) (rest : List Byte), i.wf = true → i.follows rest = true →
    decode i.format (encode i ++ rest) = .ok (i, rest)

/-- Encoding undoes decoding: what the decoder reads is well formed, and its encoding is the bytes read. -/
def Obligations.EncodeOfDecode : Prop :=
  ∀ (f : Format) (bs : List Byte) (i : Instr) (rest : List Byte), decode f bs = .ok (i, rest) →
    i.wf = true ∧ i.follows rest = true ∧ i.format = f ∧ bs = encode i ++ rest

/-- R68: the token at a boundary i of a stream C, by `C[i]` and the bytes that remain. -/
def Obligations.TokenAtBoundary : Prop :=
  ∀ (c : List Byte) (i : Nat), i < c.length →
    (c.getD i 0 = 0x00 → i + 2 < c.length →
      decodeToken (c.drop i) = .ok (.run (c.getD (i + 1) 0) (c.getD (i + 2) 0), c.drop (i + 3))) ∧
    (c.getD i 0 = 0x00 → c.length ≤ i + 2 → decodeToken (c.drop i) = .ok (.lit0Tail, c.drop (i + 1))) ∧
    (c.getD i 0 ≠ 0x00 → decodeToken (c.drop i) = .ok (.lit (c.getD i 0), c.drop (i + 1)))

/-! ## The codec as functions -/

/-- R97: decoding the ESCAPE encoding of X for its length gives X, reads the whole stream and produces n bytes. -/
def Obligations.EncodeThenDecode : Prop :=
  ∀ x : List Byte, 1 ≤ x.length →
    decodeBytes (encodeBytes .escape x) x.length = ⟨x, (encodeBytes .escape x).length, x.length⟩

/-- R90: the encoding is at most twice as long as the input. -/
def Obligations.EncodeAtMostTwice : Prop :=
  ∀ (mode : ZeroLitMode) (x : List Byte), 1 ≤ x.length → (encodeBytes mode x).length ≤ 2 * x.length

/-- R87: the length of the encoding, piece by piece, and its bounds in both modes. -/
def Obligations.EncodedLengthByPieces : Prop :=
  ∀ x : List Byte, 1 ≤ x.length →
    (∀ mode, (encodeBytes mode x).length = ((pieces x).map (Piece.cost mode)).sum) ∧
    (∀ mode, 1 ≤ (encodeBytes mode x).length) ∧
    (encodeBytes .verbatim x).length ≤ x.length ∧
    (encodeBytes .escape x).length ≤ 2 * x.length ∧
    ((∀ p ∈ pieces x, p.shortZero = false) → (encodeBytes .escape x).length ≤ x.length)

/-- R99: the two modes agree exactly on the inputs without a short zero piece, and ESCAPE costs 2 bytes more for each
such piece of length 1 and 1 byte more for each of length 2. -/
def Obligations.ModesDifferOnShortZeros : Prop :=
  ∀ x : List Byte,
    (encodeBytes .escape x = encodeBytes .verbatim x ↔ ∀ p ∈ pieces x, p.shortZero = false) ∧
    (encodeBytes .escape x).length = (encodeBytes .verbatim x).length +
      2 * ((pieces x).filter fun p => p.shortZero && decide (p.len = 1)).length +
      ((pieces x).filter fun p => p.shortZero && decide (p.len = 2)).length

/-- The direction of R98 the spec proves: under VERBATIM an input without a short zero piece survives the round trip. -/
def Obligations.VerbatimRoundTrip : Prop :=
  ∀ x : List Byte, 1 ≤ x.length → (∀ p ∈ pieces x, p.shortZero = false) →
    decodeBytes (encodeBytes .verbatim x) x.length = ⟨x, (encodeBytes .verbatim x).length, x.length⟩

/-- R89 at a scan position: a maximal run of L = 255 q + r bytes v is q RUN records of 255, then its remainder, then
the encoding of what follows. -/
def Obligations.MaximalRunEncoding : Prop :=
  ∀ (mode : ZeroLitMode) (v : Byte) (q r : Nat) (after : List Byte),
    r < 255 → 1 ≤ 255 * q + r → after.head? ≠ some v →
    encodeBytes mode (List.replicate (255 * q + r) v ++ after) =
      (List.replicate q [0x00, 0xFF, v]).flatten ++
      (if r = 0 then []
       else if 3 ≤ r then [0x00, BitVec.ofNat 8 r, v]
       else if v ≠ 0x00 ∨ mode = .verbatim ∨ r + after.length ≤ 2 then List.replicate r v
       else [0x00, BitVec.ofNat 8 r, 0x00]) ++
      encodeBytes mode after

/-- R95: every stream decodes, with the bounds on what is read and produced. -/
def Obligations.DecodeNeverFails : Prop :=
  ∀ (c : List Byte) (want : Nat), 1 ≤ c.length → 1 ≤ want →
    (decodeBytes c want).data.length = (decodeBytes c want).prod ∧
    (decodeBytes c want).prod ≤ want ∧ (decodeBytes c want).cons ≤ c.length ∧
    ((decodeBytes c want).prod < want → (decodeBytes c want).cons = c.length) ∧
    ((decodeBytes c want).cons < c.length → (decodeBytes c want).prod = want)

/-! ## COMPRESS and DECOMPRESS -/

/-- R88: COMPRESS on a live machine, for every IN_LEN: the whole next state, completed and INVALID. -/
def Obligations.CompressCompletes : Prop :=
  ∀ s : State, s.fatal = false →
    (1 ≤ s.inLen.toNat → s.inLen.toNat ≤ s.cfg.inCap →
      exec .compress s = .next
        { s with
          outBuf := bufferOf (encodeBytes s.cfg.zeroLitMode (s.inBytes s.inLen.toNat) ++
            List.replicate (s.cfg.outCap - (encodeBytes s.cfg.zeroLitMode (s.inBytes s.inLen.toNat)).length) 0x00)
          outLen := BitVec.ofNat 32 (encodeBytes s.cfg.zeroLitMode (s.inBytes s.inLen.toNat)).length
          consumed := s.inLen
          produced := BitVec.ofNat 32 (encodeBytes s.cfg.zeroLitMode (s.inBytes s.inLen.toNat)).length
          status := withErr s.status .none }) ∧
    (s.inLen.toNat = 0 ∨ s.cfg.inCap < s.inLen.toNat →
      exec .compress s = .next { s with outLen := 0, status := withErr s.status .invalid })

/-- COMPRESS's result as the Host reads it: OUT holds the stream, then zero bytes up to OUT_CAP, and the stream fits. -/
def Obligations.CompressOutput : Prop :=
  ∀ s : State, s.legalConfig = true → s.fatal = false → 1 ≤ s.inLen.toNat → s.inLen.toNat ≤ s.cfg.inCap →
    ∃ t, exec .compress s = .next t ∧
      (encodeBytes s.cfg.zeroLitMode (s.inBytes s.inLen.toNat)).length ≤ s.cfg.outCap ∧
      t.outBytes s.cfg.outCap = encodeBytes s.cfg.zeroLitMode (s.inBytes s.inLen.toNat) ++
        List.replicate (s.cfg.outCap - (encodeBytes s.cfg.zeroLitMode (s.inBytes s.inLen.toNat)).length) 0x00 ∧
      t.outLen.toNat = (encodeBytes s.cfg.zeroLitMode (s.inBytes s.inLen.toNat)).length ∧
      t.consumed.toNat = s.inLen.toNat ∧ t.produced = t.outLen ∧ errField t.status = 0

/-- R96: DECOMPRESS on a live machine, for every IN_LEN and ORIG_LEN: the whole next state, completed and INVALID. -/
def Obligations.DecompressCompletes : Prop :=
  ∀ s : State, s.fatal = false →
    (1 ≤ s.inLen.toNat → s.inLen.toNat ≤ s.cfg.inCap → 1 ≤ s.origLen.toNat → s.origLen.toNat ≤ s.cfg.outCap →
      exec .decompress s = .next
        { s with
          decoder := none
          outBuf := bufferOf ((decodeBytes (s.inBytes s.inLen.toNat) s.origLen.toNat).data ++
            List.replicate (s.cfg.outCap - (decodeBytes (s.inBytes s.inLen.toNat) s.origLen.toNat).prod) 0x00)
          outLen := s.origLen
          consumed := BitVec.ofNat 32 (decodeBytes (s.inBytes s.inLen.toNat) s.origLen.toNat).cons
          produced := BitVec.ofNat 32 (decodeBytes (s.inBytes s.inLen.toNat) s.origLen.toNat).prod
          status := withErr s.status .none }) ∧
    (s.inLen.toNat = 0 ∨ s.cfg.inCap < s.inLen.toNat ∨ s.origLen.toNat = 0 ∨ s.cfg.outCap < s.origLen.toNat →
      exec .decompress s = .next { s with outLen := 0, status := withErr s.status .invalid })

/-- DECOMPRESS's result as the Host reads it: OUT holds the decoded bytes, then zero bytes up to OUT_CAP. -/
def Obligations.DecompressOutput : Prop :=
  ∀ s : State, s.legalConfig = true → s.fatal = false → 1 ≤ s.inLen.toNat → s.inLen.toNat ≤ s.cfg.inCap →
    1 ≤ s.origLen.toNat → s.origLen.toNat ≤ s.cfg.outCap →
    ∃ t, exec .decompress s = .next t ∧
      t.outBytes s.cfg.outCap = (decodeBytes (s.inBytes s.inLen.toNat) s.origLen.toNat).data ++
        List.replicate (s.cfg.outCap - (decodeBytes (s.inBytes s.inLen.toNat) s.origLen.toNat).prod) 0x00 ∧
      t.outLen = s.origLen ∧
      t.consumed.toNat = (decodeBytes (s.inBytes s.inLen.toNat) s.origLen.toNat).cons ∧
      t.produced.toNat = (decodeBytes (s.inBytes s.inLen.toNat) s.origLen.toNat).prod ∧
      t.produced.toNat ≤ t.outLen.toNat ∧ t.consumed.toNat ≤ s.inLen.toNat ∧ errField t.status = 0

/-- R101: two live blocks with the same operands of a codec command and the same buffer sizes come to the same results,
whatever else differs between them; COMPRESS's result depends on ZERO_LIT_MODE too. -/
def Obligations.CodecDependsOnOperandsOnly : Prop :=
  ∀ s u t v : State, s.cfg.inCap = u.cfg.inCap → s.fatal = false → u.fatal = false → s.inLen = u.inLen →
    s.inBytes s.inLen.toNat = u.inBytes u.inLen.toNat →
    (s.cfg.zeroLitMode = u.cfg.zeroLitMode → exec .compress s = .next t → exec .compress u = .next v →
      t.outLen = v.outLen ∧ errField t.status = errField v.status ∧
      (errField t.status = ErrCode.none.code →
        t.outBuf = v.outBuf ∧ t.consumed = v.consumed ∧ t.produced = v.produced)) ∧
    (s.origLen = u.origLen → exec .decompress s = .next t → exec .decompress u = .next v →
      t.outLen = v.outLen ∧ errField t.status = errField v.status ∧
      (errField t.status = ErrCode.none.code →
        t.outBuf = v.outBuf ∧ t.consumed = v.consumed ∧ t.produced = v.produced))

/-- The frame of the codec commands (R40, R59): beside OUT, OUT_LEN, CONSUMED, PRODUCED, STATUS.ERR and the scan they
run, they change nothing, and no byte of IN, PHYS or the Store. -/
def Obligations.CodecFrame : Prop :=
  ∀ (i : Instr) (s t : State), i = .compress ∨ i = .decompress → exec i s = .next t →
    t.cfg = s.cfg ∧ t.cmd = s.cmd ∧ t.inLen = s.inLen ∧ t.origLen = s.origLen ∧ t.sector = s.sector ∧
    t.hdr = s.hdr ∧ fatalBit t.status = fatalBit s.status ∧ modeBit t.status = modeBit s.status ∧
    reservedBits t.status = reservedBits s.status ∧
    (∀ a, Memory.read bufferBlank t.inBuf a = Memory.read bufferBlank s.inBuf a) ∧
    (∀ a, Memory.read bufferBlank t.phys a = Memory.read bufferBlank s.phys a) ∧
    (∀ a, Memory.read storeBlank t.disk a = Memory.read storeBlank s.disk a) ∧
    t.devSectors = s.devSectors ∧ t.rdCnt = s.rdCnt ∧ t.wrCnt = s.wrCnt ∧
    t.program = s.program ∧ t.responses = s.responses ∧ (t.decoder = s.decoder ∨ t.decoder = none) ∧
    (errField t.status = ErrCode.invalid.code →
      (∀ a, Memory.read bufferBlank t.outBuf a = Memory.read bufferBlank s.outBuf a) ∧
      t.consumed = s.consumed ∧ t.produced = s.produced)

/-! ## BLOCK_WRITE -/

/-- R111: BLOCK_WRITE on a live machine with SECTOR in range: the whole next state, in the ENCODED case (the stream fits
S − 4) and in the RAW case of both RAW modes. -/
def Obligations.BlockWriteCompletes : Prop :=
  ∀ s : State, s.fatal = false → s.sector.toNat < s.devSectors →
    ∀ z blk, z = encodeBytes s.cfg.zeroLitMode (s.inBytes s.cfg.sectorSize) →
    (z.length ≤ s.cfg.sectorSize - 4 →
      blk = bytesLE32 (BitVec.ofNat 32 z.length) ++ z ++ List.replicate (s.cfg.physSize - 4 - z.length) 0x00 →
      exec .blockWrite s = .next
        { s with
          phys := bufferOf blk
          disk := Memory.write storeBlank s.disk (s.sector.toNat * s.cfg.physSize) blk
          wrCnt := s.wrCnt + 1
          hdr := BitVec.ofNat 32 z.length
          status := withErr (withMode s.status .encoded) .none }) ∧
    (s.cfg.sectorSize - 4 < z.length →
      blk = bytesLE32 0 ++ (match s.cfg.rawMode with
        | .wide => s.inBytes s.cfg.sectorSize
        | .trunc => (s.inBytes s.cfg.sectorSize).take (s.cfg.sectorSize - 4)) →
      exec .blockWrite s = .next
        { s with
          phys := bufferOf blk
          disk := Memory.write storeBlank s.disk (s.sector.toNat * s.cfg.physSize) blk
          wrCnt := s.wrCnt + 1
          hdr := 0
          status := withErr (withMode s.status .raw) .none })

/-- What BLOCK_WRITE stores, and its frame: the block it leaves in `Blk[SECTOR]` is whole and is the one PHYS shows, and
every byte of the Store outside that block, every byte of IN and OUT, and everything it is not said to write, is as
before (R37, R40, R50). -/
def Obligations.BlockWriteStores : Prop :=
  ∀ s : State, s.legalConfig = true → s.fatal = false → s.sector.toNat < s.devSectors →
    ∃ t, exec .blockWrite s = .next t ∧
      t.block s.sector.toNat = t.physBytes s.cfg.physSize ∧
      t.block s.sector.toNat = pack s.cfg (selectWrite s.cfg s.logicalBlock) s.logicalBlock ∧
      (t.block s.sector.toNat).length = s.cfg.physSize ∧
      (∀ a, a < s.blockBase s.sectorIndex ∨ s.blockBase s.sectorIndex + s.cfg.physSize ≤ a →
        Memory.read storeBlank t.disk a = Memory.read storeBlank s.disk a) ∧
      t.wrCnt = s.wrCnt + 1 ∧ t.rdCnt = s.rdCnt ∧ errField t.status = 0 ∧ fatalBit t.status = false ∧
      reservedBits t.status = reservedBits s.status ∧
      (∀ a, Memory.read bufferBlank t.inBuf a = Memory.read bufferBlank s.inBuf a) ∧
      (∀ a, Memory.read bufferBlank t.outBuf a = Memory.read bufferBlank s.outBuf a) ∧
      t.cfg = s.cfg ∧ t.cmd = s.cmd ∧ t.inLen = s.inLen ∧ t.origLen = s.origLen ∧ t.sector = s.sector ∧
      t.outLen = s.outLen ∧ t.consumed = s.consumed ∧ t.produced = s.produced ∧ t.devSectors = s.devSectors ∧
      t.decoder = s.decoder ∧ t.program = s.program ∧ t.responses = s.responses

/-- R108: a block that BLOCK_WRITE writes is in exactly one of two states, and HDR and STATUS.MODE say which. -/
def Obligations.WrittenBlockState : Prop :=
  ∀ s t : State, s.legalConfig = true → s.fatal = false → s.sector.toNat < s.devSectors →
    exec .blockWrite s = .next t →
    sizeField (t.block s.sector.toNat) = t.hdr ∧
    ((t.hdr.toNat = 0 ∧ modeBit t.status = false ∧ classify s.cfg t.hdr.toNat = .raw) ∨
     (1 ≤ t.hdr.toNat ∧ t.hdr.toNat ≤ s.cfg.cap ∧ modeBit t.status = true ∧
      classify s.cfg t.hdr.toNat = .encoded))

/-- R110, R131: a block command whose SECTOR is not below DEV_SECTORS raises RANGE before anything else: the whole next
state. -/
def Obligations.SectorOutOfRangeIsFatal : Prop :=
  ∀ (i : Instr) (s : State), i = .blockWrite ∨ i = .blockRead → s.fatal = false → s.devSectors ≤ s.sector.toNat →
    exec i s = .next { s with status := withFatal (withErr s.status .range) }

/-! ## BLOCK_READ -/

/-- R109, R112: BLOCK_READ of a RAW block on a live machine, in both RAW modes: the whole next state. -/
def Obligations.BlockReadRawCompletes : Prop :=
  ∀ (s : State) (p : List Byte), s.fatal = false → s.sector.toNat < s.devSectors →
    p = s.block s.sector.toNat → (sizeField p).toNat = 0 →
    exec .blockRead s = .next
      { s with
        rdCnt := s.rdCnt + 1
        phys := bufferOf p
        hdr := sizeField p
        outBuf := bufferOf (zeroPadded s.cfg.outCap (match s.cfg.rawMode with
          | .wide => slice p 4 (s.cfg.sectorSize + 4)
          | .trunc => slice p 4 s.cfg.sectorSize ++ [0x00, 0x00, 0x00, 0x00]))
        outLen := BitVec.ofNat 32 s.cfg.sectorSize
        consumed := 0
        produced := BitVec.ofNat 32 (match s.cfg.rawMode with
          | .wide => s.cfg.sectorSize
          | .trunc => s.cfg.sectorSize - 4)
        status := withErr (withMode s.status .raw) .none }

/-- R109, R112: BLOCK_READ of an ENCODED block on a live machine, where STRICT_DECODE does not turn it away: the whole
next state. -/
def Obligations.BlockReadEncodedCompletes : Prop :=
  ∀ (s : State) (p : List Byte) (h : Nat) (r : Decoded), s.fatal = false → s.sector.toNat < s.devSectors →
    p = s.block s.sector.toNat → h = (sizeField p).toNat → 1 ≤ h → h ≤ s.cfg.sectorSize - 4 →
    r = decodeBytes (slice p 4 (4 + h)) s.cfg.sectorSize →
    (s.cfg.strictDecode = true → s.cfg.sectorSize ≤ r.prod ∧ h ≤ r.cons) →
    exec .blockRead s = .next
      { s with
        decoder := none
        rdCnt := s.rdCnt + 1
        phys := bufferOf p
        hdr := sizeField p
        outBuf := bufferOf (zeroPadded s.cfg.outCap
          (r.data ++ List.replicate (s.cfg.sectorSize - r.prod) 0x00))
        outLen := BitVec.ofNat 32 s.cfg.sectorSize
        consumed := BitVec.ofNat 32 r.cons
        produced := BitVec.ofNat 32 r.prod
        status := withErr (withMode s.status .encoded) .none }

/-- R132: when BLOCK_READ raises CORRUPT, with the whole next state, that it raises it in no other case, and that no
other instruction raises it. -/
def Obligations.CorruptBlockIsFatal : Prop :=
  (∀ (s : State) (p : List Byte) (h : Nat) (r : Decoded), s.fatal = false → s.sector.toNat < s.devSectors →
    p = s.block s.sector.toNat → h = (sizeField p).toNat →
    r = decodeBytes (slice p 4 (4 + h)) s.cfg.sectorSize →
    (s.cfg.cap < h →
      exec .blockRead s = .next
        { s with
          rdCnt := s.rdCnt + 1, phys := bufferOf p, hdr := sizeField p
          status := withFatal (withErr s.status .corrupt) }) ∧
    (1 ≤ h → h ≤ s.cfg.cap → s.cfg.strictDecode = true → r.prod < s.cfg.sectorSize ∨ r.cons < h →
      exec .blockRead s = .next
        { s with
          decoder := none
          rdCnt := s.rdCnt + 1, phys := bufferOf p, hdr := sizeField p
          status := withFatal (withErr s.status .corrupt) }) ∧
    (∀ t, exec .blockRead s = .next t → errField t.status = ErrCode.corrupt.code →
      s.cfg.cap < h ∨
        (1 ≤ h ∧ s.cfg.strictDecode = true ∧ (r.prod < s.cfg.sectorSize ∨ r.cons < h)))) ∧
  (∀ (i : Instr) (s t : State), i ≠ .blockRead → exec i s = .next t →
    errField t.status = ErrCode.corrupt.code → t.status = s.status)

/-- R112: OUT after a BLOCK_READ that completes is a logical block of S bytes, then zero bytes up to OUT_CAP. -/
def Obligations.BlockReadOutput : Prop :=
  ∀ s t : State, s.legalConfig = true → s.fatal = false → exec .blockRead s = .next t →
    errField t.status = ErrCode.none.code →
    ∃ b : List Byte, b.length = s.cfg.sectorSize ∧
      t.outBytes s.cfg.outCap = b ++ List.replicate (s.cfg.outCap - s.cfg.sectorSize) 0x00 ∧
      t.outLen.toNat = s.cfg.sectorSize ∧ t.produced.toNat ≤ s.cfg.sectorSize ∧
      t.hdr = sizeField (s.block s.sector.toNat) ∧ t.physBytes s.cfg.physSize = s.block s.sector.toNat ∧
      (t.hdr.toNat = 0 ↔ modeBit t.status = false) ∧ t.hdr.toNat ≤ s.cfg.cap

/-- The frame of BLOCK_READ (R40): beside what R112 says it writes it changes nothing, and no byte of IN or of the Store;
when it ends CORRUPT, OUT, OUT_LEN, CONSUMED, PRODUCED and MODE keep their values too. -/
def Obligations.BlockReadFrame : Prop :=
  ∀ s t : State, exec .blockRead s = .next t →
    t.cfg = s.cfg ∧ t.cmd = s.cmd ∧ t.inLen = s.inLen ∧ t.origLen = s.origLen ∧ t.sector = s.sector ∧
    reservedBits t.status = reservedBits s.status ∧
    (∀ a, Memory.read bufferBlank t.inBuf a = Memory.read bufferBlank s.inBuf a) ∧
    (∀ a, Memory.read storeBlank t.disk a = Memory.read storeBlank s.disk a) ∧
    t.devSectors = s.devSectors ∧ t.wrCnt = s.wrCnt ∧ t.program = s.program ∧ t.responses = s.responses ∧
    (t.decoder = s.decoder ∨ t.decoder = none) ∧
    (fatalBit t.status = true →
      (∀ a, Memory.read bufferBlank t.outBuf a = Memory.read bufferBlank s.outBuf a) ∧
      t.outLen = s.outLen ∧ t.consumed = s.consumed ∧ t.produced = s.produced ∧
      modeBit t.status = modeBit s.status)

/-! ## The adapter's laws -/

/-- R114: BLOCK_WRITE of any logical block, then BLOCK_READ of the sector with no write to it in between, returns the
block, under ESCAPE and WIDE and either STRICT_DECODE; under VERBATIM and under TRUNC it can fail. -/
def Obligations.AdapterRoundTrip : Prop :=
  (∀ s t u : State, s.legalConfig = true → s.fatal = false → s.sector.toNat < s.devSectors →
    s.cfg.zeroLitMode = .escape → s.cfg.rawMode = .wide → exec .blockWrite s = .next t →
    u.cfg = t.cfg → u.devSectors = t.devSectors → u.sector = s.sector → u.fatal = false →
    u.block s.sector.toNat = t.block s.sector.toNat →
    ∃ v, exec .blockRead u = .next v ∧ v.outBytes s.cfg.sectorSize = s.logicalBlock ∧
      errField v.status = ErrCode.none.code ∧ v.fatal = false ∧ modeBit v.status = modeBit t.status) ∧
  (∃ s t v : State, s.legalConfig = true ∧ s.fatal = false ∧ s.sector.toNat < s.devSectors ∧
    s.cfg.zeroLitMode = .verbatim ∧ s.cfg.rawMode = .wide ∧ exec .blockWrite s = .next t ∧
    modeBit t.status = true ∧ exec .blockRead t = .next v ∧ v.outBytes s.cfg.sectorSize ≠ s.logicalBlock) ∧
  (∃ s t v : State, s.legalConfig = true ∧ s.fatal = false ∧ s.sector.toNat < s.devSectors ∧
    s.cfg.zeroLitMode = .escape ∧ s.cfg.rawMode = .trunc ∧ exec .blockWrite s = .next t ∧
    modeBit t.status = false ∧ exec .blockRead t = .next v ∧ v.outBytes s.cfg.sectorSize ≠ s.logicalBlock)

/-- R113: a logical block whose stream exceeds CAP is stored RAW with HDR = 0, and a later BLOCK_READ, with no write to
the sector in between, returns it: always under WIDE, and under TRUNC exactly when it ends in four zero bytes. -/
def Obligations.FallbackLaw : Prop :=
  ∀ s t u : State, s.legalConfig = true → s.fatal = false → s.sector.toNat < s.devSectors →
    s.cfg.cap < (encodeBytes s.cfg.zeroLitMode s.logicalBlock).length → exec .blockWrite s = .next t →
    u.cfg = t.cfg → u.devSectors = t.devSectors → u.sector = s.sector → u.fatal = false →
    u.block s.sector.toNat = t.block s.sector.toNat →
    t.hdr = 0 ∧ modeBit t.status = false ∧
    ∃ v, exec .blockRead u = .next v ∧ errField v.status = ErrCode.none.code ∧
      (s.cfg.rawMode = .wide → v.outBytes s.cfg.sectorSize = s.logicalBlock) ∧
      (s.cfg.rawMode = .trunc →
        (v.outBytes s.cfg.sectorSize = s.logicalBlock ↔
          s.logicalBlock.drop (s.cfg.sectorSize - 4) = [0x00, 0x00, 0x00, 0x00]))

/-- R116: an ENCODED block the adapter writes reads back without error, under ESCAPE with either STRICT_DECODE and under
VERBATIM without it; under ESCAPE its stream is valid for S. -/
def Obligations.EncodedBlockReadsBack : Prop :=
  ∀ s t u : State, s.legalConfig = true → s.fatal = false → s.sector.toNat < s.devSectors →
    exec .blockWrite s = .next t → modeBit t.status = true →
    u.cfg = t.cfg → u.devSectors = t.devSectors → u.sector = s.sector → u.fatal = false →
    u.block s.sector.toNat = t.block s.sector.toNat →
    (s.cfg.zeroLitMode = .escape →
      validStream (slice (t.block s.sector.toNat) 4 (4 + t.hdr.toNat)) s.cfg.sectorSize) ∧
    (s.cfg.zeroLitMode = .escape ∨ s.cfg.strictDecode = false →
      ∃ v, exec .blockRead u = .next v ∧ errField v.status = ErrCode.none.code ∧ v.fatal = false ∧
        modeBit v.status = true)

/-- R117: the stream BLOCK_WRITE stores is the one COMPRESS produces from the same S bytes, and an ENCODED block decodes
as DECOMPRESS decodes its stream. -/
def Obligations.BlockStreamIsCodecStream : Prop :=
  (∀ s t c u : State, s.legalConfig = true → s.fatal = false → s.sector.toNat < s.devSectors →
    exec .blockWrite s = .next t → modeBit t.status = true →
    c.cfg = s.cfg → c.fatal = false → c.inLen.toNat = s.cfg.sectorSize →
    c.inBytes s.cfg.sectorSize = s.logicalBlock → exec .compress c = .next u →
    slice (t.block s.sector.toNat) 4 (4 + t.hdr.toNat) = u.outBytes u.outLen.toNat ∧ t.hdr = u.outLen) ∧
  (∀ s t d u : State, s.legalConfig = true → s.fatal = false → s.sector.toNat < s.devSectors →
    exec .blockRead s = .next t → errField t.status = ErrCode.none.code → modeBit t.status = true →
    d.cfg = s.cfg → d.fatal = false → d.inLen = t.hdr → d.origLen.toNat = s.cfg.sectorSize →
    d.inBytes d.inLen.toNat = slice (s.block s.sector.toNat) 4 (4 + t.hdr.toNat) →
    exec .decompress d = .next u →
    t.outBytes s.cfg.sectorSize = u.outBytes s.cfg.sectorSize ∧ t.consumed = u.consumed ∧ t.produced = u.produced)

/-- R120: the padding of an ENCODED block is written as zero bytes and never read: two blocks that agree on the size
field and the stream read back the same. -/
def Obligations.PaddingNeverRead : Prop :=
  (∀ s t : State, s.legalConfig = true → s.fatal = false → s.sector.toNat < s.devSectors →
    exec .blockWrite s = .next t → modeBit t.status = true →
    slice (t.block s.sector.toNat) (4 + t.hdr.toNat) s.cfg.physSize =
      List.replicate (s.cfg.physSize - (4 + t.hdr.toNat)) 0x00) ∧
  (∀ s u t v : State, s.legalConfig = true → s.cfg = u.cfg → s.fatal = false → u.fatal = false →
    s.sector.toNat < s.devSectors → u.sector.toNat < u.devSectors →
    1 ≤ (sizeField (s.block s.sector.toNat)).toNat → (sizeField (s.block s.sector.toNat)).toNat ≤ s.cfg.cap →
    (s.block s.sector.toNat).take (4 + (sizeField (s.block s.sector.toNat)).toNat) =
      (u.block u.sector.toNat).take (4 + (sizeField (s.block s.sector.toNat)).toNat) →
    exec .blockRead s = .next t → exec .blockRead u = .next v →
    t.hdr = v.hdr ∧ errField t.status = errField v.status ∧
    (errField t.status = ErrCode.none.code →
      t.outBuf = v.outBuf ∧ t.outLen = v.outLen ∧ t.consumed = v.consumed ∧ t.produced = v.produced ∧
      modeBit t.status = modeBit v.status))

/-- R115: the CAP boundary of the default sector size: 508 stream bytes are stored ENCODED, 509 RAW, and a size field of
509 is CORRUPT. -/
def Obligations.CapBoundary : Prop :=
  ∀ s t : State, s.legalConfig = true → s.cfg.sectorSize = 512 → s.fatal = false →
    s.sector.toNat < s.devSectors →
    ((encodeBytes s.cfg.zeroLitMode s.logicalBlock).length = 508 → exec .blockWrite s = .next t →
      (t.block s.sector.toNat).take 4 = [0xFC, 0x01, 0x00, 0x00] ∧ t.hdr = 0x1FC ∧ modeBit t.status = true) ∧
    ((encodeBytes s.cfg.zeroLitMode s.logicalBlock).length = 509 → exec .blockWrite s = .next t →
      (t.block s.sector.toNat).take 4 = [0x00, 0x00, 0x00, 0x00] ∧ t.hdr = 0 ∧ modeBit t.status = false) ∧
    ((s.block s.sector.toNat).take 4 = [0xFD, 0x01, 0x00, 0x00] → exec .blockRead s = .next t →
      errField t.status = ErrCode.corrupt.code ∧ fatalBit t.status = true)

/-! ## Tokens -/

/-- R92: the step of each token where the decoder stands at it with output capacity left: the whole next state. A RUN
consumes 3 stream bytes and produces min(count, capacity left) copies of its value; a literal consumes 1 and produces
itself. -/
def Obligations.TokenSteps : Prop :=
  ∀ (s : State) (d : Decoder), s.decoder = some d → 0 < d.room →
    (∀ c v rest, d.rest = 0x00 :: c :: v :: rest →
      exec (.run c v) s = .next
        { s with
          decoder := some ⟨rest, d.pos + 3, List.replicate (min c.toNat d.room) v ++ d.made,
            d.room - min c.toNat d.room, d.owner⟩ }) ∧
    (∀ rest, d.rest = 0x00 :: rest → rest.length < 2 →
      exec .lit0Tail s = .next
        { s with decoder := some ⟨rest, d.pos + 1, 0x00 :: d.made, d.room - 1, d.owner⟩ }) ∧
    (∀ l rest, d.rest = l :: rest → l ≠ 0x00 →
      exec (.lit l) s = .next
        { s with decoder := some ⟨rest, d.pos + 1, l :: d.made, d.room - 1, d.owner⟩ })

/-- The frame of the instructions that write no memory: an illegal word changes STATUS.ERR alone (R128), and a token
nothing but the scan (R36). -/
def Obligations.IllegalAndTokenFrame : Prop :=
  (∀ (w : Word) (s t : State), exec (.illegalCmd w) s = .next t →
    ∃ st, t = { s with status := st } ∧ fatalBit st = fatalBit s.status ∧ modeBit st = modeBit s.status ∧
      reservedBits st = reservedBits s.status) ∧
  (∀ (i : Instr) (s t : State), i.format = .rleToken → exec i s = .next t →
    ∃ d d', s.decoder = some d ∧ t = { s with decoder := some d' } ∧ d'.owner = d.owner ∧ d'.want = d.want ∧
      d'.pos + d'.rest.length = d.pos + d.rest.length ∧ d'.rest.length < d.rest.length)

/-- Where a token run by itself stops: exactly where the decoder does not stand at it with capacity left. This is the
model's choice (assumption 4): the spec gives a token no effect outside a scan. -/
def Obligations.TokenOutsideScanStops : Prop :=
  ∀ (i : Instr) (s : State), i.format = .rleToken →
    (exec i s = .fault .tokenOutsideScan ↔
      ∀ d, s.decoder = some d → ¬(0 < d.room ∧ ∃ rest, decodeToken d.rest = .ok (i, rest)))

/-- The micro-steps of a scan come to the state the command reaches in its one atomic step (R9, R36): for a DECOMPRESS
from where it opens its scan, and for a BLOCK_READ of an ENCODED block from where it has latched the block. -/
def Obligations.MicroStepsReachTheCommand : Prop :=
  (∀ s : State, s.legalConfig = true → s.fatal = false → s.decompressInvalid = false →
    ∃ k, Sys2Proof.core.run k s.openDecompress = exec .decompress s) ∧
  (∀ (s : State) (p : List Byte), s.legalConfig = true → s.fatal = false → s.sector.toNat < s.devSectors →
    p = s.block s.sector.toNat → classify s.cfg (sizeField p).toNat = .encoded →
    ∃ k, Sys2Proof.core.run k ((s.latchBlock p).openDecoder (blockScan s.cfg p (sizeField p).toNat)) =
      exec .blockRead s)

/-! ## Errors, the FATAL condition and reset -/

/-- While STATUS.FATAL = 1 no command word executes anything (R130, R134 step 1). -/
def Obligations.FatalMachineExecutesNothing : Prop :=
  ∀ (i : Instr) (s : State), i.format = .cmd → s.fatal = true → exec i s = .next s

/-- R130: while STATUS.FATAL = 1 a CMD write stores its word and nothing more, every other action but RESET has its own
effect, STATUS keeps its value, the Store is not touched and no step comes to a normal end; and RESET clears it. -/
def Obligations.FatalConditionHolds : Prop :=
  ∀ (s t : State) (a : HostAction) (rest : List HostAction), s.Inv → s.fatal = true → s.program = a :: rest →
    step s = .next t →
    (a = .reset → t.fatal = false) ∧
    (a ≠ .reset →
      t.status = s.status ∧ t.normalEnd = false ∧ t.disk = s.disk ∧ t.rdCnt = s.rdCnt ∧ t.wrCnt = s.wrCnt ∧
      (∀ w, a = w32 0x000 w →
        t = { s with program := rest, cmd := w, responses := .written :: s.responses }) ∧
      ((∀ w, a ≠ w32 0x000 w) → t = (s.withProgram rest).actionEffect a))

/-- A run without a RESET that ends normally was never in the FATAL condition (R17, R24). -/
def Obligations.NormalEndWasNeverFatal : Prop :=
  ∀ (k : Nat) (s t : State), s.Inv → HostAction.reset ∉ s.program → Sys2Proof.core.run k s = .next t →
    t.normalEnd = true → ∀ (j : Nat) (u : State), j ≤ k → Sys2Proof.core.run j s = .next u → u.fatal = false

/-- R144: what RESET does to every piece of state. -/
def Obligations.ResetEffect : Prop :=
  ∀ (s : State) (rest : List HostAction), s.legalConfig = true → s.decoder = none → s.program = .reset :: rest →
    ∃ t, step s = .next t ∧
      (∀ r : Reg, t.readReg r = 0) ∧ t.fatal = false ∧ errField t.status = ErrCode.none.code ∧
      modeBit t.status = false ∧
      (∀ (b : Buffer) (i : Nat), t.bufferByte b i = 0x00) ∧
      t.disk = s.disk ∧ t.rdCnt = s.rdCnt ∧ t.wrCnt = s.wrCnt ∧ t.devSectors = s.devSectors ∧
      t.cfg = s.cfg ∧ t.decoder = none ∧ t.program = rest

/-- R146: what each command does straight after reset, whatever the launch arguments. -/
def Obligations.CommandsAfterReset : Prop :=
  ∀ (c : Config) (n : Nat) (m : Memory) (rd wr : Word) (p : List HostAction) (s : State),
    c.wf = true → s = State.launch c n m rd wr p →
    (∃ t, exec .compress s = .next t ∧ errField t.status = ErrCode.invalid.code) ∧
    (∃ t, exec .decompress s = .next t ∧ errField t.status = ErrCode.invalid.code) ∧
    (1 ≤ n → ∃ t, exec .blockWrite s = .next t ∧ errField t.status = ErrCode.none.code ∧
      s.logicalBlock = List.replicate c.sectorSize 0x00 ∧
      t.block 0 = pack c (selectWrite c (List.replicate c.sectorSize 0x00)) (List.replicate c.sectorSize 0x00)) ∧
    (n = 0 → ∃ t, exec .blockWrite s = .next t ∧ errField t.status = ErrCode.range.code ∧ t.fatal = true) ∧
    (1 ≤ n → ∃ t, exec .blockRead s = .next t ∧ t.physBytes c.physSize = s.block 0 ∧ t.rdCnt = rd + 1)

/-- R134: the order of the checks on a command word: the first that applies decides STATUS.ERR. -/
def Obligations.CheckOrder : Prop :=
  ∀ (w : Word) (s t : State) (p : List Byte) (h : Nat) (r : Decoded), exec (decodeCommand w) s = .next t →
    p = s.block s.sector.toNat → h = (sizeField p).toNat →
    r = decodeBytes (slice p 4 (4 + h)) s.cfg.sectorSize →
    (s.fatal = true → t = s) ∧
    (s.fatal = false → errField t.status = ErrCode.code
      (if rsvField w ≠ 0 ∨ opField w = 0 ∨ 5 ≤ opField w then .illegalCmd
       else if opField w ≤ 2 ∧ (s.inLen.toNat = 0 ∨ s.cfg.inCap < s.inLen.toNat) then .invalid
       else if opField w = 2 ∧ (s.origLen.toNat = 0 ∨ s.cfg.outCap < s.origLen.toNat) then .invalid
       else if 3 ≤ opField w ∧ s.devSectors ≤ s.sector.toNat then .range
       else if opField w = 4 ∧ s.cfg.cap < h then .corrupt
       else if opField w = 4 ∧ s.cfg.strictDecode = true ∧ h ≠ 0 ∧ (r.prod < s.cfg.sectorSize ∨ r.cons < h) then
         .corrupt
       else .none))

/-! ## The host window -/

/-- An access the window does not take (R51, R52) is a bus error with no effect on the block's state. That it is a next
state to which only the Host's observation is added is the model's choice (assumption 6, DEDUCED): R10 lists the bus
error as an outcome of its own, and R52 and R133 have a model fault the access and record it. -/
def Obligations.BusErrorHasNoEffect : Prop :=
  ∀ (s : State) (width off : Nat) (v : Word) (rest : List HostAction), s.legalConfig = true → s.decoder = none →
    (s.program = .access ⟨.read, width, off, v⟩ :: rest → ¬readTaken s.cfg width off →
      step s = .next { s with program := rest, responses := .busError :: s.responses }) ∧
    (s.program = .access ⟨.write, width, off, v⟩ :: rest → ¬writeTaken s.cfg width off →
      step s = .next { s with program := rest, responses := .busError :: s.responses }) ∧
    (readTaken s.cfg width off ↔ ∃ x, s.windowRead width off = some x) ∧
    (writeTaken s.cfg width off ↔ ∃ t, s.windowWrite width off v = some t)

/-- A read has no side effect (R53): a step that reads changes only what the Host has left to do and has observed. -/
def Obligations.ReadsChangeNothing : Prop :=
  ∀ (s t : State) (width off : Nat) (v : Word) (rest : List HostAction), s.decoder = none →
    s.program = .access ⟨.read, width, off, v⟩ :: rest → step s = .next t →
    ∃ r, t = { s with program := rest, responses := r :: s.responses } ∧
      ∀ x, r = .value x ↔ s.windowRead width off = some x

/-- A host write to IN_LEN, ORIG_LEN, SECTOR or IN changes only the location written (R53). -/
def Obligations.OperandWrites : Prop :=
  ∀ (s : State) (v : Word) (rest : List HostAction), s.legalConfig = true → s.decoder = none →
    (s.program = w32 0x008 v :: rest →
      step s = .next { s with program := rest, inLen := v, responses := .written :: s.responses }) ∧
    (s.program = w32 0x00C v :: rest →
      step s = .next { s with program := rest, origLen := v, responses := .written :: s.responses }) ∧
    (s.program = w32 0x010 v :: rest →
      step s = .next { s with program := rest, sector := v, responses := .written :: s.responses }) ∧
    (∀ (i : Nat) (b : Byte), i < s.cfg.inCap → s.program = w8 (0x1000 + i) b :: rest →
      ∃ m, step s = .next { s with program := rest, inBuf := m, responses := .written :: s.responses } ∧
        Memory.read bufferBlank m i = b ∧
        ∀ a, a ≠ i → Memory.read bufferBlank m a = Memory.read bufferBlank s.inBuf a) ∧
    (∀ i, i % 4 = 0 → i + 4 ≤ s.cfg.inCap → s.program = w32 (0x1000 + i) v :: rest →
      ∃ m, step s = .next { s with program := rest, inBuf := m, responses := .written :: s.responses } ∧
        [Memory.read bufferBlank m i, Memory.read bufferBlank m (i + 1), Memory.read bufferBlank m (i + 2),
          Memory.read bufferBlank m (i + 3)] = bytesLE32 v ∧
        ∀ a, a < i ∨ i + 4 ≤ a → Memory.read bufferBlank m a = Memory.read bufferBlank s.inBuf a)

/-- R47: byte and word accesses to the same bytes of a buffer see the same values, in little-endian order. -/
def Obligations.MixedWidthAccess : Prop :=
  ∀ (s : State) (b : Buffer) (i : Nat), s.legalConfig = true → i % 4 = 0 → i + 4 ≤ b.size s.cfg →
    (∀ j, j < 4 → s.windowRead 8 (b.base + i + j) = some ((s.bufferByte b (i + j)).setWidth 32)) ∧
    s.windowRead 32 (b.base + i) = some (le32 (s.bufferByte b i) (s.bufferByte b (i + 1))
      (s.bufferByte b (i + 2)) (s.bufferByte b (i + 3))) ∧
    (b = .inB → ∀ v : Word, ∃ t, s.windowWrite 32 (b.base + i) v = some t ∧
      [t.bufferByte b i, t.bufferByte b (i + 1), t.bufferByte b (i + 2), t.bufferByte b (i + 3)] = bytesLE32 v ∧
      t.windowRead 32 (b.base + i) = some v)

/-- The register file in the window (R20): each register's offset, its value on a read, and which the Host may write. -/
def Obligations.RegisterWindow : Prop :=
  ∀ (s : State) (v : Word),
    (∀ r : Reg, s.windowRead 32 r.offset = some (s.readReg r)) ∧
    s.windowWrite 32 0x000 v = some { s with cmd := v } ∧
    s.windowWrite 32 0x008 v = some { s with inLen := v } ∧
    s.windowWrite 32 0x00C v = some { s with origLen := v } ∧
    s.windowWrite 32 0x010 v = some { s with sector := v } ∧
    (∀ off, off = 0x004 ∨ off = 0x014 ∨ off = 0x018 ∨ off = 0x01C ∨ off = 0x020 →
      s.windowWrite 32 off v = none) ∧
    [Reg.cmd, .status, .inLen, .origLen, .sector, .outLen, .hdr, .consumed, .produced].map Reg.offset =
      [0x000, 0x004, 0x008, 0x00C, 0x010, 0x014, 0x018, 0x01C, 0x020]

/-- STATUS as the Host reads it (R22): ERR in bits 3:0, FATAL in bit 4, MODE in bit 5, and 0 in bits 31:6. -/
def Obligations.StatusFieldsAsRead : Prop :=
  ∀ (s : State), ∃ v, s.windowRead 32 0x004 = some v ∧
    v.toNat = (errField s.status).toNat + 16 * (fatalBit s.status).toNat + 32 * (modeBit s.status).toNat

/-! ## The whole machine -/

/-- R123: each command's Store accesses: BLOCK_WRITE that passes its range check adds 1 to WR_CNT, BLOCK_READ that passes
it adds 1 to RD_CNT, mod 2^32, and nothing else changes either counter. -/
def Obligations.StoreCounters : Prop :=
  ∀ (i : Instr) (s t : State), exec i s = .next t →
    t.wrCnt = s.wrCnt + (if i = .blockWrite ∧ s.fatal = false ∧ s.sector.toNat < s.devSectors then 1 else 0) ∧
    t.rdCnt = s.rdCnt + (if i = .blockRead ∧ s.fatal = false ∧ s.sector.toNat < s.devSectors then 1 else 0)

/-- Only BLOCK_WRITE changes the Store, and only the block of its sector (R37): a byte of the Store that a step changes
lies in the block a BLOCK_WRITE of that step writes. -/
def Obligations.StoreChangesOnlyByBlockWrite : Prop :=
  ∀ (s t : State) (a : Nat), s.legalConfig = true → step s = .next t →
    Memory.read storeBlank t.disk a ≠ Memory.read storeBlank s.disk a →
    ∃ u, s.fetch = .instr .blockWrite u ∧ u.fatal = false ∧ u.sector.toNat < u.devSectors ∧
      u.sector.toNat * u.cfg.physSize ≤ a ∧ a < u.sector.toNat * u.cfg.physSize + u.cfg.physSize

/-- DEV_SECTORS is in 0..2^32 − 1 and no step changes it, and when it is 0 every block command fails with RANGE (R39).
No step changes the parameters either: R18 fixes them for a model instance, and that they stand in a field of State
which every step keeps is the model's choice (assumption 11, DEDUCED). -/
def Obligations.LaunchParametersFixed : Prop :=
  (∀ s t : State, s.Inv → step s = .next t →
    t.devSectors = s.devSectors ∧ s.devSectors ≤ 2 ^ 32 - 1 ∧ t.cfg = s.cfg) ∧
  (∀ s : State, s.devSectors = 0 → s.fatal = false →
    exec .blockWrite s = .next (s.raiseFatal .range) ∧ exec .blockRead s = .next (s.raiseFatal .range))

/-- Every step keeps the invariant of the machine. -/
def Obligations.StepKeepsInvariant : Prop :=
  ∀ s t : State, s.Inv → step s = .next t → t.Inv

/-- The invariant holds right after reset, for every legal configuration and every launch argument that fits it. The
values of the launch arguments in `State.reset` are the model's choice (assumptions 1 to 3). -/
def Obligations.InvariantAtReset : Prop :=
  (∀ (c : Config) (n : Nat) (m : Memory) (rd wr : Word) (p : List HostAction),
    c.wf = true → devSectorsLegal n = true → Memory.wf storeBlank m → (∀ x ∈ m, x.1 < n * c.physSize) →
    (State.launch c n m rd wr p).Inv) ∧
  State.reset.Inv

/-- A block with a legal configuration never stops: from every state a step answers a next state, whatever the Host
does. Commands go on, with or without an error (R10, R126), and so does every turn of a scan (R95). That a bus error,
which R10 and R133 keep apart from a next state, and a step with nothing left to do answer a next state too is the
model's choice (assumptions 6 and 7, DEDUCED). -/
def Obligations.LegalMachineNeverStops : Prop :=
  ∀ s : State, s.legalConfig = true → ∃ t, step s = .next t

/-- A configuration that breaks a constraint of R11 is refused. That the refusal is the step's, for State holds the
parameters, is the model's choice (assumption 11, DEDUCED). -/
def Obligations.IllegalConfigurationRefused : Prop :=
  ∀ s : State,
    (¬(5 ≤ s.cfg.sectorSize ∧ s.cfg.sectorSize ≤ s.cfg.inCap ∧ s.cfg.inCap ≤ 2048 ∧ 1 ≤ s.cfg.cap ∧
      s.cfg.physSize ≤ 4096 ∧ s.devSectors ≤ 2 ^ 32 - 1) ↔ step s = .refused .illegalConfig)

/-- A step runs the command the Host writes to CMD: it is the meaning of the decoded word, in the state where CMD holds the
word and the Host has made its write (R21, R55). -/
def Obligations.StepRunsTheCommandWritten : Prop :=
  ∀ (s : State) (w : Word) (rest : List HostAction), s.legalConfig = true → s.decoder = none →
    s.program = w32 0x000 w :: rest →
    step s = exec (decodeCommand w)
      { s with program := rest, cmd := w, responses := .written :: s.responses }

/-- A step runs the token a scan stands at: it is the meaning of the decoded token (R36, R93); and where the scan does not
go on, the step ends it. -/
def Obligations.StepRunsTheTokenAtTheScan : Prop :=
  ∀ (s : State) (d : Decoder), s.legalConfig = true → s.decoder = some d →
    (∀ i rest, 0 < d.room → decodeToken d.rest = .ok (i, rest) → step s = exec i s) ∧
    (d.rest = [] ∨ d.room = 0 → step s = .next s.closeDecoder)
end

