-- ==== Sys2Proof/Laws/Decode.lean ====
section
/-! SUPPORT. The byte order undoes itself (00_scope.md R13), the command decoder says one of five things, and the token
decoder says one of three (30_encoding.md R68). -/

namespace Sys2Proof

/-! ## Byte order -/

@[simp] theorem length_bytesLE32 (v : Word) : (bytesLE32 v).length = 4 := rfl

/-- The little-endian reading of four bytes, as a number. -/
theorem toNat_le32 (b0 b1 b2 b3 : Byte) :
    (le32 b0 b1 b2 b3).toNat = b0.toNat + 256 * b1.toNat + 65536 * b2.toNat + 16777216 * b3.toNat := by
  have h0 := b0.isLt; have h1 := b1.isLt; have h2 := b2.isLt; have h3 := b3.isLt
  rw [le32, BitVec.toNat_ofNat, Nat.mod_eq_of_lt (by omega)]

/-- Reading the bytes of a word gives the word back. -/
theorem le32_bytesLE32 (v : Word) :
    le32 (v.extractLsb' 0 8) (v.extractLsb' 8 8) (v.extractLsb' 16 8) (v.extractLsb' 24 8) = v := by
  apply BitVec.eq_of_toNat_eq
  rw [toNat_le32]
  simp only [BitVec.extractLsb'_toNat, Nat.shiftRight_eq_div_pow]
  have := v.isLt
  omega

/-- The bytes of a word read from four bytes are those bytes. -/
theorem bytesLE32_le32 (b0 b1 b2 b3 : Byte) : bytesLE32 (le32 b0 b1 b2 b3) = [b0, b1, b2, b3] := by
  have h0 := b0.isLt; have h1 := b1.isLt; have h2 := b2.isLt; have h3 := b3.isLt
  simp only [bytesLE32, List.cons.injEq, and_true]
  refine ⟨?_, ?_, ?_, ?_⟩ <;> apply BitVec.eq_of_toNat_eq <;>
    simp only [BitVec.extractLsb'_toNat, Nat.shiftRight_eq_div_pow, toNat_le32] <;> omega

/-! ## Commands -/

/-- The command decoder reads one of the four legal words as its command and every other word as illegal. -/
theorem decodeCommand_cases (w : Word) :
    (w = 1#32 ∧ decodeCommand w = .compress) ∨ (w = 2#32 ∧ decodeCommand w = .decompress) ∨
    (w = 3#32 ∧ decodeCommand w = .blockWrite) ∨ (w = 4#32 ∧ decodeCommand w = .blockRead) ∨
    (w ∉ legalCommandWords ∧ decodeCommand w = .illegalCmd w) := by
  have mask : ∀ p : Word, (w &&& 4294967295#32 == p) = (w == p) := fun p => by
    rw [show 4294967295#32 = BitVec.allOnes 32 from rfl, BitVec.and_allOnes]
  by_cases h1 : w = 1#32; · subst h1; left; decide
  by_cases h2 : w = 2#32; · subst h2; right; left; decide
  by_cases h3 : w = 3#32; · subst h3; right; right; left; decide
  by_cases h4 : w = 4#32; · subst h4; right; right; right; left; decide
  right; right; right; right
  refine ⟨by simp [legalCommandWords, h1, h2, h3, h4], ?_⟩
  have e1 : (w == 1#32) = false := by simpa using h1
  have e2 : (w == 2#32) = false := by simpa using h2
  have e3 : (w == 3#32) = false := by simpa using h3
  have e4 : (w == 4#32) = false := by simpa using h4
  simp only [decodeCommand, commandRows, List.find?, BitVec.ofNat_eq_ofNat, mask, e1, e2, e3, e4]

/-! ## Tokens -/

@[simp] theorem decodeToken_nil : decodeToken [] = .error .endOfStream := rfl

theorem decodeToken_run (c v : Byte) (rest : List Byte) :
    decodeToken (Config.marker :: c :: v :: rest) = .ok (.run c v, rest) := rfl

theorem decodeToken_tail {bs : List Byte} (h : bs.length < 2) :
    decodeToken (Config.marker :: bs) = .ok (.lit0Tail, bs) := by
  match bs, h with
  | [], _ => rfl
  | [_], _ => rfl

theorem decodeToken_lit {b : Byte} (h : b ≠ Config.marker) (bs : List Byte) :
    decodeToken (b :: bs) = .ok (.lit b, bs) := by
  simp [decodeToken, h]

/-- The token decoder says one of three things of a stream that has a byte. -/
theorem decodeToken_cases {bs : List Byte} (h : bs ≠ []) :
    (∃ c v rest, bs = Config.marker :: c :: v :: rest ∧ decodeToken bs = .ok (.run c v, rest)) ∨
    (∃ rest, bs = Config.marker :: rest ∧ rest.length < 2 ∧ decodeToken bs = .ok (.lit0Tail, rest)) ∨
    (∃ b rest, bs = b :: rest ∧ b ≠ Config.marker ∧ decodeToken bs = .ok (.lit b, rest)) := by
  match bs, h with
  | b :: rest, _ =>
    by_cases hb : b = Config.marker
    · subst hb
      match rest with
      | [] => exact .inr (.inl ⟨[], rfl, by simp, rfl⟩)
      | [x] => exact .inr (.inl ⟨[x], rfl, by simp, rfl⟩)
      | c :: v :: r => exact .inl ⟨c, v, r, rfl, rfl⟩
    · exact .inr (.inr ⟨b, rest, rfl, hb, decodeToken_lit hb rest⟩)

end Sys2Proof
end

