-- ==== Sys2Proof/Laws/Codec.lean ====
section
/-! SUPPORT. The codec's shared facts: what a piece is (40_codec.md R84), the encoder piece by piece (R86), what one step
and a whole scan of the decoder keep and do (R92, R93). -/

namespace Sys2Proof.Machine

/-! ## Pieces -/

theorem runLength_le_limit (v : Byte) (limit : Nat) (bs : List Byte) : runLength v limit bs ≤ limit := by
  induction limit generalizing bs with
  | zero => simp [runLength]
  | succ n ih =>
    cases bs with
    | nil => simp [runLength]
    | cons b bs => simp only [runLength]; split <;> [exact Nat.succ_le_succ (ih bs); omega]

theorem runLength_le_length (v : Byte) (limit : Nat) (bs : List Byte) : runLength v limit bs ≤ bs.length := by
  induction limit generalizing bs with
  | zero => simp [runLength]
  | succ n ih =>
    cases bs with
    | nil => simp [runLength]
    | cons b bs => simp only [runLength, List.length_cons]; split <;> [exact Nat.succ_le_succ (ih bs); omega]

/-- The bytes a run counts are all its byte. -/
theorem take_runLength (v : Byte) (limit : Nat) (bs : List Byte) :
    bs.take (runLength v limit bs) = List.replicate (runLength v limit bs) v := by
  induction limit generalizing bs with
  | zero => simp [runLength]
  | succ n ih =>
    cases bs with
    | nil => simp [runLength]
    | cons b bs =>
      simp only [runLength]
      split
      · rename_i h; rw [List.take_succ_cons, List.replicate_succ, ih, h]
      · simp

/-- A run that stops before its limit stops at another byte or at the end. -/
theorem drop_runLength {v : Byte} {limit : Nat} {bs : List Byte} (h : runLength v limit bs < limit) :
    (bs.drop (runLength v limit bs)).head? ≠ some v := by
  induction limit generalizing bs with
  | zero => simp [runLength] at h
  | succ n ih =>
    cases bs with
    | nil => simp [runLength]
    | cons b bs =>
      simp only [runLength] at h ⊢
      split
      · rename_i hb
        rw [if_pos hb] at h
        rw [List.drop_succ_cons]
        exact ih (by omega)
      · rename_i hb; simpa using hb

theorem pieceLen_cons (v : Byte) (bs : List Byte) : pieceLen (v :: bs) = 1 + runLength v 254 bs := rfl

theorem pieceLen_pos (v : Byte) (bs : List Byte) : 1 ≤ pieceLen (v :: bs) := by
  rw [pieceLen_cons]; omega

theorem pieceLen_le_maxRun (v : Byte) (bs : List Byte) : pieceLen (v :: bs) ≤ 255 := by
  rw [pieceLen_cons]; have := runLength_le_limit v 254 bs; omega

theorem pieceLen_le_length (v : Byte) (bs : List Byte) : pieceLen (v :: bs) ≤ (v :: bs).length := by
  rw [pieceLen_cons, List.length_cons]; have := runLength_le_length v 254 bs; omega

/-- A piece is copies of its first byte. -/
theorem take_pieceLen (v : Byte) (bs : List Byte) :
    (v :: bs).take (pieceLen (v :: bs)) = List.replicate (pieceLen (v :: bs)) v := by
  rw [pieceLen_cons, Nat.add_comm, List.take_succ_cons, List.replicate_succ, take_runLength]

/-- A suffix is its first piece and the rest. -/
theorem piece_append_drop (v : Byte) (bs : List Byte) :
    v :: bs = List.replicate (pieceLen (v :: bs)) v ++ (v :: bs).drop (pieceLen (v :: bs)) := by
  rw [← take_pieceLen, List.take_append_drop]

/-- A piece shorter than the cap is the whole run at its position. -/
theorem head_drop_pieceLen {v : Byte} {bs : List Byte} (h : pieceLen (v :: bs) < 255) :
    ((v :: bs).drop (pieceLen (v :: bs))).head? ≠ some v := by
  rw [pieceLen_cons] at h
  rw [pieceLen_cons, Nat.add_comm 1, List.drop_succ_cons]
  exact drop_runLength (by omega)

/-! ## The encoder -/

@[simp] theorem encodeBytes_nil (mode : ZeroLitMode) : encodeBytes mode [] = [] := rfl

/-- Spare iterations of the encoder's loop do nothing. -/
theorem encodeFor_eq (mode : ZeroLitMode) {n : Nat} {x : List Byte} (h : x.length ≤ n) :
    encodeFor mode n x = encodeBytes mode x := by
  unfold encodeBytes
  induction n using Nat.strong_induction_on generalizing x with
  | _ n ih =>
    match n, x, h with
    | n, [], _ => cases n <;> rfl
    | n + 1, v :: bs, h =>
      have hp := pieceLen_pos v bs
      have hl : ((v :: bs).drop (pieceLen (v :: bs))).length ≤ bs.length := by
        simp only [List.length_drop, List.length_cons]; omega
      have hb : bs.length ≤ n := by simpa using h
      simp only [encodeFor, List.length_cons]
      rw [ih n (by omega) (le_trans hl hb)]
      rcases Nat.lt_or_ge bs.length (n + 1) with hlt | hge
      · rw [ih bs.length hlt hl]
      · omega

/-- `Encode` piece by piece: the first piece's tokens, then the encoding of what follows it (R86). -/
theorem encodeBytes_cons (mode : ZeroLitMode) (v : Byte) (bs : List Byte) :
    encodeBytes mode (v :: bs) =
      emitPiece mode v (pieceLen (v :: bs)) (inTail (v :: bs)) ++
        encodeBytes mode ((v :: bs).drop (pieceLen (v :: bs))) := by
  have hp := pieceLen_pos v bs
  conv_lhs => rw [encodeBytes, List.length_cons, encodeFor]
  rw [encodeFor_eq mode]
  simp only [List.length_drop, List.length_cons]; omega

/-! ## One decoder step -/

namespace Decoder

theorem ready_iff (d : Decoder) : d.ready = true ↔ d.rest ≠ [] ∧ 0 < d.room := by
  simp [ready]

@[simp] theorem length_out (d : Decoder) : d.out.length = d.made.length := List.length_reverse

/-- The step of a decoder that goes on is a RUN's or a literal's (R92). -/
theorem step_cases {d : Decoder} (h : d.rest ≠ []) :
    (∃ c v rest, d.rest = Config.marker :: c :: v :: rest ∧ d.token = some (.run c v) ∧ d.step = d.takeRun c v) ∨
    (∃ rest, d.rest = Config.marker :: rest ∧ rest.length < 2 ∧ d.token = some .lit0Tail ∧
      d.step = d.takeLit Config.marker) ∨
    (∃ b rest, d.rest = b :: rest ∧ b ≠ Config.marker ∧ d.token = some (.lit b) ∧ d.step = d.takeLit b) := by
  rcases decodeToken_cases h with ⟨c, v, r, e, t⟩ | ⟨r, e, hl, t⟩ | ⟨b, r, e, hb, t⟩
  · have ht : d.token = some (.run c v) := by simp [token, t]
    exact .inl ⟨c, v, r, e, ht, by rw [step, ht]; rfl⟩
  · have ht : d.token = some .lit0Tail := by simp [token, t]
    exact .inr (.inl ⟨r, e, hl, ht, by rw [step, ht]; rfl⟩)
  · have ht : d.token = some (.lit b) := by simp [token, t]
    exact .inr (.inr ⟨b, r, e, hb, ht, by rw [step, ht]; rfl⟩)

/-- A decoder that has a byte to read stands at a token. -/
theorem token_of_ready {d : Decoder} (h : d.ready = true) : ∃ i, d.token = some i := by
  rcases step_cases ((ready_iff d).1 h).1 with ⟨c, v, _, _, t, _⟩ | ⟨_, _, _, t, _⟩ | ⟨b, _, _, _, t, _⟩
  exacts [⟨_, t⟩, ⟨_, t⟩, ⟨_, t⟩]

@[simp] theorem takeRun_owner (d : Decoder) (c v : Byte) : (d.takeRun c v).owner = d.owner := rfl
@[simp] theorem takeLit_owner (d : Decoder) (b : Byte) : (d.takeLit b).owner = d.owner := rfl

@[simp] theorem takeRun_want (d : Decoder) (c v : Byte) : (d.takeRun c v).want = d.want := by
  simp only [want, takeRun, List.length_append, List.length_replicate]; omega

theorem takeLit_want {d : Decoder} (h : 0 < d.room) (b : Byte) : (d.takeLit b).want = d.want := by
  simp only [want, takeLit, List.length_cons]; omega

/-- A step of a decoder that goes on keeps its owner, its requested length and N, and reads at least one byte. -/
theorem step_keeps {d : Decoder} (h : d.ready = true) :
    d.step.owner = d.owner ∧ d.step.want = d.want ∧
      d.step.pos + d.step.rest.length = d.pos + d.rest.length ∧ d.step.rest.length < d.rest.length := by
  obtain ⟨hr, hroom⟩ := (ready_iff d).1 h
  rcases step_cases hr with ⟨c, v, r, e, _, hs⟩ | ⟨r, e, _, _, hs⟩ | ⟨b, r, e, _, _, hs⟩
  · rw [hs]
    refine ⟨rfl, takeRun_want d c v, ?_, ?_⟩ <;> simp only [takeRun, e, List.length_drop, List.length_cons] <;> omega
  · rw [hs]
    refine ⟨rfl, takeLit_want hroom _, ?_, ?_⟩ <;> simp only [takeLit, e, List.length_drop, List.length_cons] <;> omega
  · rw [hs]
    refine ⟨rfl, takeLit_want hroom _, ?_, ?_⟩ <;> simp only [takeLit, e, List.length_drop, List.length_cons] <;> omega

/-! ## The whole scan -/

theorem scanFor_of_not_ready {d : Decoder} (h : d.ready = false) (n : Nat) : scanFor n d = d := by
  cases n <;> simp [scanFor, h]

/-- Spare iterations of the decoder's loop do nothing. -/
theorem scanFor_eq_scan {d : Decoder} {n : Nat} (h : d.rest.length ≤ n) : scanFor n d = d.scan := by
  unfold scan
  induction n using Nat.strong_induction_on generalizing d with
  | _ n ih =>
    by_cases hr : d.ready = true
    · have hlt := (step_keeps hr).2.2.2
      match n, hd : d.rest.length, h with
      | 0, _, _ => omega
      | n + 1, 0, _ => omega
      | n + 1, k + 1, h =>
        simp only [scanFor, hr, if_true]
        rw [ih n (by omega) (by omega)]
        rcases Nat.lt_or_ge k (n + 1) with hk | hk
        · rw [ih k hk (by omega)]
        · omega
    · have hf : d.ready = false := by simpa using hr
      rw [scanFor_of_not_ready hf, scanFor_of_not_ready hf]

/-- The scan of a decoder that goes on is its step, then the scan of the rest (R93). -/
theorem scan_of_ready {d : Decoder} (h : d.ready = true) : d.scan = d.step.scan := by
  have hlt := (step_keeps h).2.2.2
  rw [← scanFor_eq_scan (n := d.rest.length + 1) (by omega)]
  simp only [scanFor, h, if_true]
  exact scanFor_eq_scan (by omega)

theorem scan_of_not_ready {d : Decoder} (h : d.ready = false) : d.scan = d := scanFor_of_not_ready h _

/-- Induction along a scan: from the decoders that do not go on, back over each step. -/
theorem scan_induction {P : Decoder → Prop} (done : ∀ d, d.ready = false → P d)
    (next : ∀ d, d.ready = true → P d.step → P d) (d : Decoder) : P d := by
  generalize hn : d.rest.length = n
  induction n using Nat.strong_induction_on generalizing d with
  | _ n ih =>
    by_cases hr : d.ready = true
    · exact next d hr (ih _ (hn ▸ (step_keeps hr).2.2.2) _ rfl)
    · exact done d (by simpa using hr)

/-- A scan keeps its owner, its requested length and N, and ends where it does not go on. -/
theorem scan_keeps (d : Decoder) :
    d.scan.owner = d.owner ∧ d.scan.want = d.want ∧
      d.scan.pos + d.scan.rest.length = d.pos + d.rest.length ∧ d.scan.ready = false := by
  induction d using scan_induction with
  | done d h => rw [scan_of_not_ready h]; exact ⟨rfl, rfl, rfl, h⟩
  | next d h ih =>
    obtain ⟨k1, k2, k3, _⟩ := step_keeps h
    obtain ⟨i1, i2, i3, i4⟩ := ih
    rw [scan_of_ready h]
    exact ⟨i1.trans k1, i2.trans k2, i3.trans k3, i4⟩

theorem scan_owner (d : Decoder) : d.scan.owner = d.owner := (scan_keeps d).1

theorem scan_want (d : Decoder) : d.scan.want = d.want := (scan_keeps d).2.1

end Decoder

end Sys2Proof.Machine
end

