-- ==== Sys2Proof/Laws/State.lean ====
section
/-! SUPPORT. For each named update of the state, what every field is after it: one lemma per field per update, true by
rfl, so that no later proof unfolds a record update. -/

namespace Sys2Proof.Machine.State

/-! ## `setErr`: A non-fatal error code written (R126). -/

@[simp] theorem setErr_cfg (s : State) (e : ErrCode) : (s.setErr e).cfg = s.cfg := rfl
@[simp] theorem setErr_cmd (s : State) (e : ErrCode) : (s.setErr e).cmd = s.cmd := rfl
@[simp] theorem setErr_status (s : State) (e : ErrCode) : (s.setErr e).status = withErr s.status e := rfl
@[simp] theorem setErr_inLen (s : State) (e : ErrCode) : (s.setErr e).inLen = s.inLen := rfl
@[simp] theorem setErr_origLen (s : State) (e : ErrCode) : (s.setErr e).origLen = s.origLen := rfl
@[simp] theorem setErr_sector (s : State) (e : ErrCode) : (s.setErr e).sector = s.sector := rfl
@[simp] theorem setErr_outLen (s : State) (e : ErrCode) : (s.setErr e).outLen = s.outLen := rfl
@[simp] theorem setErr_hdr (s : State) (e : ErrCode) : (s.setErr e).hdr = s.hdr := rfl
@[simp] theorem setErr_consumed (s : State) (e : ErrCode) : (s.setErr e).consumed = s.consumed := rfl
@[simp] theorem setErr_produced (s : State) (e : ErrCode) : (s.setErr e).produced = s.produced := rfl
@[simp] theorem setErr_inBuf (s : State) (e : ErrCode) : (s.setErr e).inBuf = s.inBuf := rfl
@[simp] theorem setErr_outBuf (s : State) (e : ErrCode) : (s.setErr e).outBuf = s.outBuf := rfl
@[simp] theorem setErr_phys (s : State) (e : ErrCode) : (s.setErr e).phys = s.phys := rfl
@[simp] theorem setErr_decoder (s : State) (e : ErrCode) : (s.setErr e).decoder = s.decoder := rfl
@[simp] theorem setErr_devSectors (s : State) (e : ErrCode) : (s.setErr e).devSectors = s.devSectors := rfl
@[simp] theorem setErr_disk (s : State) (e : ErrCode) : (s.setErr e).disk = s.disk := rfl
@[simp] theorem setErr_rdCnt (s : State) (e : ErrCode) : (s.setErr e).rdCnt = s.rdCnt := rfl
@[simp] theorem setErr_wrCnt (s : State) (e : ErrCode) : (s.setErr e).wrCnt = s.wrCnt := rfl
@[simp] theorem setErr_program (s : State) (e : ErrCode) : (s.setErr e).program = s.program := rfl
@[simp] theorem setErr_responses (s : State) (e : ErrCode) : (s.setErr e).responses = s.responses := rfl

/-! ## `failInvalid`: `fail Invalid` (R126, R127). -/

@[simp] theorem failInvalid_cfg (s : State) : s.failInvalid.cfg = s.cfg := rfl
@[simp] theorem failInvalid_cmd (s : State) : s.failInvalid.cmd = s.cmd := rfl
@[simp] theorem failInvalid_status (s : State) : s.failInvalid.status = withErr s.status .invalid := rfl
@[simp] theorem failInvalid_inLen (s : State) : s.failInvalid.inLen = s.inLen := rfl
@[simp] theorem failInvalid_origLen (s : State) : s.failInvalid.origLen = s.origLen := rfl
@[simp] theorem failInvalid_sector (s : State) : s.failInvalid.sector = s.sector := rfl
@[simp] theorem failInvalid_outLen (s : State) : s.failInvalid.outLen = 0 := rfl
@[simp] theorem failInvalid_hdr (s : State) : s.failInvalid.hdr = s.hdr := rfl
@[simp] theorem failInvalid_consumed (s : State) : s.failInvalid.consumed = s.consumed := rfl
@[simp] theorem failInvalid_produced (s : State) : s.failInvalid.produced = s.produced := rfl
@[simp] theorem failInvalid_inBuf (s : State) : s.failInvalid.inBuf = s.inBuf := rfl
@[simp] theorem failInvalid_outBuf (s : State) : s.failInvalid.outBuf = s.outBuf := rfl
@[simp] theorem failInvalid_phys (s : State) : s.failInvalid.phys = s.phys := rfl
@[simp] theorem failInvalid_decoder (s : State) : s.failInvalid.decoder = s.decoder := rfl
@[simp] theorem failInvalid_devSectors (s : State) : s.failInvalid.devSectors = s.devSectors := rfl
@[simp] theorem failInvalid_disk (s : State) : s.failInvalid.disk = s.disk := rfl
@[simp] theorem failInvalid_rdCnt (s : State) : s.failInvalid.rdCnt = s.rdCnt := rfl
@[simp] theorem failInvalid_wrCnt (s : State) : s.failInvalid.wrCnt = s.wrCnt := rfl
@[simp] theorem failInvalid_program (s : State) : s.failInvalid.program = s.program := rfl
@[simp] theorem failInvalid_responses (s : State) : s.failInvalid.responses = s.responses := rfl

/-! ## `raiseFatal`: The fatal entry (R129). -/

@[simp] theorem raiseFatal_cfg (s : State) (c : FatalCode) : (s.raiseFatal c).cfg = s.cfg := rfl
@[simp] theorem raiseFatal_cmd (s : State) (c : FatalCode) : (s.raiseFatal c).cmd = s.cmd := rfl
@[simp] theorem raiseFatal_status (s : State) (c : FatalCode) :
    (s.raiseFatal c).status = withFatal (withErr s.status c.err) := rfl
@[simp] theorem raiseFatal_inLen (s : State) (c : FatalCode) : (s.raiseFatal c).inLen = s.inLen := rfl
@[simp] theorem raiseFatal_origLen (s : State) (c : FatalCode) : (s.raiseFatal c).origLen = s.origLen := rfl
@[simp] theorem raiseFatal_sector (s : State) (c : FatalCode) : (s.raiseFatal c).sector = s.sector := rfl
@[simp] theorem raiseFatal_outLen (s : State) (c : FatalCode) : (s.raiseFatal c).outLen = s.outLen := rfl
@[simp] theorem raiseFatal_hdr (s : State) (c : FatalCode) : (s.raiseFatal c).hdr = s.hdr := rfl
@[simp] theorem raiseFatal_consumed (s : State) (c : FatalCode) : (s.raiseFatal c).consumed = s.consumed := rfl
@[simp] theorem raiseFatal_produced (s : State) (c : FatalCode) : (s.raiseFatal c).produced = s.produced := rfl
@[simp] theorem raiseFatal_inBuf (s : State) (c : FatalCode) : (s.raiseFatal c).inBuf = s.inBuf := rfl
@[simp] theorem raiseFatal_outBuf (s : State) (c : FatalCode) : (s.raiseFatal c).outBuf = s.outBuf := rfl
@[simp] theorem raiseFatal_phys (s : State) (c : FatalCode) : (s.raiseFatal c).phys = s.phys := rfl
@[simp] theorem raiseFatal_decoder (s : State) (c : FatalCode) : (s.raiseFatal c).decoder = s.decoder := rfl
@[simp] theorem raiseFatal_devSectors (s : State) (c : FatalCode) : (s.raiseFatal c).devSectors = s.devSectors := rfl
@[simp] theorem raiseFatal_disk (s : State) (c : FatalCode) : (s.raiseFatal c).disk = s.disk := rfl
@[simp] theorem raiseFatal_rdCnt (s : State) (c : FatalCode) : (s.raiseFatal c).rdCnt = s.rdCnt := rfl
@[simp] theorem raiseFatal_wrCnt (s : State) (c : FatalCode) : (s.raiseFatal c).wrCnt = s.wrCnt := rfl
@[simp] theorem raiseFatal_program (s : State) (c : FatalCode) : (s.raiseFatal c).program = s.program := rfl
@[simp] theorem raiseFatal_responses (s : State) (c : FatalCode) : (s.raiseFatal c).responses = s.responses := rfl

/-! ## `resetEngine`: Reset (R41, R144). -/

@[simp] theorem resetEngine_cfg (s : State) : s.resetEngine.cfg = s.cfg := rfl
@[simp] theorem resetEngine_cmd (s : State) : s.resetEngine.cmd = 0 := rfl
@[simp] theorem resetEngine_status (s : State) : s.resetEngine.status = 0 := rfl
@[simp] theorem resetEngine_inLen (s : State) : s.resetEngine.inLen = 0 := rfl
@[simp] theorem resetEngine_origLen (s : State) : s.resetEngine.origLen = 0 := rfl
@[simp] theorem resetEngine_sector (s : State) : s.resetEngine.sector = 0 := rfl
@[simp] theorem resetEngine_outLen (s : State) : s.resetEngine.outLen = 0 := rfl
@[simp] theorem resetEngine_hdr (s : State) : s.resetEngine.hdr = 0 := rfl
@[simp] theorem resetEngine_consumed (s : State) : s.resetEngine.consumed = 0 := rfl
@[simp] theorem resetEngine_produced (s : State) : s.resetEngine.produced = 0 := rfl
@[simp] theorem resetEngine_inBuf (s : State) : s.resetEngine.inBuf = [] := rfl
@[simp] theorem resetEngine_outBuf (s : State) : s.resetEngine.outBuf = [] := rfl
@[simp] theorem resetEngine_phys (s : State) : s.resetEngine.phys = [] := rfl
@[simp] theorem resetEngine_decoder (s : State) : s.resetEngine.decoder = none := rfl
@[simp] theorem resetEngine_devSectors (s : State) : s.resetEngine.devSectors = s.devSectors := rfl
@[simp] theorem resetEngine_disk (s : State) : s.resetEngine.disk = s.disk := rfl
@[simp] theorem resetEngine_rdCnt (s : State) : s.resetEngine.rdCnt = s.rdCnt := rfl
@[simp] theorem resetEngine_wrCnt (s : State) : s.resetEngine.wrCnt = s.wrCnt := rfl
@[simp] theorem resetEngine_program (s : State) : s.resetEngine.program = s.program := rfl
@[simp] theorem resetEngine_responses (s : State) : s.resetEngine.responses = s.responses := rfl

/-! ## `respond`: What the Host observes. -/

@[simp] theorem respond_cfg (s : State) (r : Response) : (s.respond r).cfg = s.cfg := rfl
@[simp] theorem respond_cmd (s : State) (r : Response) : (s.respond r).cmd = s.cmd := rfl
@[simp] theorem respond_status (s : State) (r : Response) : (s.respond r).status = s.status := rfl
@[simp] theorem respond_inLen (s : State) (r : Response) : (s.respond r).inLen = s.inLen := rfl
@[simp] theorem respond_origLen (s : State) (r : Response) : (s.respond r).origLen = s.origLen := rfl
@[simp] theorem respond_sector (s : State) (r : Response) : (s.respond r).sector = s.sector := rfl
@[simp] theorem respond_outLen (s : State) (r : Response) : (s.respond r).outLen = s.outLen := rfl
@[simp] theorem respond_hdr (s : State) (r : Response) : (s.respond r).hdr = s.hdr := rfl
@[simp] theorem respond_consumed (s : State) (r : Response) : (s.respond r).consumed = s.consumed := rfl
@[simp] theorem respond_produced (s : State) (r : Response) : (s.respond r).produced = s.produced := rfl
@[simp] theorem respond_inBuf (s : State) (r : Response) : (s.respond r).inBuf = s.inBuf := rfl
@[simp] theorem respond_outBuf (s : State) (r : Response) : (s.respond r).outBuf = s.outBuf := rfl
@[simp] theorem respond_phys (s : State) (r : Response) : (s.respond r).phys = s.phys := rfl
@[simp] theorem respond_decoder (s : State) (r : Response) : (s.respond r).decoder = s.decoder := rfl
@[simp] theorem respond_devSectors (s : State) (r : Response) : (s.respond r).devSectors = s.devSectors := rfl
@[simp] theorem respond_disk (s : State) (r : Response) : (s.respond r).disk = s.disk := rfl
@[simp] theorem respond_rdCnt (s : State) (r : Response) : (s.respond r).rdCnt = s.rdCnt := rfl
@[simp] theorem respond_wrCnt (s : State) (r : Response) : (s.respond r).wrCnt = s.wrCnt := rfl
@[simp] theorem respond_program (s : State) (r : Response) : (s.respond r).program = s.program := rfl
@[simp] theorem respond_responses (s : State) (r : Response) : (s.respond r).responses = r :: s.responses := rfl

/-! ## `withProgram`: an action taken off the Host's program. -/

@[simp] theorem withProgram_cfg (s : State) (p : List HostAction) : (s.withProgram p).cfg = s.cfg := rfl
@[simp] theorem withProgram_cmd (s : State) (p : List HostAction) : (s.withProgram p).cmd = s.cmd := rfl
@[simp] theorem withProgram_status (s : State) (p : List HostAction) : (s.withProgram p).status = s.status := rfl
@[simp] theorem withProgram_inLen (s : State) (p : List HostAction) : (s.withProgram p).inLen = s.inLen := rfl
@[simp] theorem withProgram_origLen (s : State) (p : List HostAction) : (s.withProgram p).origLen = s.origLen := rfl
@[simp] theorem withProgram_sector (s : State) (p : List HostAction) : (s.withProgram p).sector = s.sector := rfl
@[simp] theorem withProgram_outLen (s : State) (p : List HostAction) : (s.withProgram p).outLen = s.outLen := rfl
@[simp] theorem withProgram_hdr (s : State) (p : List HostAction) : (s.withProgram p).hdr = s.hdr := rfl
@[simp] theorem withProgram_consumed (s : State) (p : List HostAction) : (s.withProgram p).consumed = s.consumed := rfl
@[simp] theorem withProgram_produced (s : State) (p : List HostAction) : (s.withProgram p).produced = s.produced := rfl
@[simp] theorem withProgram_inBuf (s : State) (p : List HostAction) : (s.withProgram p).inBuf = s.inBuf := rfl
@[simp] theorem withProgram_outBuf (s : State) (p : List HostAction) : (s.withProgram p).outBuf = s.outBuf := rfl
@[simp] theorem withProgram_phys (s : State) (p : List HostAction) : (s.withProgram p).phys = s.phys := rfl
@[simp] theorem withProgram_decoder (s : State) (p : List HostAction) : (s.withProgram p).decoder = s.decoder := rfl
@[simp] theorem withProgram_devSectors (s : State) (p : List HostAction) : (s.withProgram p).devSectors = s.devSectors := rfl
@[simp] theorem withProgram_disk (s : State) (p : List HostAction) : (s.withProgram p).disk = s.disk := rfl
@[simp] theorem withProgram_rdCnt (s : State) (p : List HostAction) : (s.withProgram p).rdCnt = s.rdCnt := rfl
@[simp] theorem withProgram_wrCnt (s : State) (p : List HostAction) : (s.withProgram p).wrCnt = s.wrCnt := rfl
@[simp] theorem withProgram_program (s : State) (p : List HostAction) : (s.withProgram p).program = p := rfl
@[simp] theorem withProgram_responses (s : State) (p : List HostAction) : (s.withProgram p).responses = s.responses := rfl

/-! ## `devRead`: DevRead (R50). -/

@[simp] theorem devRead_cfg (s : State) : s.devRead.cfg = s.cfg := rfl
@[simp] theorem devRead_cmd (s : State) : s.devRead.cmd = s.cmd := rfl
@[simp] theorem devRead_status (s : State) : s.devRead.status = s.status := rfl
@[simp] theorem devRead_inLen (s : State) : s.devRead.inLen = s.inLen := rfl
@[simp] theorem devRead_origLen (s : State) : s.devRead.origLen = s.origLen := rfl
@[simp] theorem devRead_sector (s : State) : s.devRead.sector = s.sector := rfl
@[simp] theorem devRead_outLen (s : State) : s.devRead.outLen = s.outLen := rfl
@[simp] theorem devRead_hdr (s : State) : s.devRead.hdr = s.hdr := rfl
@[simp] theorem devRead_consumed (s : State) : s.devRead.consumed = s.consumed := rfl
@[simp] theorem devRead_produced (s : State) : s.devRead.produced = s.produced := rfl
@[simp] theorem devRead_inBuf (s : State) : s.devRead.inBuf = s.inBuf := rfl
@[simp] theorem devRead_outBuf (s : State) : s.devRead.outBuf = s.outBuf := rfl
@[simp] theorem devRead_phys (s : State) : s.devRead.phys = s.phys := rfl
@[simp] theorem devRead_decoder (s : State) : s.devRead.decoder = s.decoder := rfl
@[simp] theorem devRead_devSectors (s : State) : s.devRead.devSectors = s.devSectors := rfl
@[simp] theorem devRead_disk (s : State) : s.devRead.disk = s.disk := rfl
@[simp] theorem devRead_rdCnt (s : State) : s.devRead.rdCnt = s.rdCnt + 1 := rfl
@[simp] theorem devRead_wrCnt (s : State) : s.devRead.wrCnt = s.wrCnt := rfl
@[simp] theorem devRead_program (s : State) : s.devRead.program = s.program := rfl
@[simp] theorem devRead_responses (s : State) : s.devRead.responses = s.responses := rfl

/-! ## `devWrite`: DevWrite (R50). -/

@[simp] theorem devWrite_cfg (s : State) (sec : Nat) (blk : List Byte) : (s.devWrite sec blk).cfg = s.cfg := rfl
@[simp] theorem devWrite_cmd (s : State) (sec : Nat) (blk : List Byte) : (s.devWrite sec blk).cmd = s.cmd := rfl
@[simp] theorem devWrite_status (s : State) (sec : Nat) (blk : List Byte) :
    (s.devWrite sec blk).status = s.status := rfl
@[simp] theorem devWrite_inLen (s : State) (sec : Nat) (blk : List Byte) : (s.devWrite sec blk).inLen = s.inLen := rfl
@[simp] theorem devWrite_origLen (s : State) (sec : Nat) (blk : List Byte) :
    (s.devWrite sec blk).origLen = s.origLen := rfl
@[simp] theorem devWrite_sector (s : State) (sec : Nat) (blk : List Byte) :
    (s.devWrite sec blk).sector = s.sector := rfl
@[simp] theorem devWrite_outLen (s : State) (sec : Nat) (blk : List Byte) :
    (s.devWrite sec blk).outLen = s.outLen := rfl
@[simp] theorem devWrite_hdr (s : State) (sec : Nat) (blk : List Byte) : (s.devWrite sec blk).hdr = s.hdr := rfl
@[simp] theorem devWrite_consumed (s : State) (sec : Nat) (blk : List Byte) :
    (s.devWrite sec blk).consumed = s.consumed := rfl
@[simp] theorem devWrite_produced (s : State) (sec : Nat) (blk : List Byte) :
    (s.devWrite sec blk).produced = s.produced := rfl
@[simp] theorem devWrite_inBuf (s : State) (sec : Nat) (blk : List Byte) : (s.devWrite sec blk).inBuf = s.inBuf := rfl
@[simp] theorem devWrite_outBuf (s : State) (sec : Nat) (blk : List Byte) :
    (s.devWrite sec blk).outBuf = s.outBuf := rfl
@[simp] theorem devWrite_phys (s : State) (sec : Nat) (blk : List Byte) : (s.devWrite sec blk).phys = s.phys := rfl
@[simp] theorem devWrite_decoder (s : State) (sec : Nat) (blk : List Byte) :
    (s.devWrite sec blk).decoder = s.decoder := rfl
@[simp] theorem devWrite_devSectors (s : State) (sec : Nat) (blk : List Byte) :
    (s.devWrite sec blk).devSectors = s.devSectors := rfl
@[simp] theorem devWrite_disk (s : State) (sec : Nat) (blk : List Byte) :
    (s.devWrite sec blk).disk = Memory.write storeBlank s.disk (s.blockBase sec) blk := rfl
@[simp] theorem devWrite_rdCnt (s : State) (sec : Nat) (blk : List Byte) : (s.devWrite sec blk).rdCnt = s.rdCnt := rfl
@[simp] theorem devWrite_wrCnt (s : State) (sec : Nat) (blk : List Byte) :
    (s.devWrite sec blk).wrCnt = s.wrCnt + 1 := rfl
@[simp] theorem devWrite_program (s : State) (sec : Nat) (blk : List Byte) :
    (s.devWrite sec blk).program = s.program := rfl
@[simp] theorem devWrite_responses (s : State) (sec : Nat) (blk : List Byte) :
    (s.devWrite sec blk).responses = s.responses := rfl

/-! ## `setPhys`: PHYS written (R35). -/

@[simp] theorem setPhys_cfg (s : State) (blk : List Byte) : (s.setPhys blk).cfg = s.cfg := rfl
@[simp] theorem setPhys_cmd (s : State) (blk : List Byte) : (s.setPhys blk).cmd = s.cmd := rfl
@[simp] theorem setPhys_status (s : State) (blk : List Byte) : (s.setPhys blk).status = s.status := rfl
@[simp] theorem setPhys_inLen (s : State) (blk : List Byte) : (s.setPhys blk).inLen = s.inLen := rfl
@[simp] theorem setPhys_origLen (s : State) (blk : List Byte) : (s.setPhys blk).origLen = s.origLen := rfl
@[simp] theorem setPhys_sector (s : State) (blk : List Byte) : (s.setPhys blk).sector = s.sector := rfl
@[simp] theorem setPhys_outLen (s : State) (blk : List Byte) : (s.setPhys blk).outLen = s.outLen := rfl
@[simp] theorem setPhys_hdr (s : State) (blk : List Byte) : (s.setPhys blk).hdr = s.hdr := rfl
@[simp] theorem setPhys_consumed (s : State) (blk : List Byte) : (s.setPhys blk).consumed = s.consumed := rfl
@[simp] theorem setPhys_produced (s : State) (blk : List Byte) : (s.setPhys blk).produced = s.produced := rfl
@[simp] theorem setPhys_inBuf (s : State) (blk : List Byte) : (s.setPhys blk).inBuf = s.inBuf := rfl
@[simp] theorem setPhys_outBuf (s : State) (blk : List Byte) : (s.setPhys blk).outBuf = s.outBuf := rfl
@[simp] theorem setPhys_phys (s : State) (blk : List Byte) : (s.setPhys blk).phys = bufferOf blk := rfl
@[simp] theorem setPhys_decoder (s : State) (blk : List Byte) : (s.setPhys blk).decoder = s.decoder := rfl
@[simp] theorem setPhys_devSectors (s : State) (blk : List Byte) : (s.setPhys blk).devSectors = s.devSectors := rfl
@[simp] theorem setPhys_disk (s : State) (blk : List Byte) : (s.setPhys blk).disk = s.disk := rfl
@[simp] theorem setPhys_rdCnt (s : State) (blk : List Byte) : (s.setPhys blk).rdCnt = s.rdCnt := rfl
@[simp] theorem setPhys_wrCnt (s : State) (blk : List Byte) : (s.setPhys blk).wrCnt = s.wrCnt := rfl
@[simp] theorem setPhys_program (s : State) (blk : List Byte) : (s.setPhys blk).program = s.program := rfl
@[simp] theorem setPhys_responses (s : State) (blk : List Byte) : (s.setPhys blk).responses = s.responses := rfl

/-! ## `openDecoder`: A scan opened (R93). -/

@[simp] theorem openDecoder_cfg (s : State) (d : Decoder) : (s.openDecoder d).cfg = s.cfg := rfl
@[simp] theorem openDecoder_cmd (s : State) (d : Decoder) : (s.openDecoder d).cmd = s.cmd := rfl
@[simp] theorem openDecoder_status (s : State) (d : Decoder) : (s.openDecoder d).status = s.status := rfl
@[simp] theorem openDecoder_inLen (s : State) (d : Decoder) : (s.openDecoder d).inLen = s.inLen := rfl
@[simp] theorem openDecoder_origLen (s : State) (d : Decoder) : (s.openDecoder d).origLen = s.origLen := rfl
@[simp] theorem openDecoder_sector (s : State) (d : Decoder) : (s.openDecoder d).sector = s.sector := rfl
@[simp] theorem openDecoder_outLen (s : State) (d : Decoder) : (s.openDecoder d).outLen = s.outLen := rfl
@[simp] theorem openDecoder_hdr (s : State) (d : Decoder) : (s.openDecoder d).hdr = s.hdr := rfl
@[simp] theorem openDecoder_consumed (s : State) (d : Decoder) : (s.openDecoder d).consumed = s.consumed := rfl
@[simp] theorem openDecoder_produced (s : State) (d : Decoder) : (s.openDecoder d).produced = s.produced := rfl
@[simp] theorem openDecoder_inBuf (s : State) (d : Decoder) : (s.openDecoder d).inBuf = s.inBuf := rfl
@[simp] theorem openDecoder_outBuf (s : State) (d : Decoder) : (s.openDecoder d).outBuf = s.outBuf := rfl
@[simp] theorem openDecoder_phys (s : State) (d : Decoder) : (s.openDecoder d).phys = s.phys := rfl
@[simp] theorem openDecoder_decoder (s : State) (d : Decoder) : (s.openDecoder d).decoder = some d := rfl
@[simp] theorem openDecoder_devSectors (s : State) (d : Decoder) : (s.openDecoder d).devSectors = s.devSectors := rfl
@[simp] theorem openDecoder_disk (s : State) (d : Decoder) : (s.openDecoder d).disk = s.disk := rfl
@[simp] theorem openDecoder_rdCnt (s : State) (d : Decoder) : (s.openDecoder d).rdCnt = s.rdCnt := rfl
@[simp] theorem openDecoder_wrCnt (s : State) (d : Decoder) : (s.openDecoder d).wrCnt = s.wrCnt := rfl
@[simp] theorem openDecoder_program (s : State) (d : Decoder) : (s.openDecoder d).program = s.program := rfl
@[simp] theorem openDecoder_responses (s : State) (d : Decoder) : (s.openDecoder d).responses = s.responses := rfl

/-! ## `runDecoder`: A scan run to its end (R93). -/

@[simp] theorem runDecoder_cfg (s : State) : s.runDecoder.cfg = s.cfg := rfl
@[simp] theorem runDecoder_cmd (s : State) : s.runDecoder.cmd = s.cmd := rfl
@[simp] theorem runDecoder_status (s : State) : s.runDecoder.status = s.status := rfl
@[simp] theorem runDecoder_inLen (s : State) : s.runDecoder.inLen = s.inLen := rfl
@[simp] theorem runDecoder_origLen (s : State) : s.runDecoder.origLen = s.origLen := rfl
@[simp] theorem runDecoder_sector (s : State) : s.runDecoder.sector = s.sector := rfl
@[simp] theorem runDecoder_outLen (s : State) : s.runDecoder.outLen = s.outLen := rfl
@[simp] theorem runDecoder_hdr (s : State) : s.runDecoder.hdr = s.hdr := rfl
@[simp] theorem runDecoder_consumed (s : State) : s.runDecoder.consumed = s.consumed := rfl
@[simp] theorem runDecoder_produced (s : State) : s.runDecoder.produced = s.produced := rfl
@[simp] theorem runDecoder_inBuf (s : State) : s.runDecoder.inBuf = s.inBuf := rfl
@[simp] theorem runDecoder_outBuf (s : State) : s.runDecoder.outBuf = s.outBuf := rfl
@[simp] theorem runDecoder_phys (s : State) : s.runDecoder.phys = s.phys := rfl
@[simp] theorem runDecoder_decoder (s : State) : s.runDecoder.decoder = s.decoder.map Decoder.scan := rfl
@[simp] theorem runDecoder_devSectors (s : State) : s.runDecoder.devSectors = s.devSectors := rfl
@[simp] theorem runDecoder_disk (s : State) : s.runDecoder.disk = s.disk := rfl
@[simp] theorem runDecoder_rdCnt (s : State) : s.runDecoder.rdCnt = s.rdCnt := rfl
@[simp] theorem runDecoder_wrCnt (s : State) : s.runDecoder.wrCnt = s.wrCnt := rfl
@[simp] theorem runDecoder_program (s : State) : s.runDecoder.program = s.program := rfl
@[simp] theorem runDecoder_responses (s : State) : s.runDecoder.responses = s.responses := rfl

/-! ## `commitCompress`: The end of a COMPRESS (R88). -/

@[simp] theorem commitCompress_cfg (s : State) (z : List Byte) : (s.commitCompress z).cfg = s.cfg := rfl
@[simp] theorem commitCompress_cmd (s : State) (z : List Byte) : (s.commitCompress z).cmd = s.cmd := rfl
@[simp] theorem commitCompress_status (s : State) (z : List Byte) :
    (s.commitCompress z).status = withErr s.status .none := rfl
@[simp] theorem commitCompress_inLen (s : State) (z : List Byte) : (s.commitCompress z).inLen = s.inLen := rfl
@[simp] theorem commitCompress_origLen (s : State) (z : List Byte) : (s.commitCompress z).origLen = s.origLen := rfl
@[simp] theorem commitCompress_sector (s : State) (z : List Byte) : (s.commitCompress z).sector = s.sector := rfl
@[simp] theorem commitCompress_outLen (s : State) (z : List Byte) :
    (s.commitCompress z).outLen = BitVec.ofNat 32 z.length := rfl
@[simp] theorem commitCompress_hdr (s : State) (z : List Byte) : (s.commitCompress z).hdr = s.hdr := rfl
@[simp] theorem commitCompress_consumed (s : State) (z : List Byte) : (s.commitCompress z).consumed = s.inLen := rfl
@[simp] theorem commitCompress_produced (s : State) (z : List Byte) :
    (s.commitCompress z).produced = BitVec.ofNat 32 z.length := rfl
@[simp] theorem commitCompress_inBuf (s : State) (z : List Byte) : (s.commitCompress z).inBuf = s.inBuf := rfl
@[simp] theorem commitCompress_outBuf (s : State) (z : List Byte) :
    (s.commitCompress z).outBuf = bufferOf (zeroPadded s.cfg.outCap z) := rfl
@[simp] theorem commitCompress_phys (s : State) (z : List Byte) : (s.commitCompress z).phys = s.phys := rfl
@[simp] theorem commitCompress_decoder (s : State) (z : List Byte) : (s.commitCompress z).decoder = s.decoder := rfl
@[simp] theorem commitCompress_devSectors (s : State) (z : List Byte) :
    (s.commitCompress z).devSectors = s.devSectors := rfl
@[simp] theorem commitCompress_disk (s : State) (z : List Byte) : (s.commitCompress z).disk = s.disk := rfl
@[simp] theorem commitCompress_rdCnt (s : State) (z : List Byte) : (s.commitCompress z).rdCnt = s.rdCnt := rfl
@[simp] theorem commitCompress_wrCnt (s : State) (z : List Byte) : (s.commitCompress z).wrCnt = s.wrCnt := rfl
@[simp] theorem commitCompress_program (s : State) (z : List Byte) : (s.commitCompress z).program = s.program := rfl
@[simp] theorem commitCompress_responses (s : State) (z : List Byte) :
    (s.commitCompress z).responses = s.responses := rfl

/-! ## `commitDecompress`: The end of a DECOMPRESS (R96). -/

@[simp] theorem commitDecompress_cfg (s : State) (want : Nat) (r : Decoded) :
    (s.commitDecompress want r).cfg = s.cfg := rfl
@[simp] theorem commitDecompress_cmd (s : State) (want : Nat) (r : Decoded) :
    (s.commitDecompress want r).cmd = s.cmd := rfl
@[simp] theorem commitDecompress_status (s : State) (want : Nat) (r : Decoded) :
    (s.commitDecompress want r).status = withErr s.status .none := rfl
@[simp] theorem commitDecompress_inLen (s : State) (want : Nat) (r : Decoded) :
    (s.commitDecompress want r).inLen = s.inLen := rfl
@[simp] theorem commitDecompress_origLen (s : State) (want : Nat) (r : Decoded) :
    (s.commitDecompress want r).origLen = s.origLen := rfl
@[simp] theorem commitDecompress_sector (s : State) (want : Nat) (r : Decoded) :
    (s.commitDecompress want r).sector = s.sector := rfl
@[simp] theorem commitDecompress_outLen (s : State) (want : Nat) (r : Decoded) :
    (s.commitDecompress want r).outLen = BitVec.ofNat 32 want := rfl
@[simp] theorem commitDecompress_hdr (s : State) (want : Nat) (r : Decoded) :
    (s.commitDecompress want r).hdr = s.hdr := rfl
@[simp] theorem commitDecompress_consumed (s : State) (want : Nat) (r : Decoded) :
    (s.commitDecompress want r).consumed = BitVec.ofNat 32 r.cons := rfl
@[simp] theorem commitDecompress_produced (s : State) (want : Nat) (r : Decoded) :
    (s.commitDecompress want r).produced = BitVec.ofNat 32 r.prod := rfl
@[simp] theorem commitDecompress_inBuf (s : State) (want : Nat) (r : Decoded) :
    (s.commitDecompress want r).inBuf = s.inBuf := rfl
@[simp] theorem commitDecompress_outBuf (s : State) (want : Nat) (r : Decoded) :
    (s.commitDecompress want r).outBuf = bufferOf (zeroPadded s.cfg.outCap r.data) := rfl
@[simp] theorem commitDecompress_phys (s : State) (want : Nat) (r : Decoded) :
    (s.commitDecompress want r).phys = s.phys := rfl
@[simp] theorem commitDecompress_decoder (s : State) (want : Nat) (r : Decoded) :
    (s.commitDecompress want r).decoder = s.decoder := rfl
@[simp] theorem commitDecompress_devSectors (s : State) (want : Nat) (r : Decoded) :
    (s.commitDecompress want r).devSectors = s.devSectors := rfl
@[simp] theorem commitDecompress_disk (s : State) (want : Nat) (r : Decoded) :
    (s.commitDecompress want r).disk = s.disk := rfl
@[simp] theorem commitDecompress_rdCnt (s : State) (want : Nat) (r : Decoded) :
    (s.commitDecompress want r).rdCnt = s.rdCnt := rfl
@[simp] theorem commitDecompress_wrCnt (s : State) (want : Nat) (r : Decoded) :
    (s.commitDecompress want r).wrCnt = s.wrCnt := rfl
@[simp] theorem commitDecompress_program (s : State) (want : Nat) (r : Decoded) :
    (s.commitDecompress want r).program = s.program := rfl
@[simp] theorem commitDecompress_responses (s : State) (want : Nat) (r : Decoded) :
    (s.commitDecompress want r).responses = s.responses := rfl

/-! ## `commitWrite`: The end of a BLOCK_WRITE (R111). -/

@[simp] theorem commitWrite_cfg (s : State) (sel : Selection) : (s.commitWrite sel).cfg = s.cfg := rfl
@[simp] theorem commitWrite_cmd (s : State) (sel : Selection) : (s.commitWrite sel).cmd = s.cmd := rfl
@[simp] theorem commitWrite_status (s : State) (sel : Selection) :
    (s.commitWrite sel).status = withErr (withMode s.status sel.mode) .none := rfl
@[simp] theorem commitWrite_inLen (s : State) (sel : Selection) : (s.commitWrite sel).inLen = s.inLen := rfl
@[simp] theorem commitWrite_origLen (s : State) (sel : Selection) : (s.commitWrite sel).origLen = s.origLen := rfl
@[simp] theorem commitWrite_sector (s : State) (sel : Selection) : (s.commitWrite sel).sector = s.sector := rfl
@[simp] theorem commitWrite_outLen (s : State) (sel : Selection) : (s.commitWrite sel).outLen = s.outLen := rfl
@[simp] theorem commitWrite_hdr (s : State) (sel : Selection) :
    (s.commitWrite sel).hdr = BitVec.ofNat 32 sel.size := rfl
@[simp] theorem commitWrite_consumed (s : State) (sel : Selection) : (s.commitWrite sel).consumed = s.consumed := rfl
@[simp] theorem commitWrite_produced (s : State) (sel : Selection) : (s.commitWrite sel).produced = s.produced := rfl
@[simp] theorem commitWrite_inBuf (s : State) (sel : Selection) : (s.commitWrite sel).inBuf = s.inBuf := rfl
@[simp] theorem commitWrite_outBuf (s : State) (sel : Selection) : (s.commitWrite sel).outBuf = s.outBuf := rfl
@[simp] theorem commitWrite_phys (s : State) (sel : Selection) : (s.commitWrite sel).phys = s.phys := rfl
@[simp] theorem commitWrite_decoder (s : State) (sel : Selection) : (s.commitWrite sel).decoder = s.decoder := rfl
@[simp] theorem commitWrite_devSectors (s : State) (sel : Selection) :
    (s.commitWrite sel).devSectors = s.devSectors := rfl
@[simp] theorem commitWrite_disk (s : State) (sel : Selection) : (s.commitWrite sel).disk = s.disk := rfl
@[simp] theorem commitWrite_rdCnt (s : State) (sel : Selection) : (s.commitWrite sel).rdCnt = s.rdCnt := rfl
@[simp] theorem commitWrite_wrCnt (s : State) (sel : Selection) : (s.commitWrite sel).wrCnt = s.wrCnt := rfl
@[simp] theorem commitWrite_program (s : State) (sel : Selection) : (s.commitWrite sel).program = s.program := rfl
@[simp] theorem commitWrite_responses (s : State) (sel : Selection) :
    (s.commitWrite sel).responses = s.responses := rfl

/-! ## `latchBlock`: The read of a block (R112). -/

@[simp] theorem latchBlock_cfg (s : State) (p : List Byte) : (s.latchBlock p).cfg = s.cfg := rfl
@[simp] theorem latchBlock_cmd (s : State) (p : List Byte) : (s.latchBlock p).cmd = s.cmd := rfl
@[simp] theorem latchBlock_status (s : State) (p : List Byte) : (s.latchBlock p).status = s.status := rfl
@[simp] theorem latchBlock_inLen (s : State) (p : List Byte) : (s.latchBlock p).inLen = s.inLen := rfl
@[simp] theorem latchBlock_origLen (s : State) (p : List Byte) : (s.latchBlock p).origLen = s.origLen := rfl
@[simp] theorem latchBlock_sector (s : State) (p : List Byte) : (s.latchBlock p).sector = s.sector := rfl
@[simp] theorem latchBlock_outLen (s : State) (p : List Byte) : (s.latchBlock p).outLen = s.outLen := rfl
@[simp] theorem latchBlock_hdr (s : State) (p : List Byte) : (s.latchBlock p).hdr = sizeField p := rfl
@[simp] theorem latchBlock_consumed (s : State) (p : List Byte) : (s.latchBlock p).consumed = s.consumed := rfl
@[simp] theorem latchBlock_produced (s : State) (p : List Byte) : (s.latchBlock p).produced = s.produced := rfl
@[simp] theorem latchBlock_inBuf (s : State) (p : List Byte) : (s.latchBlock p).inBuf = s.inBuf := rfl
@[simp] theorem latchBlock_outBuf (s : State) (p : List Byte) : (s.latchBlock p).outBuf = s.outBuf := rfl
@[simp] theorem latchBlock_phys (s : State) (p : List Byte) : (s.latchBlock p).phys = bufferOf p := rfl
@[simp] theorem latchBlock_decoder (s : State) (p : List Byte) : (s.latchBlock p).decoder = s.decoder := rfl
@[simp] theorem latchBlock_devSectors (s : State) (p : List Byte) : (s.latchBlock p).devSectors = s.devSectors := rfl
@[simp] theorem latchBlock_disk (s : State) (p : List Byte) : (s.latchBlock p).disk = s.disk := rfl
@[simp] theorem latchBlock_rdCnt (s : State) (p : List Byte) : (s.latchBlock p).rdCnt = s.rdCnt + 1 := rfl
@[simp] theorem latchBlock_wrCnt (s : State) (p : List Byte) : (s.latchBlock p).wrCnt = s.wrCnt := rfl
@[simp] theorem latchBlock_program (s : State) (p : List Byte) : (s.latchBlock p).program = s.program := rfl
@[simp] theorem latchBlock_responses (s : State) (p : List Byte) : (s.latchBlock p).responses = s.responses := rfl

/-! ## `acceptCommand`: A CMD write taken (R21). -/

@[simp] theorem acceptCommand_cfg (s : State) (w : Word) : (s.acceptCommand w).cfg = s.cfg := rfl
@[simp] theorem acceptCommand_cmd (s : State) (w : Word) : (s.acceptCommand w).cmd = w := rfl
@[simp] theorem acceptCommand_status (s : State) (w : Word) : (s.acceptCommand w).status = s.status := rfl
@[simp] theorem acceptCommand_inLen (s : State) (w : Word) : (s.acceptCommand w).inLen = s.inLen := rfl
@[simp] theorem acceptCommand_origLen (s : State) (w : Word) : (s.acceptCommand w).origLen = s.origLen := rfl
@[simp] theorem acceptCommand_sector (s : State) (w : Word) : (s.acceptCommand w).sector = s.sector := rfl
@[simp] theorem acceptCommand_outLen (s : State) (w : Word) : (s.acceptCommand w).outLen = s.outLen := rfl
@[simp] theorem acceptCommand_hdr (s : State) (w : Word) : (s.acceptCommand w).hdr = s.hdr := rfl
@[simp] theorem acceptCommand_consumed (s : State) (w : Word) : (s.acceptCommand w).consumed = s.consumed := rfl
@[simp] theorem acceptCommand_produced (s : State) (w : Word) : (s.acceptCommand w).produced = s.produced := rfl
@[simp] theorem acceptCommand_inBuf (s : State) (w : Word) : (s.acceptCommand w).inBuf = s.inBuf := rfl
@[simp] theorem acceptCommand_outBuf (s : State) (w : Word) : (s.acceptCommand w).outBuf = s.outBuf := rfl
@[simp] theorem acceptCommand_phys (s : State) (w : Word) : (s.acceptCommand w).phys = s.phys := rfl
@[simp] theorem acceptCommand_decoder (s : State) (w : Word) : (s.acceptCommand w).decoder = s.decoder := rfl
@[simp] theorem acceptCommand_devSectors (s : State) (w : Word) : (s.acceptCommand w).devSectors = s.devSectors := rfl
@[simp] theorem acceptCommand_disk (s : State) (w : Word) : (s.acceptCommand w).disk = s.disk := rfl
@[simp] theorem acceptCommand_rdCnt (s : State) (w : Word) : (s.acceptCommand w).rdCnt = s.rdCnt := rfl
@[simp] theorem acceptCommand_wrCnt (s : State) (w : Word) : (s.acceptCommand w).wrCnt = s.wrCnt := rfl
@[simp] theorem acceptCommand_program (s : State) (w : Word) : (s.acceptCommand w).program = s.program := rfl
@[simp] theorem acceptCommand_responses (s : State) (w : Word) :
    (s.acceptCommand w).responses = .written :: s.responses := rfl

/-! ## `commitRead`: the end of a BLOCK_READ (R112). -/

@[simp] theorem commitRead_ok_cfg (s : State) (m : BlockMode) (b : List Byte) (cons prod : Nat) :
    (s.commitRead (.ok m b cons prod)).cfg = s.cfg := rfl
@[simp] theorem commitRead_ok_cmd (s : State) (m : BlockMode) (b : List Byte) (cons prod : Nat) :
    (s.commitRead (.ok m b cons prod)).cmd = s.cmd := rfl
@[simp] theorem commitRead_ok_status (s : State) (m : BlockMode) (b : List Byte) (cons prod : Nat) :
    (s.commitRead (.ok m b cons prod)).status = withErr (withMode s.status m) .none := rfl
@[simp] theorem commitRead_ok_inLen (s : State) (m : BlockMode) (b : List Byte) (cons prod : Nat) :
    (s.commitRead (.ok m b cons prod)).inLen = s.inLen := rfl
@[simp] theorem commitRead_ok_origLen (s : State) (m : BlockMode) (b : List Byte) (cons prod : Nat) :
    (s.commitRead (.ok m b cons prod)).origLen = s.origLen := rfl
@[simp] theorem commitRead_ok_sector (s : State) (m : BlockMode) (b : List Byte) (cons prod : Nat) :
    (s.commitRead (.ok m b cons prod)).sector = s.sector := rfl
@[simp] theorem commitRead_ok_outLen (s : State) (m : BlockMode) (b : List Byte) (cons prod : Nat) :
    (s.commitRead (.ok m b cons prod)).outLen = BitVec.ofNat 32 s.cfg.sectorSize := rfl
@[simp] theorem commitRead_ok_hdr (s : State) (m : BlockMode) (b : List Byte) (cons prod : Nat) :
    (s.commitRead (.ok m b cons prod)).hdr = s.hdr := rfl
@[simp] theorem commitRead_ok_consumed (s : State) (m : BlockMode) (b : List Byte) (cons prod : Nat) :
    (s.commitRead (.ok m b cons prod)).consumed = BitVec.ofNat 32 cons := rfl
@[simp] theorem commitRead_ok_produced (s : State) (m : BlockMode) (b : List Byte) (cons prod : Nat) :
    (s.commitRead (.ok m b cons prod)).produced = BitVec.ofNat 32 prod := rfl
@[simp] theorem commitRead_ok_inBuf (s : State) (m : BlockMode) (b : List Byte) (cons prod : Nat) :
    (s.commitRead (.ok m b cons prod)).inBuf = s.inBuf := rfl
@[simp] theorem commitRead_ok_outBuf (s : State) (m : BlockMode) (b : List Byte) (cons prod : Nat) :
    (s.commitRead (.ok m b cons prod)).outBuf = bufferOf (zeroPadded s.cfg.outCap b) := rfl
@[simp] theorem commitRead_ok_phys (s : State) (m : BlockMode) (b : List Byte) (cons prod : Nat) :
    (s.commitRead (.ok m b cons prod)).phys = s.phys := rfl
@[simp] theorem commitRead_ok_decoder (s : State) (m : BlockMode) (b : List Byte) (cons prod : Nat) :
    (s.commitRead (.ok m b cons prod)).decoder = s.decoder := rfl
@[simp] theorem commitRead_ok_devSectors (s : State) (m : BlockMode) (b : List Byte) (cons prod : Nat) :
    (s.commitRead (.ok m b cons prod)).devSectors = s.devSectors := rfl
@[simp] theorem commitRead_ok_disk (s : State) (m : BlockMode) (b : List Byte) (cons prod : Nat) :
    (s.commitRead (.ok m b cons prod)).disk = s.disk := rfl
@[simp] theorem commitRead_ok_rdCnt (s : State) (m : BlockMode) (b : List Byte) (cons prod : Nat) :
    (s.commitRead (.ok m b cons prod)).rdCnt = s.rdCnt := rfl
@[simp] theorem commitRead_ok_wrCnt (s : State) (m : BlockMode) (b : List Byte) (cons prod : Nat) :
    (s.commitRead (.ok m b cons prod)).wrCnt = s.wrCnt := rfl
@[simp] theorem commitRead_ok_program (s : State) (m : BlockMode) (b : List Byte) (cons prod : Nat) :
    (s.commitRead (.ok m b cons prod)).program = s.program := rfl
@[simp] theorem commitRead_ok_responses (s : State) (m : BlockMode) (b : List Byte) (cons prod : Nat) :
    (s.commitRead (.ok m b cons prod)).responses = s.responses := rfl

@[simp] theorem commitRead_corrupt (s : State) : s.commitRead .corrupt = s.raiseFatal .corrupt := rfl

/-! ## `closeDecoder`: the end of a scan (R36). -/

theorem closeDecoder_none {s : State} (h : s.decoder = none) : s.closeDecoder = s := by
  simp only [closeDecoder, h]

theorem closeDecoder_decompress {s : State} {d : Decoder} (h : s.decoder = some d) (ho : d.owner = .decompress) :
    s.closeDecoder = { s with decoder := none }.commitDecompress d.want d.result := by
  simp only [closeDecoder, h, ho]

theorem closeDecoder_blockRead {s : State} {d : Decoder} (h : s.decoder = some d) (ho : d.owner = .blockRead) :
    s.closeDecoder = { s with decoder := none }.commitRead (unpackDecoded s.cfg s.hdr.toNat d.result) := by
  simp only [closeDecoder, h, ho]

end Sys2Proof.Machine.State
end

