-- ==== Sys2Proof/Laws/Exec.lean ====
section
/-! SUPPORT. What each meaning can answer, said once: the gate (60_exceptions.md R130), the token step (40_codec.md R92),
the end of a scan (10_state.md R36), and for each command the list of its outcomes (R40). -/

namespace Sys2Proof.Machine

namespace State

/-! ## The gate -/

theorem whenLive_of_fatal {s : State} (h : s.fatal = true) (k : State → Host.Outcome State Fault Refusal) :
    s.whenLive k = .next s := by simp [whenLive, h]

theorem whenLive_of_live {s : State} (h : s.fatal = false) (k : State → Host.Outcome State Fault Refusal) :
    s.whenLive k = k s := by simp [whenLive, h]

/-! ## The token step -/

theorem tokenStep_of_at {s : State} {d : Decoder} {i : Instr} (hd : s.decoder = some d) (hr : d.ready = true)
    (ht : d.token = some i) (f : Decoder → Decoder) :
    s.tokenStep i f = .next { s with decoder := some (f d) } := by simp [tokenStep, hd, hr, ht]

/-- A token's step answers a next state only where the decoder stands at the token, and changes nothing but it. -/
theorem tokenStep_next {s t : State} {i : Instr} {f : Decoder → Decoder} (h : s.tokenStep i f = .next t) :
    ∃ d, s.decoder = some d ∧ d.ready = true ∧ d.token = some i ∧ t = { s with decoder := some (f d) } := by
  unfold tokenStep at h
  split at h
  · rename_i d hd
    split at h
    · rename_i hc
      obtain ⟨h1, h2⟩ := Bool.and_eq_true_iff.1 hc
      exact ⟨d, hd, h1, by simpa using h2, by cases h; rfl⟩
    · cases h
  · cases h

end State

/-- A token runs as the step of its kind. -/
theorem exec_of_token {i : Instr} (hi : i.format = .rleToken) (s : State) :
    exec i s = s.tokenStep i fun d => d.take i := by
  cases i <;> simp [Instr.format] at hi <;> rfl

theorem Decoder.token_eq_some_iff {d : Decoder} {i : Instr} :
    d.token = some i ↔ ∃ rest, decodeToken d.rest = .ok (i, rest) := by
  unfold Decoder.token
  cases h : decodeToken d.rest with
  | error e => simp
  | ok p => obtain ⟨j, r⟩ := p; simp

/-- What stands in a stream is a token. -/
theorem Decoder.format_of_token {d : Decoder} {i : Instr} (h : d.token = some i) : i.format = .rleToken := by
  have hr : d.rest ≠ [] := by
    intro e; rw [Decoder.token, e, decodeToken_nil] at h; cases h
  rcases Decoder.step_cases hr with ⟨_, _, _, _, t, _⟩ | ⟨_, _, _, t, _⟩ | ⟨_, _, _, _, t, _⟩ <;>
    (rw [h] at t; cases t; rfl)

/-- Running the token a scan stands at is the step of its decoder (R92). -/
theorem exec_token_at {s : State} {d : Decoder} {i : Instr} (hd : s.decoder = some d) (hr : d.ready = true)
    (ht : d.token = some i) : exec i s = .next { s with decoder := some d.step } := by
  rw [exec_of_token (Decoder.format_of_token ht), State.tokenStep_of_at hd hr ht, Decoder.step, ht]

namespace State

/-! ## The end of a scan -/

/-- Opening a scan, running it and closing it, for a DECOMPRESS. -/
theorem open_run_close_decompress {s : State} {d : Decoder} (ho : d.owner = .decompress) :
    (s.openDecoder d).runDecoder.closeDecoder =
      { s with decoder := none }.commitDecompress d.want d.scan.result := by
  rw [closeDecoder_decompress (d := d.scan) rfl (by rw [d.scan_owner, ho]), d.scan_want]
  rfl

/-- Opening a scan, running it and closing it, for a BLOCK_READ. -/
theorem open_run_close_blockRead {s : State} {d : Decoder} (ho : d.owner = .blockRead) :
    (s.openDecoder d).runDecoder.closeDecoder =
      { s with decoder := none }.commitRead (unpackDecoded s.cfg s.hdr.toNat d.scan.result) := by
  rw [closeDecoder_blockRead (d := d.scan) rfl (by rw [d.scan_owner, ho])]
  rfl

/-- A scan's end leaves no scan. -/
theorem closeDecoder_decoder (s : State) : s.closeDecoder.decoder = none := by
  cases hd : s.decoder with
  | none => rw [closeDecoder_none hd, hd]
  | some d =>
    cases ho : d.owner with
    | decompress => rw [closeDecoder_decompress hd ho]; rfl
    | blockRead => rw [closeDecoder_blockRead hd ho]; cases unpackDecoded s.cfg s.hdr.toNat d.result <;> rfl

end State

/-! ## The outcomes of each command (R40) -/

theorem execCompress_cases (s : State) :
    (s.fatal = true ∧ execCompress s = .next s) ∨
    (s.fatal = false ∧ s.compressInvalid = true ∧ execCompress s = .next s.failInvalid) ∨
    (s.fatal = false ∧ s.compressInvalid = false ∧
      execCompress s = .next (s.commitCompress (encodeBytes s.cfg.zeroLitMode s.codecInput))) := by
  cases hf : s.fatal
  · cases hi : s.compressInvalid <;> simp [execCompress, State.whenLive_of_live hf, hi]
  · exact .inl ⟨rfl, State.whenLive_of_fatal hf _⟩

theorem execDecompress_cases (s : State) :
    (s.fatal = true ∧ execDecompress s = .next s) ∨
    (s.fatal = false ∧ s.decompressInvalid = true ∧ execDecompress s = .next s.failInvalid) ∨
    (s.fatal = false ∧ s.decompressInvalid = false ∧
      execDecompress s = .next s.openDecompress.runDecoder.closeDecoder) := by
  cases hf : s.fatal
  · cases hi : s.decompressInvalid <;> simp [execDecompress, State.whenLive_of_live hf, hi]
  · exact .inl ⟨rfl, State.whenLive_of_fatal hf _⟩

/-- The block a BLOCK_WRITE assembles (R106, R107). -/
abbrev State.packed (s : State) : List Byte := pack s.cfg (selectWrite s.cfg s.logicalBlock) s.logicalBlock

theorem execBlockWrite_cases (s : State) :
    (s.fatal = true ∧ execBlockWrite s = .next s) ∨
    (s.fatal = false ∧ s.sectorOutOfRange = true ∧ execBlockWrite s = .next (s.raiseFatal .range)) ∨
    (s.fatal = false ∧ s.sectorOutOfRange = false ∧
      execBlockWrite s = .next (((s.setPhys s.packed).devWrite s.sectorIndex s.packed).commitWrite
        (selectWrite s.cfg s.logicalBlock))) := by
  cases hf : s.fatal
  · cases hi : s.sectorOutOfRange <;> simp [execBlockWrite, State.whenLive_of_live hf, hi]
  · exact .inl ⟨rfl, State.whenLive_of_fatal hf _⟩

/-- The block a BLOCK_READ reads (R50). -/
abbrev State.readBlock (s : State) : List Byte := s.block s.sectorIndex

theorem execBlockRead_cases (s : State) :
    (s.fatal = true ∧ execBlockRead s = .next s) ∨
    (s.fatal = false ∧ s.sectorOutOfRange = true ∧ execBlockRead s = .next (s.raiseFatal .range)) ∨
    (s.fatal = false ∧ s.sectorOutOfRange = false ∧ classify s.cfg (sizeField s.readBlock).toNat = .raw ∧
      execBlockRead s = .next ((s.latchBlock s.readBlock).commitRead (unpackRaw s.cfg s.readBlock))) ∨
    (s.fatal = false ∧ s.sectorOutOfRange = false ∧ classify s.cfg (sizeField s.readBlock).toNat = .invalid ∧
      execBlockRead s = .next ((s.latchBlock s.readBlock).raiseFatal .corrupt)) ∨
    (s.fatal = false ∧ s.sectorOutOfRange = false ∧ classify s.cfg (sizeField s.readBlock).toNat = .encoded ∧
      execBlockRead s = .next ((s.latchBlock s.readBlock).openDecoder
        (blockScan s.cfg s.readBlock (sizeField s.readBlock).toNat)).runDecoder.closeDecoder) := by
  cases hf : s.fatal
  · cases hi : s.sectorOutOfRange
    · cases hc : classify s.cfg (sizeField s.readBlock).toNat <;>
        simp [execBlockRead, State.whenLive_of_live hf, hi, hc]
    · simp [execBlockRead, State.whenLive_of_live hf, hi]
  · exact .inl ⟨rfl, State.whenLive_of_fatal hf _⟩

theorem execIllegalCmd_cases (w : Word) (s : State) :
    (s.fatal = true ∧ execIllegalCmd w s = .next s) ∨
    (s.fatal = false ∧ execIllegalCmd w s = .next (s.setErr .illegalCmd)) := by
  cases hf : s.fatal
  · exact .inr ⟨rfl, State.whenLive_of_live hf _⟩
  · exact .inl ⟨rfl, State.whenLive_of_fatal hf _⟩

end Sys2Proof.Machine
end

