-- ==== Sys2Proof/Laws/Memory.lean ====
section
/-! SUPPORT. The laws of a memory: what a byte reads as after a write, what a range reads as, and that every operation
keeps the canonical form and the bound on its addresses. -/

namespace Sys2Proof.Machine.Memory

variable {blank : Byte}

/-! ## Reading one byte -/

@[simp] theorem read_nil (a : Nat) : read blank [] a = blank := rfl

theorem read_cons (k : Nat) (b : Byte) (m : Memory) (a : Nat) :
    read blank ((k, b) :: m) a = if k = a then b else read blank m a := rfl

/-- An address that no entry has reads as blank. -/
theorem read_of_forall_ne {m : Memory} {a : Nat} (h : ∀ c ∈ m, c.1 ≠ a) : read blank m a = blank := by
  induction m with
  | nil => rfl
  | cons c m ih =>
    have h1 : c.1 ≠ a := h c (by simp)
    rw [read_cons, if_neg h1]
    exact ih fun c hc => h c (by simp [hc])

/-- Entries in front that have other addresses do not show. -/
theorem read_append_right {m m' : Memory} {a : Nat} (h : ∀ c ∈ m, c.1 ≠ a) :
    read blank (m ++ m') a = read blank m' a := by
  induction m with
  | nil => rfl
  | cons c m ih =>
    have h1 : c.1 ≠ a := h c (by simp)
    rw [List.cons_append, read_cons, if_neg h1]
    exact ih fun c hc => h c (by simp [hc])

/-- Entries behind that have other addresses do not show. -/
theorem read_append_left {m m' : Memory} {a : Nat} (h : ∀ c ∈ m', c.1 ≠ a) :
    read blank (m ++ m') a = read blank m a := by
  induction m with
  | nil => exact read_of_forall_ne h
  | cons c m ih =>
    obtain ⟨k, b⟩ := c
    rw [List.cons_append, read_cons, read_cons, ih]

/-- A filter on addresses keeps the bytes of the addresses it keeps. -/
theorem read_filter (p : Nat → Bool) (m : Memory) {a : Nat} (h : p a = true) :
    read blank (m.filter fun c => p c.1) a = read blank m a := by
  induction m with
  | nil => rfl
  | cons c m ih =>
    obtain ⟨k, b⟩ := c
    by_cases hk : p k = true
    · rw [List.filter_cons_of_pos (by exact hk), read_cons, read_cons, ih]
    · have : k ≠ a := fun e => hk (e ▸ h)
      rw [List.filter_cons_of_neg (by exact hk), read_cons, if_neg this, ih]

/-! ## The entries of a byte list -/

/-- Every entry of `cells` lies in its range and holds no blank. -/
theorem mem_cells {base : Nat} {bs : List Byte} {c : Host.Cell} (h : c ∈ cells blank base bs) :
    base ≤ c.1 ∧ c.1 < base + bs.length ∧ c.2 ≠ blank := by
  induction bs generalizing base with
  | nil => simp [cells] at h
  | cons b bs ih =>
    simp only [cells] at h
    split at h
    · obtain ⟨h1, h2, h3⟩ := ih h
      exact ⟨by omega, by simp only [List.length_cons]; omega, h3⟩
    · rcases List.mem_cons.1 h with rfl | h
      · exact ⟨le_refl _, by simp, by assumption⟩
      · obtain ⟨h1, h2, h3⟩ := ih h
        exact ⟨by omega, by simp only [List.length_cons]; omega, h3⟩

/-- A byte inside the range of `cells` reads as the byte stored there. -/
theorem read_cells (base : Nat) (bs : List Byte) {j : Nat} (h : j < bs.length) :
    read blank (cells blank base bs) (base + j) = bs[j] := by
  induction bs generalizing base j with
  | nil => simp at h
  | cons b bs ih =>
    cases j with
    | zero =>
      simp only [cells]
      split
      · rename_i hb
        rw [read_of_forall_ne fun c hc => by have := mem_cells hc; omega]
        simp [hb]
      · simp [read_cons]
    | succ j =>
      have hj : j < bs.length := by simpa using h
      have key := ih (base + 1) hj
      have e : base + (j + 1) = base + 1 + j := by omega
      simp only [cells, List.getElem_cons_succ]
      split
      · rw [e, key]
      · rw [read_cons, if_neg (by omega), e, key]

theorem cells_wf (base : Nat) (bs : List Byte) : wf blank (cells blank base bs) := by
  refine ⟨?_, fun c hc => (mem_cells hc).2.2⟩
  induction bs generalizing base with
  | nil => simp [cells]
  | cons b bs ih =>
    simp only [cells]
    split
    · exact ih _
    · exact List.pairwise_cons.2 ⟨fun c hc => by have := mem_cells hc; simp only; omega, ih _⟩

/-! ## Writing -/

theorem mem_write {m : Memory} {base : Nat} {bs : List Byte} {c : Host.Cell} (h : c ∈ write blank m base bs) :
    c ∈ m ∨ c ∈ cells blank base bs := by
  simp only [write, List.mem_append, List.mem_filter] at h
  tauto

/-- A byte inside the range written reads as the byte written. -/
theorem read_write_same (m : Memory) (base : Nat) (bs : List Byte) {j : Nat} (h : j < bs.length) :
    read blank (write blank m base bs) (base + j) = bs[j] := by
  unfold write
  rw [read_append_left, read_append_right, read_cells base bs h]
  · intro c hc; simp only [List.mem_filter, decide_eq_true_eq] at hc; omega
  · intro c hc; simp only [List.mem_filter, decide_eq_true_eq] at hc; omega

/-- A byte outside the range written reads as before. -/
theorem read_write_other (m : Memory) (base : Nat) (bs : List Byte) {a : Nat} (h : a < base ∨ base + bs.length ≤ a) :
    read blank (write blank m base bs) a = read blank m a := by
  unfold write
  rcases h with h | h
  · rw [List.append_assoc, read_append_left, read_filter (fun k => decide (k < base)) m (by simpa using h)]
    intro c hc
    rcases List.mem_append.1 hc with hc | hc
    · have := mem_cells hc; omega
    · simp only [List.mem_filter, decide_eq_true_eq] at hc; omega
  · rw [read_append_right,
      read_filter (fun k => decide (base + bs.length ≤ k)) m (by simpa using h)]
    intro c hc
    rcases List.mem_append.1 hc with hc | hc
    · simp only [List.mem_filter, decide_eq_true_eq] at hc; omega
    · have := mem_cells hc; omega

/-- A write keeps the canonical form. -/
theorem write_wf {m : Memory} (h : wf blank m) (base : Nat) (bs : List Byte) : wf blank (write blank m base bs) := by
  obtain ⟨hs, hb⟩ := h
  refine ⟨?_, fun c hc => ?_⟩
  · unfold write
    rw [List.pairwise_append, List.pairwise_append]
    refine ⟨⟨hs.filter _, (cells_wf base bs).1, fun a ha c hc => ?_⟩, hs.filter _, fun a ha c hc => ?_⟩
    · simp only [List.mem_filter, decide_eq_true_eq] at ha
      have := mem_cells hc; omega
    · simp only [List.mem_filter, decide_eq_true_eq] at hc
      rcases List.mem_append.1 ha with ha | ha
      · simp only [List.mem_filter, decide_eq_true_eq] at ha; omega
      · have := mem_cells ha; omega
  · rcases mem_write hc with hc | hc
    · exact hb c hc
    · exact (mem_cells hc).2.2

/-- A write below a bound keeps every address below it. -/
theorem write_below {m : Memory} {base bound : Nat} {bs : List Byte} (h : ∀ c ∈ m, c.1 < bound)
    (hb : base + bs.length ≤ bound) : ∀ c ∈ write blank m base bs, c.1 < bound := by
  intro c hc
  rcases mem_write hc with hc | hc
  · exact h c hc
  · have := mem_cells hc; omega

/-! ## Reading a range -/

@[simp] theorem length_unroll (m : Memory) (base n : Nat) : (unroll blank m base n).length = n := by
  induction n generalizing m base with
  | zero => cases m <;> rfl
  | succ n ih =>
    cases m with
    | nil => simp [unroll, ih]
    | cons c m => simp only [unroll]; split <;> simp [ih]

@[simp] theorem length_readRange (m : Memory) (base n : Nat) : (readRange blank m base n).length = n :=
  length_unroll _ _ _

/-- Walking a sorted memory that lists nothing below `base` gives its bytes from `base` on. -/
theorem unroll_eq_map {m : Memory} (hs : m.Pairwise (fun a b => a.1 < b.1)) {base : Nat}
    (hb : ∀ c ∈ m, base ≤ c.1) (n : Nat) :
    unroll blank m base n = (List.range n).map fun j => read blank m (base + j) := by
  induction n generalizing m base with
  | zero => cases m <;> rfl
  | succ n ih =>
    have shift : (List.range (n + 1)).map (fun j => read blank m (base + j)) =
        read blank m base :: (List.range n).map fun j => read blank m (base + 1 + j) := by
      rw [List.range_succ_eq_map, List.map_cons, List.map_map, Nat.add_zero]
      exact congrArg _ (List.map_congr_left fun j _ => congrArg (read blank m) (by omega))
    rw [shift]
    cases m with
    | nil =>
      rw [unroll, ih List.Pairwise.nil (base := base + 1) (by simp)]
      rfl
    | cons c m =>
      obtain ⟨k, b⟩ := c
      obtain ⟨hc, hs'⟩ := List.pairwise_cons.1 hs
      rw [unroll]
      split
      · rename_i hk
        rw [ih hs' (base := base + 1) (fun d hd => by have := hc d hd; omega), read_cons, if_pos hk]
        refine congrArg _ (List.map_congr_left fun j _ => ?_)
        rw [read_cons, if_neg (by omega)]
      · rename_i hk
        have hk' : base + 1 ≤ k := by have := hb (k, b) (by simp); omega
        have above : ∀ d ∈ (k, b) :: m, base + 1 ≤ d.1 := by
          intro d hd
          rcases List.mem_cons.1 hd with rfl | hd
          · exact hk'
          · have := hc d hd; omega
        rw [ih hs (base := base + 1) above, read_of_forall_ne (a := base) fun d hd => by have := above d hd; omega]

/-- In a canonical memory a range reads as its bytes one by one. -/
theorem readRange_eq_map {m : Memory} (h : wf blank m) (base n : Nat) :
    readRange blank m base n = (List.range n).map fun j => read blank m (base + j) := by
  rw [readRange, unroll_eq_map (h.1.filter _) (fun c hc => by simpa using (List.mem_filter.1 hc).2)]
  refine List.map_congr_left fun j _ => ?_
  exact read_filter (fun k => decide (base ≤ k)) m (by simp)

/-- In a canonical memory a range depends on its own bytes only. -/
theorem readRange_congr {m m' : Memory} (h : wf blank m) (h' : wf blank m') {base n : Nat}
    (e : ∀ j < n, read blank m (base + j) = read blank m' (base + j)) :
    readRange blank m base n = readRange blank m' base n := by
  rw [readRange_eq_map h, readRange_eq_map h']
  exact List.map_congr_left fun j hj => e j (List.mem_range.1 hj)

theorem unroll_nil (base n : Nat) : unroll blank [] base n = List.replicate n blank := by
  induction n generalizing base with
  | zero => rfl
  | succ n ih => simp [unroll, ih, List.replicate_succ]

theorem unroll_skip {m : Memory} {base : Nat} (h : ∀ c ∈ m, base < c.1) (n : Nat) :
    unroll blank m base (n + 1) = blank :: unroll blank m (base + 1) n := by
  cases m with
  | nil => rfl
  | cons c m => rw [unroll, if_neg (by have := h c (by simp); omega)]

/-- Walking the entries of `bs`, with later entries behind them, gives back `bs`. -/
theorem unroll_cells_append (base : Nat) (bs : List Byte) {m : Memory} (h : ∀ c ∈ m, base + bs.length ≤ c.1) :
    unroll blank (cells blank base bs ++ m) base bs.length = bs := by
  induction bs generalizing base with
  | nil => cases m <;> rfl
  | cons b bs ih =>
    have ih' := ih (base + 1) fun c hc => by have := h c hc; simp only [List.length_cons] at this; omega
    simp only [cells, List.length_cons]
    split
    · rename_i hb
      rw [unroll_skip, ih', hb]
      intro c hc
      rcases List.mem_append.1 hc with hc | hc
      · have := mem_cells hc; omega
      · have := h c hc; simp only [List.length_cons] at this; omega
    · rw [List.cons_append, unroll, if_pos rfl, ih']

/-- The range just written reads as the bytes written, in any memory. -/
theorem readRange_write_same (m : Memory) (base : Nat) (bs : List Byte) :
    readRange blank (write blank m base bs) base bs.length = bs := by
  have e : (write blank m base bs).filter (fun c => decide (base ≤ c.1)) =
      cells blank base bs ++ m.filter (fun c => decide (base + bs.length ≤ c.1)) := by
    unfold write
    rw [List.filter_append, List.filter_append, List.filter_filter, List.filter_filter]
    have h1 : m.filter (fun c => decide (base ≤ c.1) && decide (c.1 < base)) = [] := by
      rw [List.filter_eq_nil_iff]; intro c _; simp
    have h2 : (cells blank base bs).filter (fun c => decide (base ≤ c.1)) = cells blank base bs := by
      rw [List.filter_eq_self]; intro c hc; simpa using (mem_cells hc).1
    have h3 : m.filter (fun c => decide (base ≤ c.1) && decide (base + bs.length ≤ c.1)) =
        m.filter (fun c => decide (base + bs.length ≤ c.1)) := by
      refine List.filter_congr fun c _ => ?_
      simp only [Bool.and_eq_right_iff_imp, decide_eq_true_eq]; omega
    rw [h1, h2, h3, List.nil_append]
  rw [readRange, e]
  exact unroll_cells_append base bs fun c hc => by simpa using (List.mem_filter.1 hc).2

/-- A whole buffer reads back as the bytes it was filled with. -/
theorem readRange_bufferOf (bs : List Byte) : readRange bufferBlank (bufferOf bs) 0 bs.length = bs := by
  have h : (bufferOf bs).filter (fun c => decide (0 ≤ c.1)) = bufferOf bs ++ [] := by simp
  rw [readRange, h]
  exact unroll_cells_append 0 bs (by simp)

theorem bufferOf_wf (bs : List Byte) : wf bufferBlank (bufferOf bs) := cells_wf 0 bs

theorem bufferOf_below {bs : List Byte} {bound : Nat} (h : bs.length ≤ bound) : ∀ c ∈ bufferOf bs, c.1 < bound := by
  intro c hc
  have := mem_cells hc
  omega

/-- A byte of a whole buffer: the byte it was filled with, blank past its end. -/
theorem read_bufferOf (bs : List Byte) (a : Nat) : read bufferBlank (bufferOf bs) a = bs.getD a bufferBlank := by
  by_cases h : a < bs.length
  · have := read_cells (blank := bufferBlank) 0 bs h
    rw [Nat.zero_add] at this
    rw [bufferOf, this, List.getD_eq_getElem?_getD, List.getElem?_eq_getElem h, Option.getD_some]
  · rw [bufferOf, read_of_forall_ne fun c hc => by have := mem_cells hc; omega]
    rw [List.getD_eq_getElem?_getD, List.getElem?_eq_none (by omega), Option.getD_none]

end Sys2Proof.Machine.Memory
end

