-- ==== Sys2Proof/Laws/Adapter.lean ====
section
/-! SUPPORT. The argument checks as propositions (60_exceptions.md R127, R131), the lengths of a block's parts
(41_adapter.md R104), the inspector and the two muxes case by case (R105 to R109), and what a block command does once it
has passed its checks. -/

namespace Sys2Proof.Machine

/-! ## Argument checks -/

namespace State

theorem legalConfig_iff (s : State) : s.legalConfig = true ↔
    5 ≤ s.cfg.sectorSize ∧ s.cfg.sectorSize ≤ s.cfg.inCap ∧ s.cfg.inCap ≤ 2048 ∧ 1 ≤ s.cfg.cap ∧
      s.cfg.physSize ≤ 4096 ∧ s.devSectors ≤ 2 ^ 32 - 1 := by
  simp only [legalConfig, Config.wf, devSectorsLegal, Bool.and_eq_true, decide_eq_true_eq, and_assoc]

theorem compressInvalid_iff (s : State) : s.compressInvalid = true ↔
    s.inLen.toNat = 0 ∨ s.cfg.inCap < s.inLen.toNat := by
  rw [compressInvalid, Bool.or_eq_true, decide_eq_true_eq, decide_eq_true_eq]; rfl

theorem decompressInvalid_iff (s : State) : s.decompressInvalid = true ↔
    s.inLen.toNat = 0 ∨ s.cfg.inCap < s.inLen.toNat ∨ s.origLen.toNat = 0 ∨ s.cfg.outCap < s.origLen.toNat := by
  simp only [decompressInvalid, Bool.or_eq_true, decide_eq_true_eq, or_assoc]; rfl

theorem sectorOutOfRange_iff (s : State) : s.sectorOutOfRange = true ↔ s.devSectors ≤ s.sector.toNat := by
  rw [sectorOutOfRange, decide_eq_true_eq]; rfl

/-! ## Lengths -/

@[simp] theorem length_inBytes (s : State) (n : Nat) : (s.inBytes n).length = n := Memory.length_readRange _ _ _

@[simp] theorem length_outBytes (s : State) (n : Nat) : (s.outBytes n).length = n := Memory.length_readRange _ _ _

@[simp] theorem length_physBytes (s : State) (n : Nat) : (s.physBytes n).length = n := Memory.length_readRange _ _ _

@[simp] theorem length_block (s : State) (n : Nat) : (s.block n).length = s.cfg.physSize :=
  Memory.length_readRange _ _ _

@[simp] theorem length_logicalBlock (s : State) : s.logicalBlock.length = s.cfg.sectorSize := length_inBytes _ _

end State

/-- A whole buffer of a result and its zero fill reads back as them. -/
theorem readRange_bufferOf_zeroPadded {bs : List Byte} {n : Nat} (h : bs.length ≤ n) :
    Memory.readRange bufferBlank (bufferOf (zeroPadded n bs)) 0 n = bs ++ List.replicate (n - bs.length) 0x00 := by
  have hl : (zeroPadded n bs).length = n := by
    simp only [zeroPadded, List.length_append, List.length_replicate]; omega
  have := Memory.readRange_bufferOf (zeroPadded n bs)
  rwa [hl] at this

/-- A scan's result does not depend on the command it belongs to. -/
theorem result_scan_start (c : List Byte) (want : Nat) (o : Owner) :
    (Decoder.start c want o).scan.result = decodeBytes c want := by
  have (d : Decoder) : ∀ o, ({ d with owner := o } : Decoder).scan.result = d.scan.result := by
    induction d using Decoder.scan_induction with
    | done d h =>
      intro o
      rw [Decoder.scan_of_not_ready h, Decoder.scan_of_not_ready (d := { d with owner := o }) h]; rfl
    | next d h ih =>
      intro o
      rw [Decoder.scan_of_ready h, Decoder.scan_of_ready (d := { d with owner := o }) h, ← ih o]
      congr 2
      simp only [Decoder.step, show ({ d with owner := o } : Decoder).token = d.token from rfl]
      cases d.token with
      | none => rfl
      | some i => cases i <;> rfl
  exact this (Decoder.start c want .decompress) o

/-! ## The inspector -/

theorem classify_raw_iff {c : Config} {h : Nat} : classify c h = .raw ↔ h = 0 := by
  unfold classify; split
  · simp [*]
  · split <;> simp [*]

theorem classify_encoded_iff {c : Config} {h : Nat} : classify c h = .encoded ↔ 1 ≤ h ∧ h ≤ c.cap := by
  unfold classify; split
  · simp [*]
  · split <;> simp <;> omega

theorem classify_invalid_iff {c : Config} {h : Nat} : classify c h = .invalid ↔ h ≠ 0 ∧ c.cap < h := by
  unfold classify; split
  · simp [*]
  · split <;> simp <;> omega

theorem sizeField_bytesLE32_append (w : Word) (bs : List Byte) : sizeField (bytesLE32 w ++ bs) = w := by
  simp only [bytesLE32, sizeField, List.cons_append, List.nil_append, List.getD_cons_zero, List.getD_cons_succ]
  exact le32_bytesLE32 w

/-! ## The write side -/

theorem selectWrite_of_le {c : Config} {l : List Byte} (h : (encodeBytes c.zeroLitMode l).length ≤ c.cap) :
    selectWrite c l = ⟨.encoded, (encodeBytes c.zeroLitMode l).length, encodeBytes c.zeroLitMode l⟩ := by
  simp only [selectWrite]; rw [if_neg (by omega)]

theorem selectWrite_of_gt {c : Config} {l : List Byte} (h : c.cap < (encodeBytes c.zeroLitMode l).length) :
    selectWrite c l = ⟨.raw, 0, []⟩ := by
  simp only [selectWrite]; rw [if_pos h]

/-- A packed block is a whole physical block. -/
theorem length_pack_selectWrite {c : Config} {l : List Byte} (h5 : 5 ≤ c.sectorSize) (hl : l.length = c.sectorSize) :
    (pack c (selectWrite c l) l).length = c.physSize := by
  by_cases h : (encodeBytes c.zeroLitMode l).length ≤ c.cap
  · rw [selectWrite_of_le h]
    simp only [pack, List.length_append, length_bytesLE32, List.length_replicate]
    simp only [Config.cap, Config.hdrSize, Config.physSize] at *
    split <;> omega
  · rw [selectWrite_of_gt (by omega)]
    simp only [pack, Config.physSize]
    cases c.rawMode <;> simp [slice, hl, Config.hdrSize] <;> omega

/-- The size field of a packed block is the size selected. -/
theorem sizeField_pack_selectWrite (c : Config) (l : List Byte) :
    sizeField (pack c (selectWrite c l) l) = BitVec.ofNat 32 (selectWrite c l).size := by
  by_cases h : (encodeBytes c.zeroLitMode l).length ≤ c.cap
  · rw [selectWrite_of_le h]; simp only [pack]; rw [List.append_assoc, sizeField_bytesLE32_append]
  · rw [selectWrite_of_gt (by omega)]; simp only [pack]
    cases c.rawMode <;> simp only [sizeField_bytesLE32_append] <;> rfl

/-- A live BLOCK_WRITE with its sector in range. -/
theorem execBlockWrite_of_live {s : State} (hf : s.fatal = false) (hr : s.sector.toNat < s.devSectors) :
    execBlockWrite s = .next (((s.setPhys s.packed).devWrite s.sectorIndex s.packed).commitWrite
      (selectWrite s.cfg s.logicalBlock)) := by
  rcases execBlockWrite_cases s with ⟨h, _⟩ | ⟨_, h, _⟩ | ⟨_, _, e⟩
  · rw [hf] at h; cases h
  · have := s.sectorOutOfRange_iff.1 h; omega
  · exact e

/-! ## The read side -/

/-- The RAW case of `Unpack` never fails, and gives a logical block (R109). -/
theorem unpackRaw_ok (c : Config) (p : List Byte) : ∃ b n, unpackRaw c p = .ok .raw b 0 n ∧ n ≤ c.sectorSize ∧
    (5 ≤ c.sectorSize → p.length = c.physSize → b.length = c.sectorSize) := by
  unfold unpackRaw
  split
  · rename_i hm
    refine ⟨_, _, rfl, le_rfl, fun _ h => ?_⟩
    simp [slice, h, Config.physSize, hm, Config.hdrSize]
  · rename_i hm
    refine ⟨_, _, rfl, by omega, fun h5 h => ?_⟩
    simp [slice, h, Config.physSize, hm]; omega

/-- The ENCODED case of `Unpack`: CORRUPT or a logical block (R109). -/
theorem unpackDecoded_cases (c : Config) (h : Nat) (r : Decoded) :
    (unpackDecoded c h r = .corrupt ∧ c.strictDecode = true ∧ (r.prod < c.sectorSize ∨ r.cons < h)) ∨
    (unpackDecoded c h r = .ok .encoded (r.data ++ List.replicate (c.sectorSize - r.prod) 0x00) r.cons r.prod ∧
      ¬(c.strictDecode = true ∧ (r.prod < c.sectorSize ∨ r.cons < h))) := by
  unfold unpackDecoded
  split
  · rename_i hc; left; refine ⟨rfl, ?_⟩; simpa using hc
  · rename_i hc; right; refine ⟨rfl, ?_⟩; simpa using hc

/-- A live BLOCK_READ with its sector in range, by the class of the block's size field. -/
theorem execBlockRead_of_live {s : State} (hf : s.fatal = false) (hr : s.sector.toNat < s.devSectors) :
    (classify s.cfg (sizeField s.readBlock).toNat = .raw ∧
      execBlockRead s = .next ((s.latchBlock s.readBlock).commitRead (unpackRaw s.cfg s.readBlock))) ∨
    (classify s.cfg (sizeField s.readBlock).toNat = .invalid ∧
      execBlockRead s = .next ((s.latchBlock s.readBlock).raiseFatal .corrupt)) ∨
    (classify s.cfg (sizeField s.readBlock).toNat = .encoded ∧
      execBlockRead s = .next ({ s.latchBlock s.readBlock with decoder := none }.commitRead
        (unpackDecoded s.cfg (sizeField s.readBlock).toNat
          (decodeBytes (slice s.readBlock 4 (4 + (sizeField s.readBlock).toNat)) s.cfg.sectorSize)))) := by
  rcases execBlockRead_cases s with ⟨h, _⟩ | ⟨_, h, _⟩ | ⟨_, _, h, e⟩ | ⟨_, _, h, e⟩ | ⟨_, _, h, e⟩
  · rw [hf] at h; cases h
  · have := s.sectorOutOfRange_iff.1 h; omega
  · exact .inl ⟨h, e⟩
  · exact .inr (.inl ⟨h, e⟩)
  · refine .inr (.inr ⟨h, e.trans ?_⟩)
    rw [State.open_run_close_blockRead rfl, blockScan, result_scan_start]; rfl

end Sys2Proof.Machine
end

