-- ==== Sys2Proof/Laws/Flags.lean ====
section
/-! SUPPORT. What each write of a STATUS field does to each field (10_state.md R22): the field written takes the value,
and every other field keeps its own. -/

namespace Sys2Proof.Machine

/-! ## STATUS.ERR written -/

@[simp] theorem errField_withErr (st : Word) (e : ErrCode) : errField (withErr st e) = e.code := by
  refine BitVec.eq_of_getLsbD_eq fun i hi => ?_
  cases e <;> interval_cases i <;>
    simp [errField, withErr, ErrCode.code, ErrCode.toWord]

@[simp] theorem fatalBit_withErr (st : Word) (e : ErrCode) : fatalBit (withErr st e) = fatalBit st := by
  cases e <;> simp [fatalBit, withErr, ErrCode.toWord]

@[simp] theorem modeBit_withErr (st : Word) (e : ErrCode) : modeBit (withErr st e) = modeBit st := by
  cases e <;> simp [modeBit, withErr, ErrCode.toWord]

@[simp] theorem reservedBits_withErr (st : Word) (e : ErrCode) :
    reservedBits (withErr st e) = reservedBits st := by
  refine BitVec.eq_of_getLsbD_eq fun i hi => ?_
  cases e <;> interval_cases i <;>
    simp [reservedBits, withErr, ErrCode.toWord]

/-! ## STATUS.FATAL set -/

@[simp] theorem errField_withFatal (st : Word) : errField (withFatal st) = errField st := by
  refine BitVec.eq_of_getLsbD_eq fun i hi => ?_
  interval_cases i <;> simp [errField, withFatal]

@[simp] theorem fatalBit_withFatal (st : Word) : fatalBit (withFatal st) = true := by
  simp [fatalBit, withFatal]

@[simp] theorem modeBit_withFatal (st : Word) : modeBit (withFatal st) = modeBit st := by
  simp [modeBit, withFatal]

@[simp] theorem reservedBits_withFatal (st : Word) : reservedBits (withFatal st) = reservedBits st := by
  refine BitVec.eq_of_getLsbD_eq fun i hi => ?_
  interval_cases i <;> simp [reservedBits, withFatal]

/-! ## STATUS.MODE written -/

@[simp] theorem errField_withMode (st : Word) (m : BlockMode) : errField (withMode st m) = errField st := by
  refine BitVec.eq_of_getLsbD_eq fun i hi => ?_
  cases m <;> interval_cases i <;>
    simp [errField, withMode, BlockMode.toBool]

@[simp] theorem fatalBit_withMode (st : Word) (m : BlockMode) : fatalBit (withMode st m) = fatalBit st := by
  cases m <;> simp [fatalBit, withMode, BlockMode.toBool]

@[simp] theorem modeBit_withMode (st : Word) (m : BlockMode) : modeBit (withMode st m) = m.toBool := by
  cases m <;> simp [modeBit, withMode, BlockMode.toBool]

@[simp] theorem reservedBits_withMode (st : Word) (m : BlockMode) :
    reservedBits (withMode st m) = reservedBits st := by
  refine BitVec.eq_of_getLsbD_eq fun i hi => ?_
  cases m <;> interval_cases i <;>
    simp [reservedBits, withMode, BlockMode.toBool]

/-! ## STATUS as the Host reads it -/

@[simp] theorem reservedBits_statusView (st : Word) : reservedBits (statusView st) = 0 := by
  refine BitVec.eq_of_getLsbD_eq fun i hi => ?_
  interval_cases i <;> simp [reservedBits, statusView]

@[simp] theorem errField_statusView (st : Word) : errField (statusView st) = errField st := by
  refine BitVec.eq_of_getLsbD_eq fun i hi => ?_
  interval_cases i <;> simp [errField, statusView]

@[simp] theorem fatalBit_statusView (st : Word) : fatalBit (statusView st) = fatalBit st := by
  simp [fatalBit, statusView]

@[simp] theorem modeBit_statusView (st : Word) : modeBit (statusView st) = modeBit st := by
  simp [modeBit, statusView]

/-! ## STATUS after reset (R41) -/

@[simp] theorem errField_zero : errField 0 = 0 := rfl

@[simp] theorem fatalBit_zero : fatalBit 0 = false := by decide

@[simp] theorem modeBit_zero : modeBit 0 = false := by decide

@[simp] theorem reservedBits_zero : reservedBits 0 = 0 := rfl

end Sys2Proof.Machine
end

