-- ==== Sys2Proof/Laws/PerInstr.lean ====
section
/-! SUPPORT. The per-instruction family `EncodingSize`: how long an instruction's encoding is, by its format and token
(30_encoding.md R61, R62, R65), one lemma per constructor. -/

namespace Sys2Proof.Laws.EncodingSize

/-- An encoding is four bytes for a command word, and one or three bytes for a token: three exactly for a RUN. -/
def Statement (i : Instr) : Prop :=
  (i.format = .cmd → (encode i).length = 4) ∧
  (i.format = .rleToken → (encode i).length = 1 ∨ (encode i).length = 3) ∧
  ((∃ c v, i = .run c v) ↔ (encode i).length = 3)

theorem compress : Statement .compress := by simp [Statement, Instr.format, encode, bytesLE32]

theorem decompress : Statement .decompress := by simp [Statement, Instr.format, encode, bytesLE32]

theorem blockWrite : Statement .blockWrite := by simp [Statement, Instr.format, encode, bytesLE32]

theorem blockRead : Statement .blockRead := by simp [Statement, Instr.format, encode, bytesLE32]

theorem illegalCmd (w : Word) : Statement (.illegalCmd w) := by simp [Statement, Instr.format, encode, bytesLE32]

theorem run (c v : Byte) : Statement (.run c v) := by simp [Statement, Instr.format, encode]

theorem lit0Tail : Statement .lit0Tail := by simp [Statement, Instr.format, encode]

theorem lit (l : Byte) : Statement (.lit l) := by simp [Statement, Instr.format, encode]

end Sys2Proof.Laws.EncodingSize
end

