-- ==== Sys2Proof/Laws/Window.lean ====
section
/-! SUPPORT. The host window: which register or buffer an offset names (20_memory.md R49), its reads and writes by width
(R51, R52), everything a write it takes can change (R53), and what each host action can do (R21, R81). -/

namespace Sys2Proof.Machine

/-! ## The map -/

theorem regAt_eq_some_iff {off : Nat} {r : Reg} : regAt off = some r ↔ off = r.offset := by
  constructor
  · intro h
    unfold regAt at h
    split at h <;> cases h <;> rfl
  · rintro rfl; cases r <;> rfl

theorem Reg.offset_lt (r : Reg) : r.offset < 0x1000 := by cases r <;> decide

theorem Reg.offset_mod (r : Reg) : r.offset % 4 = 0 := by cases r <;> decide

/-- No register stands where the buffers do. -/
theorem regAt_of_le {off : Nat} (h : 0x1000 ≤ off) : regAt off = none := by
  cases hr : regAt off with
  | none => rfl
  | some r => have := r.offset_lt; have := regAt_eq_some_iff.1 hr; omega

theorem Buffer.holds_iff {c : Config} {b : Buffer} {off n : Nat} :
    Buffer.holds c b off n = true ↔ b.base ≤ off ∧ off + n ≤ b.base + b.size c := by
  rw [Buffer.holds, Bool.and_eq_true, decide_eq_true_eq, decide_eq_true_eq]

@[simp] theorem Buffer.base_inB : Buffer.base .inB = 0x1000 := rfl
@[simp] theorem Buffer.base_outB : Buffer.base .outB = 0x2000 := rfl
@[simp] theorem Buffer.base_physB : Buffer.base .physB = 0x3000 := rfl
@[simp] theorem Buffer.size_inB (c : Config) : Buffer.size c .inB = c.inCap := rfl
@[simp] theorem Buffer.size_outB (c : Config) : Buffer.size c .outB = c.outCap := rfl
@[simp] theorem Buffer.size_physB (c : Config) : Buffer.size c .physB = c.physSize := rfl

/-- In a legal configuration no buffer reaches the next one (R45, R49). -/
theorem Buffer.size_le {c : Config} (h : c.wf = true) (b : Buffer) : b.size c ≤ 0x1000 := by
  simp only [Config.wf, Bool.and_eq_true, decide_eq_true_eq] at h
  cases b
  · rw [size_inB]; omega
  · rw [size_outB, Config.outCap]; omega
  · rw [size_physB]; omega

/-- In a legal configuration an offset names at most one buffer byte (R49). -/
theorem bufferAt_eq_some_iff {c : Config} (hc : c.wf = true) {off n : Nat} (hn : 0 < n) {b : Buffer} {i : Nat} :
    bufferAt c off n = some (b, i) ↔ b.base ≤ off ∧ off + n ≤ b.base + b.size c ∧ i = off - b.base := by
  have hi := Buffer.size_le hc .inB
  have ho := Buffer.size_le hc .outB
  have hp := Buffer.size_le hc .physB
  unfold bufferAt
  split
  · rename_i h
    have h := Buffer.holds_iff.1 h
    constructor
    · intro e; obtain ⟨rfl, rfl⟩ := Prod.mk.inj (Option.some.inj e); exact ⟨h.1, h.2, rfl⟩
    · rintro ⟨_, _, rfl⟩; cases b <;> simp at * <;> omega
  · rename_i h1
    have h1 := mt Buffer.holds_iff.2 h1
    split
    · rename_i h
      have h := Buffer.holds_iff.1 h
      constructor
      · intro e; obtain ⟨rfl, rfl⟩ := Prod.mk.inj (Option.some.inj e); exact ⟨h.1, h.2, rfl⟩
      · rintro ⟨_, _, rfl⟩; cases b <;> simp at * <;> omega
    · rename_i h2
      have h2 := mt Buffer.holds_iff.2 h2
      split
      · rename_i h
        have h := Buffer.holds_iff.1 h
        constructor
        · intro e; obtain ⟨rfl, rfl⟩ := Prod.mk.inj (Option.some.inj e); exact ⟨h.1, h.2, rfl⟩
        · rintro ⟨_, _, rfl⟩; cases b <;> simp at * <;> omega
      · rename_i h3
        have h3 := mt Buffer.holds_iff.2 h3
        constructor
        · intro e; cases e
        · rintro ⟨a, e, _⟩; cases b <;> exfalso <;> simp at * <;> omega

namespace State

/-! ## Accesses by width -/

theorem windowRead_32 (s : State) (off : Nat) : s.windowRead 32 off =
    if off % 4 ≠ 0 then none
    else match regAt off with
      | some r => some (s.readReg r)
      | none =>
        match bufferAt s.cfg off 4 with
        | some (b, i) =>
          some (le32 (s.bufferByte b i) (s.bufferByte b (i + 1)) (s.bufferByte b (i + 2)) (s.bufferByte b (i + 3)))
        | none => none := rfl

theorem windowRead_8 (s : State) (off : Nat) : s.windowRead 8 off =
    match bufferAt s.cfg off 1 with
    | some (b, i) => some ((s.bufferByte b i).setWidth 32)
    | none => none := rfl

theorem windowRead_of_ne {w : Nat} (h : w ≠ 32) (h' : w ≠ 8) (s : State) (off : Nat) : s.windowRead w off = none := by
  unfold windowRead; split
  · exact absurd rfl h
  · exact absurd rfl h'
  · rfl

theorem windowWrite_32 (s : State) (off : Nat) (v : Word) : s.windowWrite 32 off v =
    if off % 4 ≠ 0 then none
    else match regAt off with
      | some r => s.writeReg v r
      | none =>
        match bufferAt s.cfg off 4 with
        | some (b, i) => s.writeBuffer b i (bytesLE32 v)
        | none => none := rfl

theorem windowWrite_8 (s : State) (off : Nat) (v : Word) : s.windowWrite 8 off v =
    match bufferAt s.cfg off 1 with
    | some (b, i) => s.writeBuffer b i [v.extractLsb' 0 8]
    | none => none := rfl

theorem windowWrite_of_ne {w : Nat} (h : w ≠ 32) (h' : w ≠ 8) (s : State) (off : Nat) (v : Word) :
    s.windowWrite w off v = none := by
  unfold windowWrite; split
  · exact absurd rfl h
  · exact absurd rfl h'
  · rfl

/-! ## What a write changes -/

/-- A write to a register that the window takes changes one of the four RW registers. -/
theorem writeReg_cases {s t : State} {v : Word} {r : Reg} (h : s.writeReg v r = some t) :
    t = { s with cmd := v } ∨ t = { s with inLen := v } ∨ t = { s with origLen := v } ∨ t = { s with sector := v } := by
  cases r <;> simp only [writeReg, Option.some.injEq, reduceCtorEq] at h <;> simp [h]

/-- A write to a buffer that the window takes changes IN. -/
theorem writeBuffer_cases {s t : State} {b : Buffer} {i : Nat} {bs : List Byte} (h : s.writeBuffer b i bs = some t) :
    b = .inB ∧ t = { s with inBuf := Memory.write bufferBlank s.inBuf i bs } := by
  cases b <;> simp only [writeBuffer, Option.some.injEq, reduceCtorEq] at h
  exact ⟨rfl, h.symm⟩

theorem bufferAt_inB_le {c : Config} {off n i : Nat} (h : bufferAt c off n = some (.inB, i)) : i + n ≤ c.inCap := by
  unfold bufferAt at h
  split at h
  · rename_i hh
    obtain ⟨_, rfl⟩ := Prod.mk.inj (Option.some.inj h)
    have := Buffer.holds_iff.1 hh
    simp only [Buffer.base_inB, Buffer.size_inB] at *; omega
  · split at h
    · cases h
    · split at h <;> cases h

/-- Everything a write that the window takes can change (R53): one RW register, or bytes of IN. -/
theorem windowWrite_cases {s t : State} {w off : Nat} {v : Word} (h : s.windowWrite w off v = some t) :
    t = { s with cmd := v } ∨ t = { s with inLen := v } ∨ t = { s with origLen := v } ∨ t = { s with sector := v } ∨
    ∃ i bs, i + bs.length ≤ s.cfg.inCap ∧ t = { s with inBuf := Memory.write bufferBlank s.inBuf i bs } := by
  have buf {i n : Nat} {b : Buffer} {bs : List Byte} (hb : bufferAt s.cfg off n = some (b, i)) (hn : bs.length = n)
      (h : s.writeBuffer b i bs = some t) :
      ∃ i bs, i + bs.length ≤ s.cfg.inCap ∧ t = { s with inBuf := Memory.write bufferBlank s.inBuf i bs } := by
    obtain ⟨rfl, rfl⟩ := writeBuffer_cases h
    exact ⟨i, bs, hn ▸ bufferAt_inB_le hb, rfl⟩
  unfold windowWrite at h
  split at h
  · split at h
    · cases h
    · split at h
      · rcases writeReg_cases h with h | h | h | h
        exacts [.inl h, .inr (.inl h), .inr (.inr (.inl h)), .inr (.inr (.inr (.inl h)))]
      · split at h
        · rename_i hb; exact .inr (.inr (.inr (.inr (buf hb rfl h))))
        · cases h
  · split at h
    · rename_i hb; exact .inr (.inr (.inr (.inr (buf hb rfl h))))
    · cases h
  · cases h

/-! ## What a host action does -/

/-- Everything an access that starts no command can do: a response, and at most one write the window takes. -/
theorem accessEffect_cases (s : State) (a : Access) : ∃ t r, s.accessEffect a = t.respond r ∧
    (t = s ∨ s.windowWrite a.width a.off a.value = some t) := by
  unfold accessEffect
  split <;> split
  · exact ⟨_, _, rfl, .inl rfl⟩
  · exact ⟨_, _, rfl, .inl rfl⟩
  · rename_i h; exact ⟨_, _, rfl, .inr h⟩
  · exact ⟨_, _, rfl, .inl rfl⟩

/-- Everything an action that starts no command can do: a RESET, or a response and at most one write. -/
theorem actionEffect_cases (s : State) (a : HostAction) :
    (a = .reset ∧ s.actionEffect a = s.resetEngine.respond .resetDone) ∨
    (a ≠ .reset ∧ ∃ t r, s.actionEffect a = t.respond r ∧ (t = s ∨ ∃ w off v, s.windowWrite w off v = some t)) := by
  cases a with
  | reset => exact .inl ⟨rfl, rfl⟩
  | access x =>
    obtain ⟨t, r, h, h'⟩ := s.accessEffect_cases x
    exact .inr ⟨by simp, t, r, h, h'.imp id fun h => ⟨_, _, _, h⟩⟩
  | writeBack8 off =>
    refine .inr ⟨by simp, ?_⟩
    simp only [actionEffect]
    split
    · rename_i x _
      obtain ⟨t, r, h, h'⟩ := s.accessEffect_cases x
      exact ⟨t, r, h, h'.imp id fun h => ⟨_, _, _, h⟩⟩
    · exact ⟨_, _, rfl, .inl rfl⟩

end State

/-- An access carries a command word exactly when it is the 32-bit write of it to CMD (R21). -/
theorem Access.commandWord_eq_some_iff {a : Access} {w : Word} :
    a.commandWord = some w ↔ a = ⟨.write, 32, 0x000, w⟩ := by
  obtain ⟨d, width, off, v⟩ := a
  cases d with
  | read => simp [Access.commandWord]
  | write =>
    show (if width = 32 ∧ off = 0 then some v else none) = some w ↔ _
    by_cases h : width = 32 ∧ off = 0
    · rw [if_pos h]; simp [h.1, h.2]
    · rw [if_neg h]; simp; intro a b; exact absurd ⟨a, b⟩ h

/-- The only action that starts a command is the 32-bit write of its word to CMD. -/
theorem State.accessOf_commandWord {s : State} {a : HostAction} {w : Word} :
    (s.accessOf a).bind Access.commandWord = some w ↔ a = w32 0x000 w := by
  constructor
  · intro h
    cases a with
    | reset => cases h
    | access x =>
      have := Access.commandWord_eq_some_iff.1 (show x.commandWord = some w from h)
      subst this; rfl
    | writeBack8 off =>
      simp only [State.accessOf] at h
      split at h
      · have := Access.commandWord_eq_some_iff.1 ((Option.bind_some ..).symm.trans h); cases this
      · cases h
  · rintro rfl; exact Access.commandWord_eq_some_iff.2 rfl

end Sys2Proof.Machine
end

