-- ==== Sys2Proof/Laws/Step.lean ====
section
/-! SUPPORT. What a step can do, said once: it refuses an illegal configuration, idles, takes the next token of a scan or
ends it, runs the command of a CMD write, or makes another host action (00_scope.md R9, 10_state.md R36). -/

namespace Sys2Proof.Machine

theorem step_of_instr {s t : State} {i : Instr} (hl : s.legalConfig = true) (hf : s.fetch = .instr i t) :
    step s = exec i t := by simp [step, hl, hf]

theorem step_of_plain {s t : State} (hl : s.legalConfig = true) (hf : s.fetch = .plain t) :
    step s = .next t := by simp [step, hl, hf]

namespace State

theorem fetch_token {s : State} {d : Decoder} {i : Instr} (hd : s.decoder = some d) (hr : d.ready = true)
    (ht : d.token = some i) : s.fetch = .instr i s := by simp [fetch, hd, fetchToken, hr, ht]

theorem fetch_close {s : State} {d : Decoder} (hd : s.decoder = some d) (hr : d.ready = false) :
    s.fetch = .plain s.closeDecoder := by simp [fetch, hd, fetchToken, hr]

theorem fetch_idle {s : State} (hd : s.decoder = none) (hp : s.program = []) : s.fetch = .plain s := by
  simp [fetch, hd, hp]

theorem fetch_action {s : State} {a : HostAction} {rest : List HostAction} (hd : s.decoder = none)
    (hp : s.program = a :: rest) : s.fetch = (s.withProgram rest).fetchAction a := by simp [fetch, hd, hp]

theorem fetch_command {s : State} {w : Word} {rest : List HostAction} (hd : s.decoder = none)
    (hp : s.program = w32 Reg.cmd.offset w :: rest) :
    s.fetch = .instr (decodeCommand w) ((s.withProgram rest).acceptCommand w) := by
  rw [fetch_action hd hp]; rfl

/-- What the machine does next is one of five things. -/
theorem fetch_cases (s : State) :
    (∃ d i, s.decoder = some d ∧ d.ready = true ∧ d.token = some i ∧ s.fetch = .instr i s) ∨
    (∃ d, s.decoder = some d ∧ d.ready = false ∧ s.fetch = .plain s.closeDecoder) ∨
    (s.decoder = none ∧ s.program = [] ∧ s.fetch = .plain s) ∨
    (∃ a rest w, s.decoder = none ∧ s.program = a :: rest ∧
      ((s.withProgram rest).accessOf a).bind Access.commandWord = some w ∧
      s.fetch = .instr (decodeCommand w) ((s.withProgram rest).acceptCommand w)) ∨
    (∃ a rest, s.decoder = none ∧ s.program = a :: rest ∧
      ((s.withProgram rest).accessOf a).bind Access.commandWord = none ∧
      s.fetch = .plain ((s.withProgram rest).actionEffect a)) := by
  cases hd : s.decoder with
  | some d =>
    cases hr : d.ready
    · exact .inr (.inl ⟨d, rfl, hr, fetch_close hd hr⟩)
    · obtain ⟨i, ht⟩ := Decoder.token_of_ready hr
      exact .inl ⟨d, i, rfl, hr, ht, fetch_token hd hr ht⟩
  | none =>
    cases hp : s.program with
    | nil => exact .inr (.inr (.inl ⟨rfl, rfl, fetch_idle hd hp⟩))
    | cons a rest =>
      have hf := fetch_action hd hp
      cases hw : ((s.withProgram rest).accessOf a).bind Access.commandWord with
      | some w => exact .inr (.inr (.inr (.inl ⟨a, rest, w, rfl, rfl, hw, by rw [hf, fetchAction, hw]⟩)))
      | none => exact .inr (.inr (.inr (.inr ⟨a, rest, rfl, rfl, hw, by rw [hf, fetchAction, hw]⟩)))

end State

/-- An action that starts no command has its own effect. -/
theorem step_of_action {s : State} {a : HostAction} {rest : List HostAction} (hl : s.legalConfig = true)
    (hd : s.decoder = none) (hp : s.program = a :: rest) (hne : ∀ w, a ≠ w32 0x000 w) :
    step s = .next ((s.withProgram rest).actionEffect a) := by
  have hw : ((s.withProgram rest).accessOf a).bind Access.commandWord = none := by
    cases h : ((s.withProgram rest).accessOf a).bind Access.commandWord with
    | none => rfl
    | some w => exact absurd (State.accessOf_commandWord.1 h) (hne w)
  exact step_of_plain hl (by rw [State.fetch_action hd hp, State.fetchAction, hw])

/-- Everything a step that answers a next state can have done: a micro-step of a scan or its end, nothing, a command, or
an action that starts none. -/
theorem step_cases {s t : State} (h : step s = .next t) : s.legalConfig = true ∧
    ((∃ d, s.decoder = some d ∧ d.ready = true ∧ t = { s with decoder := some d.step }) ∨
     (∃ d, s.decoder = some d ∧ d.ready = false ∧ t = s.closeDecoder) ∨
     (s.decoder = none ∧ s.program = [] ∧ t = s) ∨
     (∃ rest w, s.decoder = none ∧ s.program = w32 0x000 w :: rest ∧
       exec (decodeCommand w) ((s.withProgram rest).acceptCommand w) = .next t) ∨
     (∃ a rest, s.decoder = none ∧ s.program = a :: rest ∧ (∀ w, a ≠ w32 0x000 w) ∧
       t = (s.withProgram rest).actionEffect a)) := by
  have hl : s.legalConfig = true := by
    unfold step at h; split at h
    · assumption
    · cases h
  refine ⟨hl, ?_⟩
  rcases s.fetch_cases with ⟨d, i, hd, hr, ht, e⟩ | ⟨d, hd, hr, e⟩ | ⟨hd, hp, e⟩ | ⟨a, rest, w, hd, hp, hw, e⟩ |
    ⟨a, rest, hd, hp, hw, e⟩
  · rw [step_of_instr hl e, exec_token_at hd hr ht] at h; cases h
    exact .inl ⟨d, hd, hr, rfl⟩
  · rw [step_of_plain hl e] at h; cases h
    exact .inr (.inl ⟨d, hd, hr, rfl⟩)
  · rw [step_of_plain hl e] at h; cases h
    exact .inr (.inr (.inl ⟨hd, hp, rfl⟩))
  · rw [step_of_instr hl e] at h
    obtain rfl := State.accessOf_commandWord.1 hw
    exact .inr (.inr (.inr (.inl ⟨rest, w, hd, hp, h⟩)))
  · rw [step_of_plain hl e] at h; cases h
    refine .inr (.inr (.inr (.inr ⟨a, rest, hd, hp, ?_, rfl⟩)))
    rintro w rfl
    rw [State.accessOf_commandWord.2 rfl] at hw; cases hw

end Sys2Proof.Machine
end

