-- ==== Sys2Proof/Tests/Slice0.lean ====
section
/-! SUPPORT. The model's own tests: the checks of WellFormed on ill-formed terms, decoding of words written out from
30_encoding.md, the vectors of 95_test_vectors.md (each named in its comment) on single steps, and for every obligation
with hypotheses a witness that meets them. -/

set_option Elab.async false

namespace Sys2Proof.Machine.Tests

/-! ## Helpers -/

/-- The next state of an outcome, or `s` where there is none. -/
def after (o : Host.Outcome State Fault Refusal) (s : State) : State :=
  match o with
  | .next t => t
  | .fault _ => s
  | .refused _ => s

/-- The outcome is a next state. -/
def isNext (o : Host.Outcome State Fault Refusal) : Bool :=
  match o with
  | .next _ => true
  | .fault _ => false
  | .refused _ => false

theorem next_after {o : Host.Outcome State Fault Refusal} (s : State) (h : isNext o = true) :
    o = .next (after o s) := by cases o <;> simp_all [isNext, after]

/-- A small block: S = 8, IN_CAP = 8, so CAP = 4, OUT_CAP = 16 and PHYS_SIZE = 12. -/
def tiny : Config := { sectorSize := 8, inCap := 8 }

/-- The small block under TRUNC: PHYS_SIZE = 8. -/
def tinyTrunc : Config := { sectorSize := 8, inCap := 8, rawMode := .trunc }

/-- The small block under VERBATIM. -/
def tinyVerbatim : Config := { sectorSize := 8, inCap := 8, zeroLitMode := .verbatim }

/-- The small block with STRICT_DECODE. -/
def tinyStrict : Config := { sectorSize := 8, inCap := 8, strictDecode := true }

/-- A block after reset with IN, IN_LEN and ORIG_LEN written and a Store of one block. -/
def machine (c : Config) (bs : List Byte) (inLen origLen : Word) : State :=
  { State.launch c 1 [] 0 0 [] with inBuf := bufferOf bs, inLen := inLen, origLen := origLen }

/-- A block after reset whose one Store block is `p`. -/
def withBlock (c : Config) (p : List Byte) : State :=
  State.launch c 1 (Memory.write storeBlank [] 0 p) 0 0 []

/-- A block after reset with a host program. -/
def running (c : Config) (p : List HostAction) : State := State.launch c 1 [] 0 0 p

/-- The state after a step. -/
def stepped (s : State) : State := after (step s) s

/-- 95_test_vectors.md's `01 02 01 02 …`, `2 n` bytes. -/
def pairs (n : Nat) : List Byte := (List.replicate n [0x01, 0x02]).flatten

/-! ## WellFormed: each check refuses an ill-formed term -/

theorem test_wf_illegal_word_is_not_legal : (Instr.illegalCmd 0x00000001).wf = false := by decide
theorem test_wf_illegal_word : (Instr.illegalCmd 0x00000005).wf = true := by decide
theorem test_wf_literal_is_not_marker : (Instr.lit 0x00).wf = false := by decide
theorem test_wf_config_default : Config.default.wf = true := by decide
theorem test_wf_sector_size_least :
    Config.wf { sectorSize := 4 } = false ∧ Config.wf { sectorSize := 5 } = true := by decide
theorem test_wf_sector_size_most :
    Config.wf { sectorSize := 1025 } = false ∧ Config.wf { sectorSize := 1024 } = true := by decide
theorem test_wf_in_cap_most : Config.wf { inCap := 2049 } = false ∧ Config.wf { inCap := 2048 } = true := by decide
theorem test_wf_dev_sectors : devSectorsLegal (2 ^ 32) = false ∧ devSectorsLegal (2 ^ 32 - 1) = true := by decide

/-- The configuration of R12, parameter by parameter. -/
theorem test_default_config :
    Config.default.sectorSize = 512 ∧ Config.default.cap = 508 ∧ Config.default.inCap = 1024 ∧
    Config.default.outCap = 2048 ∧ Config.default.physSize = 516 ∧ tinyTrunc.physSize = 8 := by decide

/-! ## Decoding: words and tokens written out from R62, R63, R65 and R68 -/

theorem test_decode_compress : decodeTableWord 32 0b00000000000000000000000000000001 = some .compress := by decide
theorem test_decode_decompress :
    decodeTableWord 32 0b00000000000000000000000000000010 = some .decompress := by decide
theorem test_decode_block_write :
    decodeTableWord 32 0b00000000000000000000000000000011 = some .blockWrite := by decide
theorem test_decode_block_read :
    decodeTableWord 32 0b00000000000000000000000000000100 = some .blockRead := by decide
/-- I1 to I5. -/
theorem test_decode_illegal_words :
    decodeTableWord 32 0x00000000 = some (.illegalCmd 0x00000000) ∧
    decodeTableWord 32 0x00000005 = some (.illegalCmd 0x00000005) ∧
    decodeTableWord 32 0x0000000F = some (.illegalCmd 0x0000000F) ∧
    decodeTableWord 32 0x00000011 = some (.illegalCmd 0x00000011) ∧
    decodeTableWord 32 0x80000003 = some (.illegalCmd 0x80000003) := by decide
/-- The token `00 05 41`, whose second byte stands in bits 15:8. -/
theorem test_decode_run : decodeTableWord 24 0x410500 = some (.run 0x05 0x41) := by decide
theorem test_decode_trailing_zero : decodeTableWord 8 0x00 = some .lit0Tail := by decide
theorem test_decode_literal : decodeTableWord 8 0x42 = some (.lit 0x42) := by decide
/-- A zero with one byte after it is a literal, with two it opens a RUN (R68). -/
theorem test_decode_zero_by_what_follows :
    decodeToken [0x00, 0x41] = .ok (.lit0Tail, [0x41]) ∧
    decodeToken [0x00, 0x41, 0x42] = .ok (.run 0x41 0x42, []) := by decide
theorem test_decode_rejects :
    decode .cmd [0x01, 0x00, 0x00] = .error .shortCommandWord ∧ decodeTableWord 0 0 = none := by decide
/-- R13: the first byte is the least significant. -/
theorem test_little_endian :
    le32 0xFD 0x01 0x00 0x00 = 509 ∧ bytesLE32 0x04030201 = [0x01, 0x02, 0x03, 0x04] := by decide

/-! ## The codec as functions -/

/-- E7: the zero escape under ESCAPE, and the plain zero under VERBATIM. -/
theorem test_encode_zero_escape :
    encodeBytes .escape [0x00, 0x41, 0x42] = [0x00, 0x01, 0x00, 0x41, 0x42] ∧
    encodeBytes .verbatim [0x00, 0x41, 0x42] = [0x00, 0x41, 0x42] := by decide +kernel
/-- E12: the second zero stands in the last two positions. -/
theorem test_encode_zero_tail : encodeBytes .escape [0x00, 0x41, 0x00] = [0x00, 0x01, 0x00, 0x41, 0x00] := by
  decide +kernel
/-- E21: a run of 258 is a RUN of 255 and a RUN of 3. -/
theorem test_encode_run_cap :
    encodeBytes .escape (List.replicate 258 0x58) = [0x00, 0xFF, 0x58, 0x00, 0x03, 0x58] := by decide +kernel
/-- E24: a zero escape of count 2 behind a full RUN. -/
theorem test_encode_zero_remainder :
    encodeBytes .escape (List.replicate 257 0x00 ++ [0x41]) = [0x00, 0xFF, 0x00, 0x00, 0x02, 0x00, 0x41] := by
  decide +kernel
/-- X2, X5, X8 and X10. -/
theorem test_decode_stream_corners :
    decodeBytes [0x00, 0x05, 0x41, 0x42] 3 = ⟨[0x41, 0x41, 0x41], 3, 3⟩ ∧
    decodeBytes [0x00, 0x00, 0x41] 3 = ⟨[], 3, 0⟩ ∧
    decodeBytes [0x00, 0x41, 0x00, 0x41] 4 = ⟨[0x00, 0x00, 0x00, 0x00], 3, 4⟩ ∧
    decodeBytes [0x00, 0x00] 2 = ⟨[0x00, 0x00], 2, 2⟩ := by decide +kernel

/-! ## The commands -/

/-- K1. -/
theorem test_compress :
    let t := after (execCompress (machine .default [0x41, 0x41, 0x41, 0x41, 0x41, 0x42] 6 0)) .reset
    t.outBytes 6 = [0x00, 0x05, 0x41, 0x42, 0x00, 0x00] ∧ t.outLen = 4 ∧ t.consumed = 6 ∧ t.produced = 4 ∧
      t.status = 0x00 := by decide +kernel
/-- K4: IN_LEN = IN_CAP + 1. -/
theorem test_compress_invalid :
    let s := { machine .default [0x41] 1025 0 with outLen := 7, produced := 9 }
    let t := after (execCompress s) s
    t.status = 0x01 ∧ t.outLen = 0 ∧ t.produced = 9 := by decide +kernel
/-- U3: the stream ends first, and OUT is zero behind what was produced. -/
theorem test_decompress :
    let t := after (execDecompress (machine .default [0x00, 0x05, 0x41, 0x42] 4 8)) .reset
    t.outBytes 8 = [0x41, 0x41, 0x41, 0x41, 0x41, 0x42, 0x00, 0x00] ∧ t.outLen = 8 ∧ t.consumed = 4 ∧
      t.produced = 6 ∧ t.status = 0x00 := by decide +kernel
/-- U7 and U8: ORIG_LEN at OUT_CAP + 1 and at OUT_CAP. -/
theorem test_decompress_capacity :
    (after (execDecompress (machine .default [0x41] 1 2049)) .reset).status = 0x01 ∧
    (after (execDecompress (machine .default [0x41] 1 2048)) .reset).outLen = 2048 := by decide +kernel
/-- B5. -/
theorem test_block_write_encoded :
    let t := after (execBlockWrite (machine .default (List.replicate 512 0x41) 0 0)) .reset
    (t.block 0).take 12 = [0x08, 0x00, 0x00, 0x00, 0x00, 0xFF, 0x41, 0x00, 0xFF, 0x41, 0x41, 0x41] ∧
      (t.block 0).drop 12 = List.replicate 504 0x00 ∧ t.hdr = 8 ∧ t.status = 0x20 ∧ t.wrCnt = 1 := by decide +kernel
/-- B3: one byte over CAP goes RAW. -/
theorem test_block_write_raw :
    let t := after (execBlockWrite (machine .default (List.replicate 6 0xFF ++ pairs 253) 0 0)) .reset
    t.block 0 = [0x00, 0x00, 0x00, 0x00] ++ List.replicate 6 0xFF ++ pairs 253 ∧ t.hdr = 0 ∧ t.status = 0x00 := by
  decide +kernel
/-- D7: a short decode is zero-filled. -/
theorem test_block_read_short :
    let t := after (execBlockRead
      (withBlock .default ([0x03, 0x00, 0x00, 0x00, 0x00, 0x05, 0x41] ++ List.replicate 509 0x00))) .reset
    t.outBytes 512 = List.replicate 5 0x41 ++ List.replicate 507 0x00 ∧ t.consumed = 3 ∧ t.produced = 5 ∧
      t.status = 0x20 ∧ t.rdCnt = 1 := by decide +kernel
/-- D6: h = CAP + 1. -/
theorem test_block_read_corrupt :
    let t := after (execBlockRead (withBlock .default [0xFD, 0x01, 0x00, 0x00])) .reset
    t.status = 0x14 ∧ t.hdr = 0x1FD ∧ t.rdCnt = 1 ∧ t.outLen = 0 ∧ t.physBytes 5 = [0xFD, 0x01, 0x00, 0x00, 0xEE] := by
  decide +kernel
/-- I6: MODE keeps 1. -/
theorem test_illegal_command_keeps_mode :
    (after (execIllegalCmd 0 { State.reset with status := 0x20 }) .reset).status = 0x22 := by decide +kernel
/-- A15 and P4: while FATAL = 1 a CMD write stores its word and executes nothing. -/
theorem test_fatal_executes_nothing :
    let s := { running tiny [w32 0x000 1] with status := 0x13, inLen := 1 }
    (stepped s).cmd = 1 ∧ (stepped s).status = 0x13 ∧ (stepped s).outLen = 0 := by decide +kernel

/-! ## Tokens -/

/-- X2: a RUN clipped by the room left. -/
theorem test_run_clipped :
    (stepped { running tiny [] with decoder := some (.start [0x00, 0x05, 0x41, 0x42] 3 .decompress) }).decoder =
      some ⟨[0x42], 3, [0x41, 0x41, 0x41], 0, .decompress⟩ := by decide +kernel
/-- R94 (a): a RUN with count 0 writes nothing and consumes 3 bytes. -/
theorem test_run_count_zero :
    (stepped { running tiny [] with decoder := some (.start [0x00, 0x00, 0x41] 3 .decompress) }).decoder =
      some ⟨[], 3, [], 3, .decompress⟩ := by decide +kernel
/-- X10: the zero at N − 2 is a literal. -/
theorem test_trailing_zero :
    (stepped { running tiny [] with decoder := some (.start [0x00, 0x00] 2 .decompress) }).decoder =
      some ⟨[0x00], 1, [0x00], 1, .decompress⟩ := by decide +kernel
/-- X11: the first byte. -/
theorem test_literal :
    (stepped { running tiny [] with decoder := some (.start [0x41, 0x00] 2 .decompress) }).decoder =
      some ⟨[0x00], 1, [0x41], 1, .decompress⟩ := by decide +kernel

/-! ## The window, steps and reset -/

/-- A2, A3, A4, A5, A7, A9, A10, A13 and A14. -/
theorem test_bus_errors :
    let s := State.reset
    s.windowWrite 32 0x004 1 = none ∧ s.windowRead 8 0x004 = none ∧ s.windowRead 32 0x002 = none ∧
    s.windowRead 32 0x024 = none ∧ s.windowWrite 32 0x1001 0 = none ∧ s.windowRead 8 0x1400 = none ∧
    s.windowWrite 8 0x2000 0 = none ∧ s.windowRead 32 0x3204 = none ∧ s.windowRead 16 0x1000 = none := by
  decide +kernel
/-- A8. -/
theorem test_word_write_to_in :
    (stepped { State.reset with program := [w32 0x13FC 0x04030201] }).inBuf =
      [(1020, 0x01), (1021, 0x02), (1022, 0x03), (1023, 0x04)] := by decide +kernel
/-- P1, access 7: the word at OUT after K1. -/
theorem test_word_read_of_out :
    (stepped { running .default [r32 0x2000] with outBuf := bufferOf [0x00, 0x05, 0x41, 0x42] }).responses =
      [.value 0x42410500] := by decide +kernel
/-- P6, access 6: a bus error has no effect but what the Host observes. -/
theorem test_bus_error_step :
    stepped { State.reset with program := [w32 0x004 0], status := 0x01 } =
      { State.reset with program := [], status := 0x01, responses := [.busError] } := by decide +kernel
/-- COPYBACK's second half writes the byte the read before it returned (R81). -/
theorem test_write_back :
    (stepped { running tiny [.writeBack8 0x1002] with responses := [.value 0x41] }).inBuf = [(2, 0x41)] ∧
    Pseudo.expand (.copyBack 2) = [r8 0x2000, .writeBack8 0x1000, r8 0x2001, .writeBack8 0x1001] := by decide +kernel
/-- Z1. -/
theorem test_reset_action :
    let s := { running tiny [.reset] with status := 0x13, sector := 8, outLen := 4, inBuf := [(0, 0x41)], wrCnt := 5,
                                          disk := [(0, 0x08)] }
    (stepped s).status = 0 ∧ (stepped s).sector = 0 ∧ (stepped s).outLen = 0 ∧ (stepped s).inBuf = [] ∧
      (stepped s).wrCnt = 5 ∧ (stepped s).disk = [(0, 0x08)] := by decide +kernel
/-- Z2: COMPRESS as the first command after reset, by the word's bits. -/
theorem test_fetch_word_command : (stepped (State.reset.withFetchWord 32 0x00000001)).status = 0x01 := by
  decide +kernel
/-- The token `00 05 41` as the first instruction after reset, by the word's bits. -/
theorem test_fetch_word_token :
    ((stepped (State.reset.withFetchWord 24 0x410500)).decoder.map Decoder.out) = some (List.replicate 5 0x41) := by
  decide +kernel
/-- Every memory of the reset state is canonical. -/
theorem test_reset_memories :
    Memory.wf bufferBlank State.reset.inBuf ∧ Memory.wf bufferBlank State.reset.outBuf ∧
    Memory.wf bufferBlank State.reset.phys ∧ Memory.wf storeBlank State.reset.disk := by decide
/-- Writing what an unlisted address reads as removes the entry. -/
theorem test_memory_canonical :
    Memory.write bufferBlank [(1, 0x41), (2, 0x42)] 1 [0x00] = [(2, 0x42)] ∧
    Memory.write storeBlank [] 7 [0xEE, 0x01] = [(8, 0x01)] := by decide +kernel

/-! ## Witnesses: for each obligation with hypotheses, states and operands that meet them, clause by clause

The values at which a clause starts to hold are the ones taken: the first and last length, sector and offset, a stream
of exactly CAP bytes and of one more, a size field of 0, 1, CAP and CAP + 1. -/

/-- IN holds a block whose stream `00 07 42 41` is exactly CAP = 4 bytes long. -/
def blockAtCap : List Byte := List.replicate 7 0x42 ++ [0x41]

/-- IN holds a block whose stream `41 42 00 06 43` is CAP + 1 = 5 bytes long. -/
def blockOverCap : List Byte := [0x41, 0x42] ++ List.replicate 6 0x43

/-- A live block about to write `blockAtCap`. -/
def atCap : State := machine tiny blockAtCap 8 8

/-- A live block about to write `blockOverCap`. -/
def overCap : State := machine tiny blockOverCap 8 8

/-- A live block with its scan at the head of `c` and room for `room` bytes. -/
def scanning (c : List Byte) (room : Nat) : State :=
  { machine tiny [] 0 0 with decoder := some (Decoder.start c room .decompress) }

/-- A block in the FATAL condition with a host program. -/
def fatalWith (p : List HostAction) : State := { running tiny p with status := 0x13, sector := 1 }

theorem witness_illegal_command_words :
    (running tiny []).fatal = false ∧ decodeCommand 0x00000000 = .illegalCmd 0x00000000 ∧
    decodeCommand 0x00000005 = .illegalCmd 0x00000005 ∧ decodeCommand 0x00000011 = .illegalCmd 0x00000011 := by
  decide +kernel

theorem witness_decode_of_encode :
    (Instr.wf .lit0Tail = true ∧ Instr.follows .lit0Tail [0x41] = true) ∧
    (Instr.wf (.run 0x00 0xFF) = true ∧ Instr.follows (.run 0x00 0xFF) [] = true) ∧
    (Instr.wf (.lit 0xFF) = true ∧ Instr.follows (.lit 0xFF) [0x00] = true) ∧
    (Instr.wf (.illegalCmd 0xFFFFFFFF) = true ∧ Instr.follows (.illegalCmd 0xFFFFFFFF) [] = true) := by decide

theorem witness_encode_of_decode :
    decode .rleToken [0x00, 0x41] = .ok (.lit0Tail, [0x41]) ∧
    decode .cmd [0x04, 0x00, 0x00, 0x00, 0xAA] = .ok (.blockRead, [0xAA]) := by decide

theorem witness_token_at_boundary :
    (0 < [0x00, 0x41, 0x42].length ∧ ([0x00, 0x41, 0x42] : List Byte).getD 0 0 = 0x00 ∧
      0 + 2 < ([0x00, 0x41, 0x42] : List Byte).length) ∧
    (([0x00, 0x41] : List Byte).getD 0 0 = 0x00 ∧ ([0x00, 0x41] : List Byte).length ≤ 0 + 2) ∧
    ([0x00, 0x41] : List Byte).getD 1 0 ≠ 0x00 := by decide

theorem witness_input_of_one_byte : 1 ≤ ([0x00] : List Byte).length ∧
    (∀ p ∈ pieces [0x00], p.shortZero = false) ∧ ¬∀ p ∈ pieces [0x00, 0x41, 0x42], p.shortZero = false := by
  decide +kernel

theorem witness_maximal_run :
    (1 < 255 ∧ 1 ≤ 255 * 0 + 1 ∧ ([] : List Byte).head? ≠ some 0x00) ∧
    (0 < 255 ∧ 1 ≤ 255 * 1 + 0 ∧ ([0x41] : List Byte).head? ≠ some 0x00) ∧
    (254 < 255 ∧ 1 ≤ 255 * 1 + 254) := by decide

theorem witness_decode_never_fails :
    let r := decodeBytes [0x00, 0x05, 0x41, 0x42] 8
    let r' := decodeBytes [0x00, 0x05, 0x41, 0x42] 3
    r.prod < 8 ∧ r'.cons < [0x00, 0x05, 0x41, 0x42].length := by decide +kernel

theorem witness_compress_completes :
    let a := machine tiny [0x41] 1 0
    let b := machine tiny [0x41] 8 0
    let z := machine tiny [0x41] 0 0
    let o := machine tiny [0x41] 9 0
    (a.legalConfig = true ∧ a.fatal = false ∧ 1 ≤ a.inLen.toNat ∧ a.inLen.toNat ≤ a.cfg.inCap) ∧
    (b.legalConfig = true ∧ b.fatal = false ∧ 1 ≤ b.inLen.toNat ∧ b.inLen.toNat ≤ b.cfg.inCap) ∧
    (z.fatal = false ∧ z.inLen.toNat = 0) ∧ (o.fatal = false ∧ o.cfg.inCap < o.inLen.toNat) := by decide +kernel

theorem witness_decompress_completes :
    let a := machine tiny [0x41] 1 1
    let b := machine tiny [0x41] 8 16
    let z := machine tiny [0x41] 1 0
    let o := machine tiny [0x41] 1 17
    (a.legalConfig = true ∧ a.fatal = false ∧ 1 ≤ a.inLen.toNat ∧ a.inLen.toNat ≤ a.cfg.inCap ∧
      1 ≤ a.origLen.toNat ∧ a.origLen.toNat ≤ a.cfg.outCap) ∧
    (b.legalConfig = true ∧ b.fatal = false ∧ 1 ≤ b.inLen.toNat ∧ b.inLen.toNat ≤ b.cfg.inCap ∧
      1 ≤ b.origLen.toNat ∧ b.origLen.toNat ≤ b.cfg.outCap) ∧
    (z.fatal = false ∧ z.origLen.toNat = 0) ∧ (o.fatal = false ∧ o.cfg.outCap < o.origLen.toNat) := by decide +kernel

/-- Two blocks that differ in RAW_MODE, in OUT and in the Store, and run the same codec commands. -/
theorem witness_codec_depends_on_operands_only :
    ∃ s u t v t' v' : State, s ≠ u ∧ s.cfg.inCap = u.cfg.inCap ∧ s.fatal = false ∧ u.fatal = false ∧
      s.inLen = u.inLen ∧ s.inBytes s.inLen.toNat = u.inBytes u.inLen.toNat ∧
      s.cfg.zeroLitMode = u.cfg.zeroLitMode ∧ exec .compress s = .next t ∧ exec .compress u = .next v ∧
      errField t.status = ErrCode.none.code ∧ s.origLen = u.origLen ∧ exec .decompress s = .next t' ∧
      exec .decompress u = .next v' ∧ errField t'.status = ErrCode.none.code := by
  let s := machine tiny [0x41] 1 1
  let u := { machine tinyTrunc [0x41] 1 1 with outBuf := [(3, 0x41)], disk := [(0, 0x41)] }
  refine ⟨s, u, after (exec .compress s) s, after (exec .compress u) u, after (exec .decompress s) s,
    after (exec .decompress u) u, ?_, ?_, ?_, ?_, ?_, ?_, ?_, next_after _ ?_, next_after _ ?_, ?_, ?_,
    next_after _ ?_, next_after _ ?_, ?_⟩ <;> decide +kernel

theorem witness_codec_frame :
    ∃ s t z u : State, exec .compress s = .next t ∧ errField t.status = ErrCode.none.code ∧
      exec .decompress z = .next u ∧ errField u.status = ErrCode.invalid.code := by
  refine ⟨machine tiny [0x41] 1 1, after (exec .compress (machine tiny [0x41] 1 1)) .reset,
    machine tiny [0x41] 0 1, after (exec .decompress (machine tiny [0x41] 0 1)) .reset,
    next_after _ ?_, ?_, next_after _ ?_, ?_⟩ <;> decide +kernel

theorem witness_block_write :
    (atCap.legalConfig = true ∧ atCap.fatal = false ∧ atCap.sector.toNat < atCap.devSectors ∧
      (encodeBytes atCap.cfg.zeroLitMode (atCap.inBytes atCap.cfg.sectorSize)).length = atCap.cfg.sectorSize - 4) ∧
    (overCap.legalConfig = true ∧ overCap.fatal = false ∧ overCap.sector.toNat < overCap.devSectors ∧
      (encodeBytes overCap.cfg.zeroLitMode (overCap.inBytes overCap.cfg.sectorSize)).length =
        overCap.cfg.sectorSize - 4 + 1) := by decide +kernel

theorem witness_written_block_state :
    exec .blockWrite atCap = .next (after (exec .blockWrite atCap) atCap) ∧
    modeBit (after (exec .blockWrite atCap) atCap).status = true ∧
    exec .blockWrite overCap = .next (after (exec .blockWrite overCap) overCap) ∧
    modeBit (after (exec .blockWrite overCap) overCap).status = false := by
  refine ⟨next_after _ ?_, ?_, next_after _ ?_, ?_⟩ <;> decide +kernel

theorem witness_sector_out_of_range :
    let s := { running tiny [] with sector := 1 }
    s.fatal = false ∧ s.devSectors = s.sector.toNat := by decide +kernel

theorem witness_block_read_raw :
    let s := withBlock tiny [0x00, 0x00, 0x00, 0x00]
    s.fatal = false ∧ s.sector.toNat < s.devSectors ∧ (sizeField (s.block s.sector.toNat)).toNat = 0 := by
  decide +kernel

/-- A size field of 1 and of CAP; a full decode under STRICT_DECODE. -/
theorem witness_block_read_encoded :
    let a := withBlock tiny [0x01, 0x00, 0x00, 0x00, 0x41]
    let b := withBlock tinyStrict [0x03, 0x00, 0x00, 0x00, 0x00, 0x08, 0x41]
    let c := withBlock tiny [0x04, 0x00, 0x00, 0x00, 0x00, 0x07, 0x42, 0x41]
    (a.fatal = false ∧ a.sector.toNat < a.devSectors ∧ (sizeField (a.block 0)).toNat = 1 ∧
      a.cfg.strictDecode = false) ∧
    (b.cfg.strictDecode = true ∧ (sizeField (b.block 0)).toNat = 3 ∧
      b.cfg.sectorSize ≤ (decodeBytes (slice (b.block 0) 4 7) b.cfg.sectorSize).prod ∧
      3 ≤ (decodeBytes (slice (b.block 0) 4 7) b.cfg.sectorSize).cons) ∧
    ((sizeField (c.block 0)).toNat = c.cfg.sectorSize - 4 ∧ classify c.cfg 4 = .encoded) := by decide +kernel

/-- A size field of CAP + 1; a short decode, and a decode that leaves a byte, under STRICT_DECODE. -/
theorem witness_corrupt_block :
    let a := withBlock tiny [0x05, 0x00, 0x00, 0x00]
    let b := withBlock tinyStrict [0x01, 0x00, 0x00, 0x00, 0x41]
    let c := withBlock tinyStrict [0x04, 0x00, 0x00, 0x00, 0x00, 0x08, 0x41, 0x42]
    (a.fatal = false ∧ a.sector.toNat < a.devSectors ∧ (sizeField (a.block 0)).toNat = a.cfg.cap + 1 ∧
      isNext (exec .blockRead a) = true ∧ errField (after (exec .blockRead a) a).status = ErrCode.corrupt.code) ∧
    (b.cfg.strictDecode = true ∧ (sizeField (b.block 0)).toNat = 1 ∧
      (decodeBytes (slice (b.block 0) 4 5) b.cfg.sectorSize).prod < b.cfg.sectorSize) ∧
    (c.cfg.strictDecode = true ∧ (sizeField (c.block 0)).toNat = c.cfg.cap ∧
      (decodeBytes (slice (c.block 0) 4 8) c.cfg.sectorSize).cons < 4) := by decide +kernel

/-- The last clause of `CorruptBlockIsFatal`: a FATAL machine keeps ERR = CORRUPT under any other command. -/
theorem witness_corrupt_kept :
    let s := { running tiny [] with status := 0x14 }
    exec .compress s = .next (after (exec .compress s) s) ∧
    errField (after (exec .compress s) s).status = ErrCode.corrupt.code := by
  refine ⟨next_after _ ?_, ?_⟩ <;> decide +kernel

theorem witness_block_read :
    let s := withBlock tiny [0x03, 0x00, 0x00, 0x00, 0x00, 0x08, 0x41]
    let u := withBlock tiny [0x05, 0x00, 0x00, 0x00]
    (s.legalConfig = true ∧ s.fatal = false ∧ exec .blockRead s = .next (after (exec .blockRead s) s) ∧
      errField (after (exec .blockRead s) s).status = ErrCode.none.code) ∧
    (exec .blockRead u = .next (after (exec .blockRead u) u) ∧
      fatalBit (after (exec .blockRead u) u).status = true) := by
  refine ⟨⟨?_, ?_, next_after _ ?_, ?_⟩, next_after _ ?_, ?_⟩ <;> decide +kernel

/-- The adapter's laws: ESCAPE and WIDE, a block stored ENCODED and one stored RAW; and RAW under TRUNC. The block that
reads may differ from the one that wrote, here in IN. -/
theorem witness_adapter_laws :
    ∀ s ∈ [atCap, overCap, machine tinyTrunc blockOverCap 8 8],
      let t := after (exec .blockWrite s) s
      let u := { t with inBuf := [] }
      s.legalConfig = true ∧ s.fatal = false ∧ s.sector.toNat < s.devSectors ∧ isNext (exec .blockWrite s) = true ∧
      u.cfg = t.cfg ∧ u.devSectors = t.devSectors ∧ u.sector = s.sector ∧ u.fatal = false ∧
      u.block s.sector.toNat = t.block s.sector.toNat := by decide +kernel

theorem witness_adapter_modes :
    (atCap.cfg.zeroLitMode = .escape ∧ atCap.cfg.rawMode = .wide ∧ atCap.cfg.strictDecode = false ∧
      modeBit (after (exec .blockWrite atCap) atCap).status = true) ∧
    overCap.cfg.cap < (encodeBytes overCap.cfg.zeroLitMode overCap.logicalBlock).length := by decide +kernel

/-- COMPRESS over the block that BLOCK_WRITE stores, and DECOMPRESS over the stream that BLOCK_READ reads. -/
theorem witness_block_stream :
    let t := after (exec .blockWrite atCap) atCap
    let r := withBlock tiny (bytesLE32 4 ++ [0x00, 0x07, 0x42, 0x41, 0x00, 0x00, 0x00, 0x00])
    let v := after (exec .blockRead r) r
    let d := machine tiny [0x00, 0x07, 0x42, 0x41] 4 8
    (modeBit t.status = true ∧ atCap.inLen.toNat = atCap.cfg.sectorSize ∧
      atCap.inBytes atCap.cfg.sectorSize = atCap.logicalBlock ∧ isNext (exec .compress atCap) = true) ∧
    (r.legalConfig = true ∧ r.fatal = false ∧ r.sector.toNat < r.devSectors ∧ isNext (exec .blockRead r) = true ∧
      errField v.status = ErrCode.none.code ∧ modeBit v.status = true ∧ d.cfg = r.cfg ∧ d.fatal = false ∧
      d.inLen = v.hdr ∧ d.origLen.toNat = r.cfg.sectorSize ∧
      d.inBytes d.inLen.toNat = slice (r.block r.sector.toNat) 4 (4 + v.hdr.toNat) ∧
      isNext (exec .decompress d) = true) := by decide +kernel

/-- Two blocks that differ in their padding only. -/
theorem witness_padding :
    let s := withBlock tiny [0x01, 0x00, 0x00, 0x00, 0x41, 0x55]
    let u := withBlock tiny [0x01, 0x00, 0x00, 0x00, 0x41, 0x66]
    s.block 0 ≠ u.block 0 ∧ s.legalConfig = true ∧ s.cfg = u.cfg ∧ s.fatal = false ∧ u.fatal = false ∧
      s.sector.toNat < s.devSectors ∧ u.sector.toNat < u.devSectors ∧
      1 ≤ (sizeField (s.block s.sector.toNat)).toNat ∧
      (sizeField (s.block s.sector.toNat)).toNat ≤ s.cfg.cap ∧
      (s.block s.sector.toNat).take (4 + (sizeField (s.block s.sector.toNat)).toNat) =
        (u.block u.sector.toNat).take (4 + (sizeField (s.block s.sector.toNat)).toNat) ∧
      isNext (exec .blockRead s) = true ∧ isNext (exec .blockRead u) = true := by decide +kernel

/-- B4 and B3 (508 and 509 stream bytes), and D6. -/
theorem witness_cap_boundary :
    let a := machine .default (List.replicate 7 0xFF ++ pairs 252 ++ [0x01]) 0 0
    let b := machine .default (List.replicate 6 0xFF ++ pairs 253) 0 0
    let c := withBlock .default [0xFD, 0x01, 0x00, 0x00]
    (a.legalConfig = true ∧ a.cfg.sectorSize = 512 ∧ a.fatal = false ∧ a.sector.toNat < a.devSectors ∧
      (encodeBytes a.cfg.zeroLitMode a.logicalBlock).length = 508 ∧ isNext (exec .blockWrite a) = true) ∧
    ((encodeBytes b.cfg.zeroLitMode b.logicalBlock).length = 509 ∧ isNext (exec .blockWrite b) = true) ∧
    ((c.block c.sector.toNat).take 4 = [0xFD, 0x01, 0x00, 0x00] ∧ isNext (exec .blockRead c) = true) := by
  decide +kernel

theorem witness_token_steps :
    (∃ d, (scanning [0x00, 0x05, 0x41] 1).decoder = some d ∧ 0 < d.room ∧ d.rest = 0x00 :: 0x05 :: 0x41 :: []) ∧
    (∃ d, (scanning [0x00, 0x41] 1).decoder = some d ∧ 0 < d.room ∧ d.rest = 0x00 :: [0x41] ∧
      [0x41].length < 2) ∧
    (∃ d, (scanning [0x01] 1).decoder = some d ∧ 0 < d.room ∧ d.rest = 0x01 :: [] ∧ (0x01 : Byte) ≠ 0x00) :=
  ⟨⟨_, rfl, by decide⟩, ⟨_, rfl, by decide⟩, ⟨_, rfl, by decide⟩⟩

theorem witness_illegal_and_token_frame :
    ∃ s t u v : State, exec (.illegalCmd 0) s = .next t ∧ Instr.format (.lit 0x41) = .rleToken ∧
      exec (.lit 0x41) u = .next v := by
  refine ⟨running tiny [], after (exec (.illegalCmd 0) (running tiny [])) .reset, scanning [0x41] 1,
    after (exec (.lit 0x41) (scanning [0x41] 1)) .reset, next_after _ ?_, rfl, next_after _ ?_⟩ <;> decide +kernel

/-- A token outside its boundary: no scan, another token, no room left. -/
theorem witness_token_outside_scan :
    Instr.format (.lit 0x41) = .rleToken ∧ isNext (exec (.lit 0x41) (running tiny [])) = false ∧
    isNext (exec (.lit 0x41) (scanning [0x42] 1)) = false ∧
    isNext (exec (.lit 0x41) (scanning [0x41] 0)) = false := by decide +kernel

theorem witness_micro_steps :
    let s := machine tiny [0x00, 0x05, 0x41, 0x42] 4 6
    let u := withBlock tiny [0x03, 0x00, 0x00, 0x00, 0x00, 0x05, 0x41]
    (s.legalConfig = true ∧ s.fatal = false ∧ s.decompressInvalid = false) ∧
    (u.legalConfig = true ∧ u.fatal = false ∧ u.sector.toNat < u.devSectors ∧
      classify u.cfg (sizeField (u.block u.sector.toNat)).toNat = .encoded) := by decide +kernel

theorem witness_fatal_machine : Instr.format .blockWrite = .cmd ∧ (fatalWith []).fatal = true := by decide +kernel

/-- The invariant holds of a block in the FATAL condition. -/
theorem fatalWith_inv (p : List HostAction) : (fatalWith p).Inv where
  config := show (fatalWith []).legalConfig = true by decide +kernel
  in_wf := ⟨List.Pairwise.nil, by intro c h; cases h⟩
  in_below := by intro c h; cases h
  out_wf := ⟨List.Pairwise.nil, by intro c h; cases h⟩
  out_below := by intro c h; cases h
  phys_wf := ⟨List.Pairwise.nil, by intro c h; cases h⟩
  phys_below := by intro c h; cases h
  disk_wf := ⟨List.Pairwise.nil, by intro c h; cases h⟩
  disk_below := by intro c h; cases h
  reserved := show reservedBits 0x13 = 0 by decide
  err := ⟨.range, show errField 0x13 = ErrCode.range.code by decide⟩
  fatal_iff := ⟨fun _ => ⟨.range, show errField 0x13 = FatalCode.range.err.code by decide⟩,
    fun _ => show fatalBit 0x13 = true by decide⟩
  out_len := Nat.zero_le _
  produced := Nat.zero_le _
  scan_fits := by intro d h; cases h
  scan_live := by intro d h; cases h

/-- The invariant holds of a live block after reset with a host program. -/
theorem running_inv (p : List HostAction) : (running tiny p).Inv where
  config := show (running tiny []).legalConfig = true by decide +kernel
  in_wf := ⟨List.Pairwise.nil, by intro c h; cases h⟩
  in_below := by intro c h; cases h
  out_wf := ⟨List.Pairwise.nil, by intro c h; cases h⟩
  out_below := by intro c h; cases h
  phys_wf := ⟨List.Pairwise.nil, by intro c h; cases h⟩
  phys_below := by intro c h; cases h
  disk_wf := ⟨List.Pairwise.nil, by intro c h; cases h⟩
  disk_below := by intro c h; cases h
  reserved := show reservedBits 0 = 0 by decide
  err := ⟨.none, show errField 0 = ErrCode.none.code by decide⟩
  fatal_iff := by
    constructor
    · intro h; exact absurd (show fatalBit 0 = true from h) (by decide)
    · rintro ⟨c, h⟩; cases c <;> exact absurd (show errField 0 = _ from h) (by decide)
  out_len := Nat.zero_le _
  produced := Nat.zero_le _
  scan_fits := by intro d h; cases h
  scan_live := by intro d h; cases h

/-- A CMD write, another access, and a RESET. -/
theorem witness_fatal_condition :
    (∀ a ∈ [w32 0x000 1, w32 0x008 1, HostAction.reset],
      (fatalWith [a]).Inv ∧ (fatalWith [a]).fatal = true ∧ (fatalWith [a]).program = a :: [] ∧
        step (fatalWith [a]) = .next (stepped (fatalWith [a]))) := by
  intro a ha
  refine ⟨fatalWith_inv _, show (fatalWith []).fatal = true by decide +kernel, rfl, next_after _ ?_⟩
  revert a; decide +kernel

theorem witness_normal_end :
    let s := running tiny [w32 0x008 1]
    s.Inv ∧ HostAction.reset ∉ s.program ∧ Sys2Proof.core.run 1 s = .next (stepped s) ∧
      (stepped s).normalEnd = true := by
  refine ⟨running_inv _, by decide, ?_, by decide +kernel⟩
  have h : step (running tiny [w32 0x008 1]) = _ := next_after (running tiny [w32 0x008 1]) (by decide +kernel)
  simp only [Host.Core.run, show Sys2Proof.core.step (running tiny [w32 0x008 1]) = _ from h]
  rfl

theorem witness_reset_effect :
    (fatalWith [.reset]).legalConfig = true ∧ (fatalWith [.reset]).decoder = none ∧
    (fatalWith [.reset]).program = .reset :: [] := by decide +kernel

theorem witness_commands_after_reset : tiny.wf = true ∧ (1 ≤ 1 ∧ 0 = 0) ∧ running tiny [] = .launch tiny 1 [] 0 0 [] := by
  decide +kernel

/-- One command of each check: the word, INVALID twice, RANGE, CORRUPT twice, and completion. -/
theorem witness_check_order :
    isNext (exec (decodeCommand 0x11) (running tiny [])) = true ∧ rsvField 0x11 ≠ 0 ∧
    isNext (exec (decodeCommand 1) (machine tiny [0x41] 9 1)) = true ∧
    isNext (exec (decodeCommand 2) (machine tiny [0x41] 1 17)) = true ∧
    isNext (exec (decodeCommand 3) { running tiny [] with sector := 1 }) = true ∧
    isNext (exec (decodeCommand 4) (withBlock tiny [0x05, 0x00, 0x00, 0x00])) = true ∧
    isNext (exec (decodeCommand 4) (withBlock tinyStrict [0x01, 0x00, 0x00, 0x00, 0x41])) = true ∧
    isNext (exec (decodeCommand 3) atCap) = true ∧ (fatalWith []).fatal = true := by decide +kernel

/-- A misaligned read and a write to STATUS. -/
theorem witness_bus_error :
    (running tiny [.access ⟨.read, 32, 0x002, 0⟩]).legalConfig = true ∧
    (running tiny [.access ⟨.read, 32, 0x002, 0⟩]).decoder = none ∧ ¬readTaken tiny 32 0x002 ∧
    ¬writeTaken tiny 32 0x004 := by
  refine ⟨by decide +kernel, rfl, ?_, ?_⟩
  · rintro (⟨_, h, _⟩ | ⟨h, _⟩) <;> exact absurd h (by decide)
  · rintro (⟨_, _, ⟨r, h, hw⟩ | ⟨h, _⟩⟩ | ⟨h, _⟩)
    · cases r <;> first | exact absurd h (by decide) | exact absurd hw (by decide)
    · exact absurd h (by decide)
    · exact absurd h (by decide)

theorem witness_reads :
    let s := running tiny [.access ⟨.read, 32, 0x004, 0⟩]
    s.decoder = none ∧ step s = .next (stepped s) := by
  refine ⟨rfl, next_after _ ?_⟩; decide +kernel

/-- The last byte and the last word of IN. -/
theorem witness_operand_writes :
    (running tiny [w32 0x008 1]).legalConfig = true ∧ (running tiny [w32 0x008 1]).decoder = none ∧
    7 < tiny.inCap ∧ (4 % 4 = 0 ∧ 4 + 4 ≤ tiny.inCap) := by decide +kernel

theorem witness_mixed_width :
    (running tiny []).legalConfig = true ∧ 4 % 4 = 0 ∧ 4 + 4 ≤ Buffer.size tiny .inB ∧
    12 + 4 ≤ Buffer.size tiny .outB ∧ 8 + 4 ≤ Buffer.size tiny .physB := by decide +kernel

theorem witness_store_counters :
    exec .blockWrite atCap = .next (after (exec .blockWrite atCap) atCap) ∧
    exec .blockRead atCap = .next (after (exec .blockRead atCap) atCap) := by
  refine ⟨next_after _ ?_, next_after _ ?_⟩ <;> decide +kernel

/-- A step whose BLOCK_WRITE changes the first byte of the Store. -/
theorem witness_store_change :
    let s := { atCap with program := [w32 0x000 3] }
    s.legalConfig = true ∧ step s = .next (stepped s) ∧
      Memory.read storeBlank (stepped s).disk 0 ≠ Memory.read storeBlank s.disk 0 := by
  refine ⟨?_, next_after _ ?_, ?_⟩ <;> decide +kernel

theorem witness_launch_parameters :
    (running tiny []).Inv ∧ step (running tiny []) = .next (stepped (running tiny [])) ∧
    (State.launch tiny 0 [] 0 0 []).devSectors = 0 ∧ (State.launch tiny 0 [] 0 0 []).fatal = false :=
  ⟨running_inv _, next_after _ (by decide +kernel), rfl, by decide +kernel⟩

theorem witness_step_keeps_invariant :
    (running tiny [w32 0x000 3]).Inv ∧
    step (running tiny [w32 0x000 3]) = .next (stepped (running tiny [w32 0x000 3])) :=
  ⟨running_inv _, next_after _ (by decide +kernel)⟩

/-- A Store whose last byte is listed. -/
theorem witness_invariant_at_reset :
    tiny.wf = true ∧ devSectorsLegal (2 ^ 32 - 1) = true ∧ Memory.wf storeBlank [(11, 0x41)] ∧
    ∀ x ∈ ([(11, 0x41)] : Memory), x.1 < 1 * tiny.physSize := by decide +kernel

theorem witness_legal_and_illegal_configuration :
    (running tiny []).legalConfig = true ∧ (running { tiny with sectorSize := 4 } []).legalConfig = false := by
  decide +kernel

theorem witness_step_runs_command :
    (running tiny [w32 0x000 3]).legalConfig = true ∧ (running tiny [w32 0x000 3]).decoder = none ∧
    (running tiny [w32 0x000 3]).program = w32 0x000 3 :: [] := by decide +kernel

/-- A scan at a token, one at the end of its stream, and one without room. -/
theorem witness_step_runs_token :
    (∃ d, (scanning [0x41] 1).decoder = some d ∧ 0 < d.room ∧ decodeToken d.rest = .ok (.lit 0x41, [])) ∧
    (∃ d, (scanning [] 1).decoder = some d ∧ d.rest = []) ∧
    (∃ d, (scanning [0x41] 0).decoder = some d ∧ d.room = 0) ∧ (scanning [0x41] 1).legalConfig = true :=
  ⟨⟨_, rfl, by decide⟩, ⟨_, rfl, rfl⟩, ⟨_, rfl, rfl⟩, by decide +kernel⟩

end Sys2Proof.Machine.Tests
end

/-! SUPPORT. Runs of the machine: what each step keeps holds of every run (00_scope.md R17), every command answers a
next state and leaves the Host's program alone, the FATAL condition stays until a RESET (60_exceptions.md R130), and an
open scan's micro-steps come to its end (10_state.md R36). Then the obligations of 00_scope.md. -/

namespace Sys2Proof.Machine

/-! ## Runs -/

theorem run_succ_of_step {s u : State} (h : step s = .next u) (k : Nat) : core.run (k + 1) s = core.run k u := by
  simp only [Host.Core.run, show core.step s = .next u from h]

theorem run_one_of_step {s u : State} (h : step s = .next u) : core.run 1 s = .next u := run_succ_of_step h 0

/-- A run that answers a next state takes a first step that does. -/
theorem run_succ_next {s t : State} {k : Nat} (h : core.run (k + 1) s = .next t) :
    ∃ u, step s = .next u ∧ core.run k u = .next t := by
  cases hs : step s with
  | next u => exact ⟨u, rfl, run_succ_of_step hs k ▸ h⟩
  | fault r => simp [Host.Core.run, show core.step s = .fault r from hs] at h
  | refused r => simp [Host.Core.run, show core.step s = .refused r from hs] at h

/-- The rest of a run is a run from where its first part came to. -/
theorem run_add_of_run {s u : State} {j : Nat} (h : core.run j s = .next u) (m : Nat) :
    core.run (j + m) s = core.run m u := by
  induction j generalizing s with
  | zero => cases h; rw [Nat.zero_add]
  | succ j ih =>
    obtain ⟨v, hv, h⟩ := run_succ_next h
    rw [Nat.succ_add, run_succ_of_step hv, ih h]

/-- What every step keeps holds at the end of every run. -/
theorem run_keeps {P : State → Prop} (keeps : ∀ s t, P s → step s = .next t → P t) {k : Nat} {s t : State} (hs : P s)
    (h : core.run k s = .next t) : P t := by
  induction k generalizing s with
  | zero => cases h; exact hs
  | succ k ih =>
    obtain ⟨u, hu, h⟩ := run_succ_next h
    exact ih (keeps s u hs hu) h

/-! ## Commands -/

theorem format_decodeCommand (w : Word) : (decodeCommand w).format = .cmd := by
  rcases decodeCommand_cases w with ⟨_, h⟩ | ⟨_, h⟩ | ⟨_, h⟩ | ⟨_, h⟩ | ⟨_, h⟩ <;> rw [h] <;> rfl

/-- While STATUS.FATAL = 1 no command word executes anything (R130). -/
theorem exec_command_of_fatal {i : Instr} (hi : i.format = .cmd) {s : State} (hf : s.fatal = true) :
    exec i s = .next s := by
  cases i with
  | compress => rw [exec, execCompress, State.whenLive_of_fatal hf]
  | decompress => rw [exec, execDecompress, State.whenLive_of_fatal hf]
  | blockWrite => rw [exec, execBlockWrite, State.whenLive_of_fatal hf]
  | blockRead => rw [exec, execBlockRead, State.whenLive_of_fatal hf]
  | illegalCmd w => rw [exec, execIllegalCmd, State.whenLive_of_fatal hf]
  | run | lit0Tail | lit => cases hi

/-! ## The Host's program -/

namespace State

@[simp] theorem commitRead_program (s : State) (u : Unpacked) : (s.commitRead u).program = s.program := by
  cases u <;> rfl

@[simp] theorem closeDecoder_program (s : State) : s.closeDecoder.program = s.program := by
  cases hd : s.decoder with
  | none => rw [closeDecoder_none hd]
  | some d =>
    cases ho : d.owner with
    | decompress => rw [closeDecoder_decompress hd ho]; rfl
    | blockRead => rw [closeDecoder_blockRead hd ho, commitRead_program]

theorem windowWrite_program {s t : State} {w off : Nat} {v : Word} (h : s.windowWrite w off v = some t) :
    t.program = s.program := by
  rcases windowWrite_cases h with rfl | rfl | rfl | rfl | ⟨_, _, _, rfl⟩ <;> rfl

@[simp] theorem actionEffect_program (s : State) (a : HostAction) : (s.actionEffect a).program = s.program := by
  rcases s.actionEffect_cases a with ⟨_, e⟩ | ⟨_, t, r, e, rfl | ⟨w, off, v, h⟩⟩ <;> rw [e, respond_program]
  · exact resetEngine_program s
  · exact windowWrite_program h

end State

/-- A command always answers a next state (R10, R126), and leaves the Host's remaining actions alone. -/
theorem exec_command_next {i : Instr} (hi : i.format = .cmd) (s : State) :
    ∃ t, exec i s = .next t ∧ t.program = s.program := by
  cases i with
  | compress => rcases execCompress_cases s with ⟨_, e⟩ | ⟨_, _, e⟩ | ⟨_, _, e⟩ <;> exact ⟨_, e, rfl⟩
  | decompress =>
    rcases execDecompress_cases s with ⟨_, e⟩ | ⟨_, _, e⟩ | ⟨_, _, e⟩
    · exact ⟨_, e, rfl⟩
    · exact ⟨_, e, rfl⟩
    · exact ⟨_, e, State.closeDecoder_program _⟩
  | blockWrite =>
    rcases execBlockWrite_cases s with ⟨_, e⟩ | ⟨_, _, e⟩ | ⟨_, _, e⟩
    · exact ⟨_, e, rfl⟩
    · exact ⟨_, e, State.raiseFatal_program _ _⟩
    · exact ⟨_, e, by rw [State.commitWrite_program, State.devWrite_program, State.setPhys_program]⟩
  | blockRead =>
    rcases execBlockRead_cases s with ⟨_, e⟩ | ⟨_, _, e⟩ | ⟨_, _, _, e⟩ | ⟨_, _, _, e⟩ | ⟨_, _, _, e⟩
    · exact ⟨_, e, rfl⟩
    · exact ⟨_, e, State.raiseFatal_program _ _⟩
    · exact ⟨_, e, by rw [State.commitRead_program, State.latchBlock_program]⟩
    · exact ⟨_, e, by rw [State.raiseFatal_program, State.latchBlock_program]⟩
    · exact ⟨_, e, by
        rw [State.closeDecoder_program, State.runDecoder_program, State.openDecoder_program, State.latchBlock_program]⟩
  | illegalCmd w => rcases execIllegalCmd_cases w s with ⟨_, e⟩ | ⟨_, e⟩ <;> exact ⟨_, e, rfl⟩
  | run | lit0Tail | lit => cases hi

/-- A step takes at most the next action off the Host's program. -/
theorem step_program_suffix {s t : State} (h : step s = .next t) : t.program <:+ s.program := by
  obtain ⟨_, ⟨_, _, _, rfl⟩ | ⟨_, _, _, rfl⟩ | ⟨_, _, rfl⟩ | ⟨rest, w, _, hp, he⟩ | ⟨a, rest, _, hp, _, rfl⟩⟩ :=
    step_cases h
  · exact List.suffix_rfl
  · rw [State.closeDecoder_program]
  · exact List.suffix_rfl
  · obtain ⟨u, hu, hup⟩ := exec_command_next (format_decodeCommand w) ((s.withProgram rest).acceptCommand w)
    cases hu.symm.trans he
    rw [hup, hp]
    exact List.suffix_cons _ rest
  · rw [State.actionEffect_program, hp]
    exact List.suffix_cons a rest

theorem step_keeps_reset_notMem (s t : State) (hs : HostAction.reset ∉ s.program) (h : step s = .next t) :
    HostAction.reset ∉ t.program :=
  fun hm => hs ((step_program_suffix h).mem hm)

/-! ## The FATAL condition -/

namespace State

theorem closeDecoder_keeps_fatal {s : State} (hf : s.fatal = true) : s.closeDecoder.fatal = true := by
  cases hd : s.decoder with
  | none => rwa [closeDecoder_none hd]
  | some d =>
    cases ho : d.owner with
    | decompress => rw [closeDecoder_decompress hd ho]; exact (fatalBit_withErr _ _).trans hf
    | blockRead =>
      rw [closeDecoder_blockRead hd ho]
      cases unpackDecoded s.cfg s.hdr.toNat d.result with
      | corrupt => exact fatalBit_withFatal _
      | ok mode b cons prod => exact ((fatalBit_withErr _ _).trans (fatalBit_withMode _ _)).trans hf

theorem windowWrite_status {s t : State} {w off : Nat} {v : Word} (h : s.windowWrite w off v = some t) :
    t.status = s.status := by
  rcases windowWrite_cases h with rfl | rfl | rfl | rfl | ⟨_, _, _, rfl⟩ <;> rfl

/-- No host action but RESET changes STATUS (R21, R53). -/
theorem actionEffect_status {s : State} {a : HostAction} (ha : a ≠ .reset) :
    (s.actionEffect a).status = s.status := by
  rcases s.actionEffect_cases a with ⟨h, _⟩ | ⟨_, t, r, e, rfl | ⟨w, off, v, h⟩⟩
  · exact absurd h ha
  · rw [e, respond_status]
  · rw [e, respond_status, windowWrite_status h]

end State

/-- A step with no RESET left to make keeps the FATAL condition (R130, R136). -/
theorem step_keeps_fatal {s t : State} (hn : HostAction.reset ∉ s.program) (hf : s.fatal = true)
    (h : step s = .next t) : t.fatal = true := by
  obtain ⟨_, ⟨_, _, _, rfl⟩ | ⟨_, _, _, rfl⟩ | ⟨_, _, rfl⟩ | ⟨rest, w, _, hp, he⟩ | ⟨a, rest, _, hp, _, rfl⟩⟩ :=
    step_cases h
  · exact hf
  · exact State.closeDecoder_keeps_fatal hf
  · exact hf
  · have hf' : ((s.withProgram rest).acceptCommand w).fatal = true := hf
    cases (exec_command_of_fatal (format_decodeCommand w) hf').symm.trans he
    exact hf'
  · have ha : a ≠ .reset := fun e => hn (by simp [hp, e])
    exact (congrArg fatalBit (State.actionEffect_status ha)).trans hf

/-- The machine is in the FATAL condition, and the Host has no RESET left to leave it by (R136). -/
def State.StuckFatal (s : State) : Prop := HostAction.reset ∉ s.program ∧ s.fatal = true

theorem step_keeps_stuckFatal (s t : State) (hs : s.StuckFatal) (h : step s = .next t) : t.StuckFatal :=
  ⟨step_keeps_reset_notMem s t hs.1 h, step_keeps_fatal hs.1 hs.2 h⟩

theorem State.fatal_of_normalEnd {s : State} (h : s.normalEnd = true) : s.fatal = false := by
  simp only [normalEnd, Bool.and_eq_true, Bool.not_eq_true'] at h
  exact h.2

/-! ## The micro-steps of a scan -/

namespace State

@[simp] theorem openDecoder_legalConfig (s : State) (d : Decoder) : (s.openDecoder d).legalConfig = s.legalConfig := by
  rw [legalConfig, legalConfig, openDecoder_cfg, openDecoder_devSectors]

@[simp] theorem latchBlock_legalConfig (s : State) (p : List Byte) : (s.latchBlock p).legalConfig = s.legalConfig := by
  rw [legalConfig, legalConfig, latchBlock_cfg, latchBlock_devSectors]

end State

/-- The micro-steps of an open scan come to where running it to its end and closing it at once does (R36, R93). -/
theorem run_scan_closes {s : State} {d : Decoder} (hl : s.legalConfig = true) (hd : s.decoder = some d) :
    ∃ k, core.run k s = .next s.runDecoder.closeDecoder := by
  induction d using Decoder.scan_induction generalizing s with
  | done d hr =>
    have idle : s.runDecoder = s := by
      rw [State.runDecoder, hd, Option.map_some, Decoder.scan_of_not_ready hr, ← hd]
    rw [idle]
    exact ⟨1, run_one_of_step (step_of_plain hl (State.fetch_close hd hr))⟩
  | next d hr ih =>
    obtain ⟨i, ht⟩ := Decoder.token_of_ready hr
    have turn : step s = .next (s.openDecoder d.step) :=
      (step_of_instr hl (State.fetch_token hd hr ht)).trans (exec_token_at hd hr ht)
    have same : (s.openDecoder d.step).runDecoder = s.runDecoder := by
      simp only [State.runDecoder, State.openDecoder, hd, Option.map_some, Decoder.scan_of_ready hr]
    obtain ⟨k, hk⟩ := ih (s := s.openDecoder d.step) (by simpa using hl) rfl
    exact ⟨k + 1, by rw [run_succ_of_step turn, hk, same]⟩

/-! ## The obligations -/

/-- Settles O38: an opened scan's micro-steps come to its end, where the atomic command comes too. -/
theorem microStepsReachTheCommand : Obligations.MicroStepsReachTheCommand := by
  unfold Obligations.MicroStepsReachTheCommand
  refine ⟨fun s hl hf hi => ?_, fun s p hl hf hr hp hc => ?_⟩
  · obtain ⟨k, hk⟩ := run_scan_closes (s := s.openDecompress) (by simpa [State.openDecompress] using hl) rfl
    rcases execDecompress_cases s with ⟨h, _⟩ | ⟨_, h, _⟩ | ⟨_, _, e⟩
    · simp [hf] at h
    · simp [hi] at h
    · exact ⟨k, hk.trans e.symm⟩
  · subst hp
    obtain ⟨k, hk⟩ := run_scan_closes
      (s := (s.latchBlock s.readBlock).openDecoder (blockScan s.cfg s.readBlock (sizeField s.readBlock).toNat))
      (by simpa using hl) rfl
    rcases execBlockRead_cases s with ⟨h, _⟩ | ⟨_, h, _⟩ | ⟨_, _, h, _⟩ | ⟨_, _, h, _⟩ | ⟨_, _, _, e⟩
    · simp [hf] at h
    · exact absurd (s.sectorOutOfRange_iff.1 h) (by omega)
    · cases h.symm.trans hc
    · cases h.symm.trans hc
    · exact ⟨k, hk.trans e.symm⟩

/-- Settles O41: a fatal state on the way would stay fatal to the end of the run, with no RESET to leave it by. -/
theorem normalEndWasNeverFatal : Obligations.NormalEndWasNeverFatal := by
  unfold Obligations.NormalEndWasNeverFatal
  intro k s t _ hn hk he j u hj hu
  by_contra hf
  have hu' : u.StuckFatal := ⟨run_keeps step_keeps_reset_notMem hn hu, by simpa using hf⟩
  have rest : core.run (k - j) u = .next t := by
    rw [← run_add_of_run hu, Nat.add_sub_cancel' hj, hk]
  have ht : t.StuckFatal := run_keeps step_keeps_stuckFatal hu' rest
  exact absurd ht.2 (by simp [State.fatal_of_normalEnd he])

/-- Settles O56, along what the machine can do next: only a scan's token and a command run an instruction, and both
answer a next state. -/
theorem legalMachineNeverStops : Obligations.LegalMachineNeverStops := by
  unfold Obligations.LegalMachineNeverStops
  intro s hl
  rcases s.fetch_cases with ⟨d, i, hd, hr, ht, e⟩ | ⟨_, _, _, e⟩ | ⟨_, _, e⟩ | ⟨_, _, w, _, _, _, e⟩ |
    ⟨_, _, _, _, _, e⟩
  · exact ⟨_, (step_of_instr hl e).trans (exec_token_at hd hr ht)⟩
  · exact ⟨_, step_of_plain hl e⟩
  · exact ⟨_, step_of_plain hl e⟩
  · rw [step_of_instr hl e]
    obtain ⟨t, ht, _⟩ := exec_command_next (format_decodeCommand w) _
    exact ⟨t, ht⟩
  · exact ⟨_, step_of_plain hl e⟩

/-- Settles O57: a step from an illegal configuration is the refusal, and from a legal one it is a next state. -/
theorem illegalConfigurationRefused : Obligations.IllegalConfigurationRefused := by
  unfold Obligations.IllegalConfigurationRefused
  intro s
  rw [← s.legalConfig_iff]
  constructor
  · intro hl
    simp [step, hl]
  · intro h hl
    obtain ⟨t, ht⟩ := legalMachineNeverStops s hl
    cases ht.symm.trans h

end Sys2Proof.Machine

/-! SUPPORT. The state's invariant: how long a codec's results are (40_codec.md R90, R95), STATUS as a word a legal
machine can hold (10_state.md R22 to R24), and that each named update, each command and each step keeps the invariant.
Then the obligations of the invariant. -/

namespace Sys2Proof.Machine

/-! ## How long the codec's results are -/

/-- A piece costs less than twice its length, apart from a short zero of length 1 in ESCAPE mode (R85). -/
theorem length_emitPiece_lt (mode : ZeroLitMode) {v : Byte} {len : Nat} {tail : Bool} (hl : 1 ≤ len)
    (h : v ≠ Config.marker ∨ tail = true ∨ 2 ≤ len) : (emitPiece mode v len tail).length + 1 ≤ 2 * len := by
  unfold emitPiece
  split_ifs with h3 hv hm ht
  · simp only [Config.minRun, List.length_cons, List.length_nil] at *; omega
  · rw [List.length_replicate]; omega
  · rw [List.length_replicate]; omega
  · rw [List.length_replicate]; omega
  · have h2 : 2 ≤ len := by simpa [hv, ht] using h
    simp only [List.length_cons, List.length_nil]; omega

theorem length_emitPiece_one (mode : ZeroLitMode) (v : Byte) (tail : Bool) :
    (emitPiece mode v 1 tail).length ≤ 3 := by
  unfold emitPiece
  split_ifs <;> simp

/-- R90, with what an induction needs: an input that does not open with a zero has a byte to spare, which pays for a
short zero in front of it. -/
theorem length_encodeBytes_bounds (mode : ZeroLitMode) (x : List Byte) :
    (encodeBytes mode x).length ≤ 2 * x.length ∧
    (x ≠ [] → x.head? ≠ some Config.marker → (encodeBytes mode x).length + 1 ≤ 2 * x.length) := by
  induction hn : x.length using Nat.strong_induction_on generalizing x with
  | _ n ih =>
    cases x with
    | nil => simp
    | cons v bs =>
      have hp := pieceLen_pos v bs
      have hle := pieceLen_le_length v bs
      have hrest : ((v :: bs).drop (pieceLen (v :: bs))).length = n - pieceLen (v :: bs) := by
        rw [List.length_drop, hn]
      obtain ⟨ih1, ih2⟩ := ih _ (by omega) _ hrest
      rw [encodeBytes_cons, List.length_append]
      by_cases hc : v ≠ Config.marker ∨ inTail (v :: bs) = true ∨ 2 ≤ pieceLen (v :: bs)
      · have := length_emitPiece_lt mode hp hc
        constructor <;> intros <;> omega
      · obtain ⟨rfl, htail, hlen⟩ : v = Config.marker ∧ inTail (v :: bs) = false ∧ pieceLen (v :: bs) = 1 := by
          simp only [not_or, not_not, Bool.not_eq_true] at hc
          exact ⟨hc.1, hc.2.1, by omega⟩
        have hlong : 2 < (Config.marker :: bs).length := by
          rw [inTail, decide_eq_false_iff_not] at htail; omega
        have hne : (Config.marker :: bs).drop (pieceLen (Config.marker :: bs)) ≠ [] :=
          List.ne_nil_of_length_pos (by omega)
        have hrun := ih2 hne (head_drop_pieceLen (by omega))
        have h3 := length_emitPiece_one mode Config.marker (inTail (Config.marker :: bs))
        rw [← hlen] at h3
        exact ⟨by omega, fun _ h => absurd rfl h⟩

theorem length_encodeBytes_le (mode : ZeroLitMode) (x : List Byte) : (encodeBytes mode x).length ≤ 2 * x.length :=
  (length_encodeBytes_bounds mode x).1

@[simp] theorem Decoder.length_result_data (d : Decoder) : d.result.data.length = d.result.prod := d.length_out

theorem Decoder.result_prod_le (d : Decoder) : d.result.prod ≤ d.want := Nat.le_add_right _ _

@[simp] theorem Decoder.start_want (c : List Byte) (want : Nat) (o : Owner) : (Decoder.start c want o).want = want :=
  Nat.zero_add want

theorem length_decodeBytes_data (c : List Byte) (want : Nat) :
    (decodeBytes c want).data.length = (decodeBytes c want).prod := Decoder.length_result_data _

theorem decodeBytes_prod_le (c : List Byte) (want : Nat) : (decodeBytes c want).prod ≤ want := by
  have h := (Decoder.start c want .decompress).scan.result_prod_le
  rwa [Decoder.scan_want, Decoder.start_want] at h

theorem decodeBytes_cons_le (c : List Byte) (want : Nat) : (decodeBytes c want).cons ≤ c.length := by
  obtain ⟨_, _, hpos, _⟩ := (Decoder.start c want .decompress).scan_keeps
  have : (decodeBytes c want).cons + (Decoder.start c want .decompress).scan.rest.length = 0 + c.length := hpos
  omega

/-- A register never shows a length greater than the one written to it. -/
theorem toNat_ofNat_le {n m : Nat} (h : n ≤ m) : (BitVec.ofNat 32 n).toNat ≤ m := by
  rw [BitVec.toNat_ofNat]; exact (Nat.mod_le _ _).trans h

/-! ## STATUS -/

/-- A word STATUS can hold on a legal machine (R22 to R24): no reserved bit, a listed code, and FATAL exactly with a
fatal one. -/
structure StatusLegal (st : Word) : Prop where
  reserved : reservedBits st = 0
  err : ∃ e : ErrCode, errField st = e.code
  fatal_iff : fatalBit st = true ↔ ∃ c : FatalCode, errField st = c.err.code

theorem StatusLegal.zero : StatusLegal 0 where
  reserved := reservedBits_zero
  err := ⟨.none, rfl⟩
  fatal_iff := by
    rw [fatalBit_zero]
    exact ⟨nofun, fun ⟨c, h⟩ => by cases c <;> cases h⟩

theorem ErrCode.code_none : ErrCode.none.code = 0 := rfl

@[simp] theorem ErrCode.code_inj {e e' : ErrCode} : e.code = e'.code ↔ e = e' := by
  cases e <;> cases e' <;> decide

/-- The codes that end a command without a fatal error (R126). -/
theorem ErrCode.code_ne_fatal {e : ErrCode} (he : e ≠ .range ∧ e ≠ .corrupt) (c : FatalCode) : e.code ≠ c.err.code := by
  rw [Ne, ErrCode.code_inj]
  cases c with
  | range => exact he.1
  | corrupt => exact he.2

/-- A live machine's STATUS stays legal where a command ends with a non-fatal code. -/
theorem StatusLegal.withErr {st : Word} (hr : reservedBits st = 0) (hf : fatalBit st = false) {e : ErrCode}
    (he : e ≠ .range ∧ e ≠ .corrupt) : StatusLegal (withErr st e) where
  reserved := by rw [reservedBits_withErr, hr]
  err := ⟨e, errField_withErr st e⟩
  fatal_iff := by
    rw [fatalBit_withErr, errField_withErr, hf]
    exact ⟨nofun, fun ⟨c, h⟩ => absurd h (ErrCode.code_ne_fatal he c)⟩

/-- STATUS is legal after the fatal entry (R129). -/
theorem StatusLegal.withFatal {st : Word} (hr : reservedBits st = 0) (c : FatalCode) :
    StatusLegal (withFatal (Machine.withErr st c.err)) where
  reserved := by rw [reservedBits_withFatal, reservedBits_withErr, hr]
  err := ⟨c.err, by rw [errField_withFatal, errField_withErr]⟩
  fatal_iff := by
    rw [fatalBit_withFatal, errField_withFatal, errField_withErr]
    exact ⟨fun _ => ⟨c, rfl⟩, fun _ => rfl⟩

namespace State

theorem Inv.statusLegal {s : State} (h : s.Inv) : StatusLegal s.status := ⟨h.reserved, h.err, h.fatal_iff⟩

/-! ## The updates keep the invariant -/

theorem sectorSize_le_outCap {s : State} (hl : s.legalConfig = true) : s.cfg.sectorSize ≤ s.cfg.outCap := by
  obtain ⟨_, hS, _⟩ := s.legalConfig_iff.1 hl
  rw [Config.outCap]; omega

/-- The Host's side of the state is no part of the invariant. -/
theorem Inv.respond {s : State} (h : s.Inv) (r : Response) : (s.respond r).Inv := { h with }

theorem Inv.withProgram {s : State} (h : s.Inv) (p : List HostAction) : (s.withProgram p).Inv := { h with }

theorem Inv.acceptCommand {s : State} (h : s.Inv) (w : Word) : (s.acceptCommand w).Inv := { h with }

/-- The codes of a command's end on a live machine, and the fatal entry on one with no scan, keep the invariant. -/
theorem Inv.withStatus {s : State} (h : s.Inv) {st : Word} (hst : StatusLegal st)
    (hscan : ∀ d, s.decoder = some d → fatalBit st = false) : { s with status := st }.Inv :=
  { h with reserved := hst.reserved, err := hst.err, fatal_iff := hst.fatal_iff, scan_live := hscan }

theorem Inv.setErr {s : State} (h : s.Inv) (hf : s.fatal = false) {e : ErrCode} (he : e ≠ .range ∧ e ≠ .corrupt) :
    (s.setErr e).Inv :=
  h.withStatus (.withErr h.reserved hf he) fun _ _ => (fatalBit_withErr _ _).trans hf

theorem Inv.raiseFatal {s : State} (h : s.Inv) (hd : s.decoder = none) (c : FatalCode) : (s.raiseFatal c).Inv :=
  h.withStatus (.withFatal h.reserved c) fun d hd' => by rw [hd] at hd'; cases hd'

theorem Inv.failInvalid {s : State} (h : s.Inv) (hf : s.fatal = false) : s.failInvalid.Inv :=
  { h.setErr hf (e := .invalid) (by decide) with out_len := Nat.zero_le _ }

theorem Inv.setPhys {s : State} (h : s.Inv) {blk : List Byte} (hb : blk.length ≤ s.cfg.physSize) :
    (s.setPhys blk).Inv :=
  { h with phys_wf := Memory.bufferOf_wf blk, phys_below := Memory.bufferOf_below hb }

theorem Inv.latchBlock {s : State} (h : s.Inv) {p : List Byte} (hp : p.length ≤ s.cfg.physSize) :
    (s.latchBlock p).Inv := { h.setPhys hp with }

/-- A block written to a sector the Store has stays inside the Store. -/
theorem Inv.devWrite {s : State} (h : s.Inv) {sec : Nat} {blk : List Byte} (hsec : sec < s.devSectors)
    (hb : blk.length = s.cfg.physSize) : (s.devWrite sec blk).Inv :=
  { h with
    disk_wf := Memory.write_wf h.disk_wf _ _
    disk_below := by
      refine Memory.write_below h.disk_below ?_
      calc s.blockBase sec + blk.length = (sec + 1) * s.cfg.physSize := by rw [hb, blockBase, Nat.succ_mul]
        _ ≤ s.devSectors * s.cfg.physSize := Nat.mul_le_mul_right _ hsec }

theorem Inv.openDecoder {s : State} (h : s.Inv) (hf : s.fatal = false) {d : Decoder} (hd : d.Fits s.cfg) :
    (s.openDecoder d).Inv :=
  { h with scan_fits := by rintro _ ⟨⟩; exact hd, scan_live := fun _ _ => hf }

theorem Inv.dropDecoder {s : State} (h : s.Inv) : { s with decoder := none }.Inv :=
  { h with scan_fits := nofun, scan_live := nofun }

/-- A result that fits OUT, its lengths, and a command's end (R29, R32, R34). -/
theorem Inv.takeResult {s : State} (h : s.Inv) {b : List Byte} {n cons p st : Word} (hb : b.length ≤ s.cfg.outCap)
    (hn : n.toNat ≤ s.cfg.outCap) (hp : p.toNat ≤ s.cfg.outCap) (hst : StatusLegal st) (hf : fatalBit st = false) :
    { s with outBuf := bufferOf (zeroPadded s.cfg.outCap b), outLen := n, consumed := cons, produced := p,
             status := st }.Inv :=
  { h.withStatus hst fun _ _ => hf with
    out_wf := Memory.bufferOf_wf _
    out_below := Memory.bufferOf_below (by
      simp only [zeroPadded, List.length_append, List.length_replicate]; omega)
    out_len := hn
    produced := hp }

theorem Inv.commitCompress {s : State} (h : s.Inv) (hf : s.fatal = false) {z : List Byte}
    (hz : z.length ≤ s.cfg.outCap) : (s.commitCompress z).Inv :=
  h.takeResult hz (toNat_ofNat_le hz) (toNat_ofNat_le hz) (.withErr h.reserved hf (by decide))
    ((fatalBit_withErr _ _).trans hf)

theorem Inv.commitDecompress {s : State} (h : s.Inv) (hf : s.fatal = false) {want : Nat} {r : Decoded}
    (hw : want ≤ s.cfg.outCap) (hr : r.prod ≤ want) (hd : r.data.length = r.prod) : (s.commitDecompress want r).Inv :=
  h.takeResult (by omega) (toNat_ofNat_le hw) (toNat_ofNat_le (hr.trans hw)) (.withErr h.reserved hf (by decide))
    ((fatalBit_withErr _ _).trans hf)

/-- A BLOCK_READ's end with a logical block. -/
theorem Inv.commitRead_ok {s : State} (h : s.Inv) (hf : s.fatal = false) {m : BlockMode} {b : List Byte}
    {cons prod : Nat} (hb : b.length = s.cfg.sectorSize) (hp : prod ≤ s.cfg.sectorSize) :
    (s.commitRead (.ok m b cons prod)).Inv :=
  have hS := sectorSize_le_outCap h.config
  h.takeResult (hb ▸ hS) (toNat_ofNat_le hS) (toNat_ofNat_le (hp.trans hS))
    (.withErr (by rw [reservedBits_withMode, h.reserved]) (by rw [fatalBit_withMode]; exact hf) (by decide))
    (by rw [fatalBit_withErr, fatalBit_withMode]; exact hf)

theorem Inv.commitWrite {s : State} (h : s.Inv) (hf : s.fatal = false) (sel : Selection) : (s.commitWrite sel).Inv :=
  have hf' : fatalBit (withMode s.status sel.mode) = false := (fatalBit_withMode _ _).trans hf
  { h.withStatus (.withErr (by rw [reservedBits_withMode, h.reserved]) hf' (by decide))
      fun _ _ => (fatalBit_withErr _ _).trans hf' with }

/-- After reset every buffer is empty and STATUS is 0; the Store is the launch argument (R41, R147). -/
theorem launch_inv {c : Config} {n : Nat} {m : Memory} (rd wr : Word) (p : List HostAction)
    (hl : (c.wf && devSectorsLegal n) = true) (hm : Memory.wf storeBlank m) (hb : ∀ x ∈ m, x.1 < n * c.physSize) :
    (launch c n m rd wr p).Inv where
  config := hl
  in_wf := ⟨.nil, nofun⟩
  in_below := nofun
  out_wf := ⟨.nil, nofun⟩
  out_below := nofun
  phys_wf := ⟨.nil, nofun⟩
  phys_below := nofun
  disk_wf := hm
  disk_below := hb
  reserved := StatusLegal.zero.reserved
  err := StatusLegal.zero.err
  fatal_iff := StatusLegal.zero.fatal_iff
  out_len := Nat.zero_le _
  produced := Nat.zero_le _
  scan_fits := nofun
  scan_live := nofun

/-- RESET brings the Engine back to where a launch on the same Store starts (R41, R147). -/
theorem Inv.resetEngine {s : State} (h : s.Inv) : s.resetEngine.Inv :=
  { launch_inv s.rdCnt s.wrCnt s.program h.config h.disk_wf h.disk_below with }

end State

/-! ## Scans keep the invariant -/

theorem Decoder.Fits.step {c : Config} {d : Decoder} (h : d.Fits c) (hr : d.ready = true) : d.step.Fits c := by
  obtain ⟨ho, hw, _, _⟩ := Decoder.step_keeps hr
  exact ⟨hw ▸ h.want_le, fun e => hw ▸ h.block (ho ▸ e)⟩

theorem Decoder.Fits.scan {c : Config} {d : Decoder} (h : d.Fits c) : d.scan.Fits c :=
  ⟨d.scan_want ▸ h.want_le, fun e => d.scan_want ▸ h.block (d.scan_owner ▸ e)⟩

namespace State

theorem Inv.runDecoder {s : State} (h : s.Inv) : s.runDecoder.Inv where
  __ := h
  scan_fits := by
    intro _ hscan
    obtain ⟨d, hd, rfl⟩ := Option.map_eq_some_iff.1 hscan
    exact (h.scan_fits d hd).scan
  scan_live := by
    intro _ hscan
    obtain ⟨d, hd, rfl⟩ := Option.map_eq_some_iff.1 hscan
    exact h.scan_live d hd

/-- What the read side of the mux makes of a decode for S bytes is CORRUPT or a logical block. -/
theorem Inv.commitRead_unpackDecoded {s : State} (h : s.Inv) (hf : s.fatal = false) (hd : s.decoder = none) (n : Nat)
    {r : Decoded} (hr : r.prod ≤ s.cfg.sectorSize) (hl : r.data.length = r.prod) :
    (s.commitRead (unpackDecoded s.cfg n r)).Inv := by
  rcases unpackDecoded_cases s.cfg n r with ⟨e, _⟩ | ⟨e, _⟩ <;> rw [e]
  · exact h.raiseFatal hd .corrupt
  · exact h.commitRead_ok hf (by rw [List.length_append, List.length_replicate, hl]; omega) hr

theorem Inv.closeDecoder {s : State} (h : s.Inv) : s.closeDecoder.Inv := by
  cases hd : s.decoder with
  | none => rwa [closeDecoder_none hd]
  | some d =>
    have hf := h.scan_live d hd
    have fits := h.scan_fits d hd
    cases ho : d.owner with
    | decompress =>
      rw [closeDecoder_decompress hd ho]
      exact h.dropDecoder.commitDecompress hf fits.want_le d.result_prod_le d.length_result_data
    | blockRead =>
      rw [closeDecoder_blockRead hd ho]
      exact h.dropDecoder.commitRead_unpackDecoded hf rfl _ (fits.block ho ▸ d.result_prod_le) d.length_result_data

end State

/-! ## Commands keep the invariant -/

namespace State

theorem compressInvalid_eq_false_iff (s : State) : s.compressInvalid = false ↔
    1 ≤ s.inLen.toNat ∧ s.inLen.toNat ≤ s.cfg.inCap := by
  rw [← Bool.not_eq_true, compressInvalid_iff]; omega

theorem decompressInvalid_eq_false_iff (s : State) : s.decompressInvalid = false ↔
    1 ≤ s.inLen.toNat ∧ s.inLen.toNat ≤ s.cfg.inCap ∧ 1 ≤ s.origLen.toNat ∧ s.origLen.toNat ≤ s.cfg.outCap := by
  rw [← Bool.not_eq_true, decompressInvalid_iff]; omega

theorem sectorOutOfRange_eq_false_iff (s : State) : s.sectorOutOfRange = false ↔ s.sector.toNat < s.devSectors := by
  rw [← Bool.not_eq_true, sectorOutOfRange_iff]; omega

end State

theorem State.length_packed {s : State} (hl : s.legalConfig = true) : s.packed.length = s.cfg.physSize :=
  length_pack_selectWrite (s.legalConfig_iff.1 hl).1 s.length_logicalBlock

/-- The stream of a legal IN_LEN fits OUT (R90). -/
theorem State.length_encodeBytes_codecInput_le {s : State} (h : s.compressInvalid = false) :
    (encodeBytes s.cfg.zeroLitMode s.codecInput).length ≤ s.cfg.outCap := by
  obtain ⟨_, hle⟩ := s.compressInvalid_eq_false_iff.1 h
  have hin : s.codecInput.length = s.inLen.toNat := s.length_inBytes _
  have := length_encodeBytes_le s.cfg.zeroLitMode s.codecInput
  simp only [Config.outCap]; omega

/-- A command of a machine with no scan open keeps the invariant. -/
theorem exec_command_keeps_inv {i : Instr} (hi : i.format = .cmd) {s t : State} (h : s.Inv) (hd : s.decoder = none)
    (he : exec i s = .next t) : t.Inv := by
  cases i with
  | compress =>
    rcases execCompress_cases s with ⟨_, e⟩ | ⟨hf, _, e⟩ | ⟨hf, hv, e⟩ <;> cases e.symm.trans he
    · exact h
    · exact h.failInvalid hf
    · exact h.commitCompress hf (State.length_encodeBytes_codecInput_le hv)
  | decompress =>
    rcases execDecompress_cases s with ⟨_, e⟩ | ⟨hf, _, e⟩ | ⟨hf, hv, e⟩ <;> cases e.symm.trans he
    · exact h
    · exact h.failInvalid hf
    · obtain ⟨_, _, _, hw⟩ := s.decompressInvalid_eq_false_iff.1 hv
      exact (h.openDecoder hf ⟨(Decoder.start_want _ _ _).trans_le hw, fun e => by cases e⟩).runDecoder.closeDecoder
  | blockWrite =>
    rcases execBlockWrite_cases s with ⟨_, e⟩ | ⟨_, _, e⟩ | ⟨hf, hr, e⟩ <;> cases e.symm.trans he
    · exact h
    · exact h.raiseFatal hd .range
    · have hlen := State.length_packed h.config
      exact ((h.setPhys hlen.le).devWrite (s.sectorOutOfRange_eq_false_iff.1 hr) hlen).commitWrite hf _
  | blockRead =>
    have latched : (s.latchBlock s.readBlock).Inv := h.latchBlock (s.length_block _).le
    rcases execBlockRead_cases s with ⟨_, e⟩ | ⟨_, _, e⟩ | ⟨hf, _, _, e⟩ | ⟨_, _, _, e⟩ | ⟨hf, _, _, e⟩ <;>
      cases e.symm.trans he
    · exact h
    · exact h.raiseFatal hd .range
    · obtain ⟨b, n, eu, hn, hb⟩ := unpackRaw_ok s.cfg s.readBlock
      rw [eu]
      exact latched.commitRead_ok hf (hb (s.legalConfig_iff.1 h.config).1 (s.length_block _)) hn
    · exact latched.raiseFatal hd .corrupt
    · refine (latched.openDecoder hf ⟨?_, fun _ => Decoder.start_want _ _ _⟩).runDecoder.closeDecoder
      exact (Decoder.start_want _ _ _).trans_le (State.sectorSize_le_outCap h.config)
  | illegalCmd w =>
    rcases execIllegalCmd_cases w s with ⟨_, e⟩ | ⟨hf, e⟩ <;> cases e.symm.trans he
    · exact h
    · exact h.setErr hf (by decide)
  | run | lit0Tail | lit => cases hi

/-! ## Host actions keep the invariant -/

namespace State

theorem Inv.windowWrite {s t : State} (h : s.Inv) {w off : Nat} {v : Word} (he : s.windowWrite w off v = some t) :
    t.Inv := by
  rcases windowWrite_cases he with rfl | rfl | rfl | rfl | ⟨i, bs, hle, rfl⟩
  · exact { h with }
  · exact { h with }
  · exact { h with }
  · exact { h with }
  · exact { h with in_wf := Memory.write_wf h.in_wf i bs, in_below := Memory.write_below h.in_below hle }

theorem Inv.actionEffect {s : State} (h : s.Inv) (a : HostAction) : (s.actionEffect a).Inv := by
  rcases s.actionEffect_cases a with ⟨_, e⟩ | ⟨_, t, r, e, rfl | ⟨w, off, v, hw⟩⟩ <;> rw [e]
  · exact h.resetEngine.respond _
  · exact h.respond _
  · exact (h.windowWrite hw).respond _

end State

/-! ## The obligations of the invariant -/

/-- Settles O54, along what a step can have done. -/
theorem stepKeepsInvariant : Obligations.StepKeepsInvariant := by
  unfold Obligations.StepKeepsInvariant
  intro s t h hs
  obtain ⟨_, ⟨d, hd, hr, rfl⟩ | ⟨_, _, _, rfl⟩ | ⟨_, _, rfl⟩ | ⟨rest, w, hd, _, he⟩ | ⟨a, rest, _, _, _, rfl⟩⟩ :=
    step_cases hs
  · exact h.openDecoder (h.scan_live d hd) ((h.scan_fits d hd).step hr)
  · exact h.closeDecoder
  · exact h
  · exact exec_command_keeps_inv (format_decodeCommand w) ((h.withProgram rest).acceptCommand w) hd he
  · exact (h.withProgram rest).actionEffect a

/-- Settles O55: after reset the buffers are empty and STATUS is 0, and the Store is the launch argument. -/
theorem invariantAtReset : Obligations.InvariantAtReset := by
  unfold Obligations.InvariantAtReset
  refine ⟨fun c n m rd wr p hc hn hm hb => ?_, ?_⟩
  · exact State.launch_inv rd wr p (Bool.and_eq_true_iff.2 ⟨hc, hn⟩) hm hb
  · exact State.launch_inv 0 0 [] (by decide) ⟨.nil, nofun⟩ nofun

end Sys2Proof.Machine

/-! SUPPORT. The frames of the commands (10_state.md R40): the results a command writes, what each instruction, each
host action and each step leaves of the Store and the parameters, and the obligations about commands' results, frames
and Store accesses. -/

namespace Sys2Proof.Machine

/-! ## What only the results of a command change -/

namespace State

/-- `t` is `s` but for a command's results and its scan: OUT, OUT_LEN, CONSUMED, PRODUCED, STATUS's fields (R40). -/
def ResultsOnly (s t : State) : Prop :=
  ∃ out outLen cons prod st d, reservedBits st = reservedBits s.status ∧
    t = { s with outBuf := out, outLen := outLen, consumed := cons, produced := prod, status := st, decoder := d }

theorem ResultsOnly.refl (s : State) : s.ResultsOnly s := ⟨_, _, _, _, _, _, rfl, rfl⟩

theorem resultsOnly_decoder (s : State) (d : Option Decoder) : s.ResultsOnly { s with decoder := d } :=
  ⟨_, _, _, _, _, _, rfl, rfl⟩

theorem resultsOnly_setErr (s : State) (e : ErrCode) : s.ResultsOnly (s.setErr e) :=
  ⟨_, _, _, _, _, _, reservedBits_withErr _ _, rfl⟩

theorem resultsOnly_failInvalid (s : State) : s.ResultsOnly s.failInvalid :=
  ⟨_, _, _, _, _, _, reservedBits_withErr _ _, rfl⟩

theorem resultsOnly_raiseFatal (s : State) (c : FatalCode) : s.ResultsOnly (s.raiseFatal c) :=
  ⟨_, _, _, _, _, _, (reservedBits_withFatal _).trans (reservedBits_withErr _ _), rfl⟩

theorem resultsOnly_commitCompress (s : State) (z : List Byte) : s.ResultsOnly (s.commitCompress z) :=
  ⟨_, _, _, _, _, _, reservedBits_withErr _ _, rfl⟩

theorem resultsOnly_commitDecompress (s : State) (d : Option Decoder) (want : Nat) (r : Decoded) :
    s.ResultsOnly ({ s with decoder := d }.commitDecompress want r) :=
  ⟨_, _, _, _, _, _, reservedBits_withErr _ _, rfl⟩

theorem resultsOnly_commitRead (s : State) (d : Option Decoder) (u : Unpacked) :
    s.ResultsOnly ({ s with decoder := d }.commitRead u) := by
  cases u with
  | corrupt => exact ⟨_, _, _, _, _, _, (reservedBits_withFatal _).trans (reservedBits_withErr _ _), rfl⟩
  | ok => exact ⟨_, _, _, _, _, _, (reservedBits_withErr _ _).trans (reservedBits_withMode _ _), rfl⟩

theorem resultsOnly_closeDecoder (s : State) : s.ResultsOnly s.closeDecoder := by
  cases hd : s.decoder with
  | none => rw [closeDecoder_none hd]; exact .refl s
  | some d =>
    cases ho : d.owner with
    | decompress => rw [closeDecoder_decompress hd ho]; exact s.resultsOnly_commitDecompress none _ _
    | blockRead => rw [closeDecoder_blockRead hd ho]; exact s.resultsOnly_commitRead none _

/-- A live BLOCK_READ's end that is FATAL is CORRUPT: it writes no result and keeps MODE (R112, R129). -/
theorem commitRead_keeps_of_fatal {s : State} (hf : s.fatal = false) {u : Unpacked}
    (h : fatalBit (s.commitRead u).status = true) :
    (s.commitRead u).outBuf = s.outBuf ∧ (s.commitRead u).outLen = s.outLen ∧
      (s.commitRead u).consumed = s.consumed ∧ (s.commitRead u).produced = s.produced ∧
      modeBit (s.commitRead u).status = modeBit s.status := by
  cases u with
  | corrupt => exact ⟨rfl, rfl, rfl, rfl, (modeBit_withFatal _).trans (modeBit_withErr _ _)⟩
  | ok m b cons prod =>
    rw [commitRead_ok_status, fatalBit_withErr, fatalBit_withMode] at h
    cases h.symm.trans hf

theorem commitRead_decoder (s : State) (u : Unpacked) : (s.commitRead u).decoder = s.decoder := by
  cases u <;> rfl

end State

/-! ## The outcomes of the decoding commands -/

theorem execDecompress_of_live {s : State} (hf : s.fatal = false) (hv : s.decompressInvalid = false) :
    execDecompress s = .next ({ s with decoder := none }.commitDecompress s.requestedLength
      (decodeBytes s.codecInput s.requestedLength)) := by
  rcases execDecompress_cases s with ⟨h, _⟩ | ⟨_, h, _⟩ | ⟨_, _, e⟩
  · cases h.symm.trans hf
  · cases h.symm.trans hv
  · rw [e, State.openDecompress, State.open_run_close_decompress rfl, result_scan_start, Decoder.start_want]

/-- Everything a BLOCK_READ can come to: nothing, RANGE, or the end `u` of a read it has latched (R112). -/
theorem execBlockRead_outcomes (s : State) :
    (s.fatal = true ∧ execBlockRead s = .next s) ∨
    (s.fatal = false ∧ s.devSectors ≤ s.sector.toNat ∧ execBlockRead s = .next (s.raiseFatal .range)) ∨
    (s.fatal = false ∧ s.sector.toNat < s.devSectors ∧ ∃ d u, (d = s.decoder ∨ d = none) ∧
      execBlockRead s = .next ({ s.latchBlock s.readBlock with decoder := d }.commitRead u)) := by
  rcases execBlockRead_cases s with ⟨hf, e⟩ | ⟨hf, hr, e⟩ | ⟨hf, hr, _, e⟩ | ⟨hf, hr, _, e⟩ | ⟨hf, hr, _, e⟩
  · exact .inl ⟨hf, e⟩
  · exact .inr (.inl ⟨hf, s.sectorOutOfRange_iff.1 hr, e⟩)
  · exact .inr (.inr ⟨hf, s.sectorOutOfRange_eq_false_iff.1 hr, _, _, .inl rfl, e⟩)
  · exact .inr (.inr ⟨hf, s.sectorOutOfRange_eq_false_iff.1 hr, _, .corrupt, .inl rfl, e⟩)
  · exact .inr (.inr ⟨hf, s.sectorOutOfRange_eq_false_iff.1 hr, none, _, .inr rfl,
      e.trans (congrArg Host.Outcome.next (State.open_run_close_blockRead rfl))⟩)

/-- A BLOCK_READ that completes ends with a logical block whose mode its size field says (R108, R112). -/
theorem execBlockRead_completed {s t : State} (hl : s.legalConfig = true) (hf : s.fatal = false)
    (he : execBlockRead s = .next t) (hn : errField t.status = ErrCode.none.code) :
    ∃ d m b cons prod, t = { s.latchBlock s.readBlock with decoder := d }.commitRead (.ok m b cons prod) ∧
      b.length = s.cfg.sectorSize ∧ prod ≤ s.cfg.sectorSize ∧
      ((sizeField s.readBlock).toNat = 0 ↔ m.toBool = false) ∧ (sizeField s.readBlock).toNat ≤ s.cfg.cap := by
  have hr : s.sector.toNat < s.devSectors := by
    by_contra hr
    rcases execBlockRead_outcomes s with ⟨h, _⟩ | ⟨_, _, e⟩ | ⟨_, h, _⟩
    · cases h.symm.trans hf
    · cases e.symm.trans he; simp [FatalCode.err] at hn
    · exact hr h
  rcases execBlockRead_of_live hf hr with ⟨hc, e⟩ | ⟨_, e⟩ | ⟨hc, e⟩ <;> cases e.symm.trans he
  · obtain ⟨b, n, eu, hprod, hb⟩ := unpackRaw_ok s.cfg s.readBlock
    have h0 := classify_raw_iff.1 hc
    exact ⟨_, .raw, b, 0, n, by rw [eu], hb (s.legalConfig_iff.1 hl).1 (s.length_block _), hprod,
      iff_of_true h0 rfl, by omega⟩
  · simp [FatalCode.err] at hn
  · obtain ⟨h1, hcap⟩ := classify_encoded_iff.1 hc
    rcases unpackDecoded_cases s.cfg (sizeField s.readBlock).toNat (decodeBytes
      (slice s.readBlock 4 (4 + (sizeField s.readBlock).toNat)) s.cfg.sectorSize) with ⟨eu, _⟩ | ⟨eu, _⟩ <;>
      rw [eu] at hn ⊢
    · simp [FatalCode.err] at hn
    · refine ⟨_, .encoded, _, _, _, rfl, ?_, decodeBytes_prod_le _ _, iff_of_false (by omega) nofun, hcap⟩
      have hprod := decodeBytes_prod_le (slice s.readBlock 4 (4 + (sizeField s.readBlock).toNat)) s.cfg.sectorSize
      rw [List.length_append, List.length_replicate, length_decodeBytes_data]; omega

/-! ## What each instruction does to the Store and the rest of the state -/

/-- Where a live BLOCK_WRITE with its sector in range comes to (R111). -/
abbrev State.stored (s : State) : State :=
  ((s.setPhys s.packed).devWrite s.sectorIndex s.packed).commitWrite (selectWrite s.cfg s.logicalBlock)

/-- Every instruction that answers a next state writes results only, apart from a live block command in range, which
writes its sector's block or latches it first (R40, R123). -/
theorem exec_cases {i : Instr} {s t : State} (he : exec i s = .next t) :
    (i = .blockWrite ∧ s.fatal = false ∧ s.sector.toNat < s.devSectors ∧ t = s.stored) ∨
    (i = .blockRead ∧ s.fatal = false ∧ s.sector.toNat < s.devSectors ∧ (s.latchBlock s.readBlock).ResultsOnly t) ∨
    (¬((i = .blockWrite ∨ i = .blockRead) ∧ s.fatal = false ∧ s.sector.toNat < s.devSectors) ∧ s.ResultsOnly t) := by
  have token (h : i.format = .rleToken) : s.ResultsOnly t := by
    obtain ⟨d, _, _, _, rfl⟩ := State.tokenStep_next (exec_of_token h s ▸ he)
    exact s.resultsOnly_decoder _
  cases i with
  | compress =>
    refine .inr (.inr ⟨by simp, ?_⟩)
    rcases execCompress_cases s with ⟨_, e⟩ | ⟨_, _, e⟩ | ⟨_, _, e⟩ <;> cases e.symm.trans he
    exacts [.refl s, s.resultsOnly_failInvalid, s.resultsOnly_commitCompress _]
  | decompress =>
    refine .inr (.inr ⟨by simp, ?_⟩)
    rcases execDecompress_cases s with ⟨_, e⟩ | ⟨_, _, e⟩ | ⟨hf, hv, _⟩
    · cases e.symm.trans he; exact .refl s
    · cases e.symm.trans he; exact s.resultsOnly_failInvalid
    · cases (execDecompress_of_live hf hv).symm.trans he; exact s.resultsOnly_commitDecompress none _ _
  | blockWrite =>
    rcases execBlockWrite_cases s with ⟨hf, e⟩ | ⟨_, hr, e⟩ | ⟨hf, hr, e⟩ <;> cases e.symm.trans he
    · exact .inr (.inr ⟨by simp [hf], .refl s⟩)
    · exact .inr (.inr ⟨by have := s.sectorOutOfRange_iff.1 hr; omega, s.resultsOnly_raiseFatal _⟩)
    · exact .inl ⟨rfl, hf, s.sectorOutOfRange_eq_false_iff.1 hr, rfl⟩
  | blockRead =>
    rcases execBlockRead_outcomes s with ⟨hf, e⟩ | ⟨_, hr, e⟩ | ⟨hf, hr, d, u, _, e⟩ <;> cases e.symm.trans he
    · exact .inr (.inr ⟨by simp [hf], .refl s⟩)
    · exact .inr (.inr ⟨by omega, s.resultsOnly_raiseFatal _⟩)
    · exact .inr (.inl ⟨rfl, hf, hr, (s.latchBlock _).resultsOnly_commitRead d u⟩)
  | illegalCmd w =>
    refine .inr (.inr ⟨by simp, ?_⟩)
    rcases execIllegalCmd_cases w s with ⟨_, e⟩ | ⟨_, e⟩ <;> cases e.symm.trans he
    exacts [.refl s, s.resultsOnly_setErr _]
  | run | lit0Tail | lit => exact .inr (.inr ⟨by simp, token rfl⟩)

/-- What a codec command keeps of STATUS and the scan, and that one which ends INVALID leaves no result (R40, R126). -/
theorem exec_codec_keeps {i : Instr} {s t : State} (hi : i = .compress ∨ i = .decompress) (he : exec i s = .next t) :
    fatalBit t.status = fatalBit s.status ∧ modeBit t.status = modeBit s.status ∧
      (t.decoder = s.decoder ∨ t.decoder = none) ∧
      (errField t.status = ErrCode.invalid.code →
        t.outBuf = s.outBuf ∧ t.consumed = s.consumed ∧ t.produced = s.produced) := by
  have completed {st : Word} {p : Prop} (h : errField (withErr st .none) = ErrCode.invalid.code) : p := by
    rw [errField_withErr, ErrCode.code_inj] at h; cases h
  rcases hi with rfl | rfl
  · rcases execCompress_cases s with ⟨_, e⟩ | ⟨_, _, e⟩ | ⟨_, _, e⟩ <;> cases e.symm.trans he
    · exact ⟨rfl, rfl, .inl rfl, fun _ => ⟨rfl, rfl, rfl⟩⟩
    · exact ⟨fatalBit_withErr _ _, modeBit_withErr _ _, .inl rfl, fun _ => ⟨rfl, rfl, rfl⟩⟩
    · exact ⟨fatalBit_withErr _ _, modeBit_withErr _ _, .inl rfl, completed⟩
  · rcases execDecompress_cases s with ⟨_, e⟩ | ⟨_, _, e⟩ | ⟨hf, hv, _⟩
    · cases e.symm.trans he
      exact ⟨rfl, rfl, .inl rfl, fun _ => ⟨rfl, rfl, rfl⟩⟩
    · cases e.symm.trans he
      exact ⟨fatalBit_withErr _ _, modeBit_withErr _ _, .inl rfl, fun _ => ⟨rfl, rfl, rfl⟩⟩
    · cases (execDecompress_of_live hf hv).symm.trans he
      exact ⟨fatalBit_withErr _ _, modeBit_withErr _ _, .inr rfl, completed⟩

/-- What a BLOCK_READ keeps of the scan, and that one which ends FATAL leaves no result of its own (R112, R129). -/
theorem execBlockRead_keeps {s t : State} (he : execBlockRead s = .next t) :
    (t.decoder = s.decoder ∨ t.decoder = none) ∧
    (fatalBit t.status = true → t.outBuf = s.outBuf ∧ t.outLen = s.outLen ∧ t.consumed = s.consumed ∧
      t.produced = s.produced ∧ modeBit t.status = modeBit s.status) := by
  rcases execBlockRead_outcomes s with ⟨_, e⟩ | ⟨_, _, e⟩ | ⟨hf, _, d, u, hd, e⟩ <;> cases e.symm.trans he
  · exact ⟨.inl rfl, fun _ => ⟨rfl, rfl, rfl, rfl, rfl⟩⟩
  · exact ⟨.inl rfl, fun _ => ⟨rfl, rfl, rfl, rfl, by simp⟩⟩
  · refine ⟨by rwa [State.commitRead_decoder], fun h => ?_⟩
    have live : { s.latchBlock s.readBlock with decoder := d }.fatal = false := by simpa [State.fatal] using hf
    simpa using State.commitRead_keeps_of_fatal live h

/-! ## What a step does to the Store and the parameters -/

/-- A host action that starts no command touches neither the Store nor the parameters (R37, R41, R53). -/
theorem State.actionEffect_store (s : State) (a : HostAction) :
    (s.actionEffect a).cfg = s.cfg ∧ (s.actionEffect a).devSectors = s.devSectors ∧
      (s.actionEffect a).disk = s.disk := by
  rcases s.actionEffect_cases a with ⟨_, e⟩ | ⟨_, t, r, e, rfl | ⟨w, off, v, h⟩⟩ <;> rw [e]
  · exact ⟨rfl, rfl, rfl⟩
  · exact ⟨rfl, rfl, rfl⟩
  · rcases windowWrite_cases h with rfl | rfl | rfl | rfl | ⟨_, _, _, rfl⟩ <;> exact ⟨rfl, rfl, rfl⟩

/-- No step changes the parameters or the Store's size, and a step that changes the Store runs a live BLOCK_WRITE in
range (R18, R37, R39). -/
theorem step_store {s t : State} (h : step s = .next t) :
    t.cfg = s.cfg ∧ t.devSectors = s.devSectors ∧
    (t.disk = s.disk ∨ ∃ u, s.fetch = .instr .blockWrite u ∧ u.fatal = false ∧ u.sector.toNat < u.devSectors ∧
      u.legalConfig = s.legalConfig ∧
      t.disk = Memory.write storeBlank s.disk (u.sector.toNat * u.cfg.physSize) u.packed) := by
  obtain ⟨_, ⟨_, _, _, rfl⟩ | ⟨_, _, _, rfl⟩ | ⟨_, _, rfl⟩ | ⟨rest, w, hd, hp, he⟩ | ⟨a, rest, _, _, _, rfl⟩⟩ :=
    step_cases h
  · exact ⟨rfl, rfl, .inl rfl⟩
  · obtain ⟨_, _, _, _, _, _, _, e⟩ := s.resultsOnly_closeDecoder
    rw [e]; exact ⟨rfl, rfl, .inl rfl⟩
  · exact ⟨rfl, rfl, .inl rfl⟩
  · rcases exec_cases he with ⟨hi, hf, hr, rfl⟩ | ⟨_, _, _, _, _, _, _, _, _, _, rfl⟩ | ⟨_, _, _, _, _, _, _, _, rfl⟩
    · exact ⟨rfl, rfl, .inr ⟨_, hi ▸ State.fetch_command hd hp, hf, hr, rfl, rfl⟩⟩
    · exact ⟨rfl, rfl, .inl rfl⟩
    · exact ⟨rfl, rfl, .inl rfl⟩
  · obtain ⟨hc, hn, hk⟩ := (s.withProgram rest).actionEffect_store a
    exact ⟨hc, hn, .inl hk⟩

/-! ## A command's results as they are read -/

/-- In a legal configuration a length that fits OUT fits a register. -/
theorem State.toNat_ofNat_of_le_outCap {s : State} (hl : s.legalConfig = true) {n : Nat} (h : n ≤ s.cfg.outCap) :
    (BitVec.ofNat 32 n).toNat = n := by
  obtain ⟨_, _, hin, _⟩ := s.legalConfig_iff.1 hl
  rw [Config.outCap] at h
  rw [BitVec.toNat_ofNat, Nat.mod_eq_of_lt (by omega)]

/-- The block a BLOCK_WRITE stores reads back from the Store. -/
theorem State.block_stored {s : State} (hl : s.legalConfig = true) : s.stored.block s.sectorIndex = s.packed := by
  have h := Memory.readRange_write_same (blank := storeBlank) s.disk (s.blockBase s.sectorIndex) s.packed
  rwa [State.length_packed hl] at h

/-- The block a BLOCK_WRITE stores reads back from PHYS. -/
theorem State.physBytes_stored {s : State} (hl : s.legalConfig = true) :
    s.stored.physBytes s.cfg.physSize = s.packed := by
  have h := Memory.readRange_bufferOf s.packed
  rwa [State.length_packed hl] at h

/-! ## The obligations about the commands -/

/-- Settles O15: the stream fits OUT by R90, and OUT is filled with it and zero bytes. -/
theorem compressOutput : Obligations.CompressOutput := by
  unfold Obligations.CompressOutput
  intro s hl hf h1 hcap
  have hv := s.compressInvalid_eq_false_iff.2 ⟨h1, hcap⟩
  have hz := State.length_encodeBytes_codecInput_le hv
  rcases execCompress_cases s with ⟨h, _⟩ | ⟨_, h, _⟩ | ⟨_, _, e⟩
  · cases h.symm.trans hf
  · cases h.symm.trans hv
  · exact ⟨_, e, hz, readRange_bufferOf_zeroPadded hz, State.toNat_ofNat_of_le_outCap hl hz, rfl, rfl,
      errField_withErr _ _⟩

/-- Settles O17: the decoder produces at most ORIG_LEN bytes and reads at most IN_LEN (R95). -/
theorem decompressOutput : Obligations.DecompressOutput := by
  unfold Obligations.DecompressOutput
  intro s hl hf h1 hin h2 hout
  have e := execDecompress_of_live hf (s.decompressInvalid_eq_false_iff.2 ⟨h1, hin, h2, hout⟩)
  have hprod := decodeBytes_prod_le s.codecInput s.requestedLength
  have hcons : (decodeBytes s.codecInput s.requestedLength).cons ≤ s.inLen.toNat :=
    (decodeBytes_cons_le _ _).trans_eq (s.length_inBytes _)
  have hdata := length_decodeBytes_data s.codecInput s.requestedLength
  have hp := State.toNat_ofNat_of_le_outCap hl (hprod.trans hout)
  have hc := State.toNat_ofNat_of_le_outCap hl (hcons.trans (hin.trans (by rw [Config.outCap]; omega)))
  have hw : BitVec.ofNat 32 s.origLen.toNat = s.origLen := by simp
  refine ⟨_, e, ?_, hw, hc, hp, ?_, hc.trans_le hcons, errField_withErr _ _⟩
  · exact hdata ▸ readRange_bufferOf_zeroPadded (hdata.trans_le (hprod.trans hout))
  · exact hp.trans_le (hprod.trans_eq (congrArg BitVec.toNat hw).symm)

/-- Settles O19: a codec command writes results only, and none where it ends INVALID. -/
theorem codecFrame : Obligations.CodecFrame := by
  unfold Obligations.CodecFrame
  intro i s t hi he
  obtain ⟨hfatal, hmode, hdec, hinv⟩ := exec_codec_keeps hi he
  rcases exec_cases he with ⟨rfl, _⟩ | ⟨rfl, _⟩ | ⟨_, _, _, _, _, _, _, hres, rfl⟩
  · simp at hi
  · simp at hi
  · refine ⟨rfl, rfl, rfl, rfl, rfl, rfl, hfatal, hmode, hres, fun _ => rfl, fun _ => rfl, fun _ => rfl, rfl, rfl, rfl,
      rfl, rfl, hdec, fun h => ?_⟩
    obtain ⟨ho, hc, hp⟩ := hinv h
    exact ⟨fun _ => congrArg (Memory.read bufferBlank · _) ho, hc, hp⟩

/-- Settles O21: the block written reads back whole, from the Store and from PHYS, and a write changes no byte outside
its range. -/
theorem blockWriteStores : Obligations.BlockWriteStores := by
  unfold Obligations.BlockWriteStores
  intro s hl hf hr
  refine ⟨s.stored, execBlockWrite_of_live hf hr, (State.block_stored hl).trans (State.physBytes_stored hl).symm,
    State.block_stored hl, State.length_block _ _, fun a ha => ?_, ?_⟩
  · exact Memory.read_write_other _ _ _ ((State.length_packed hl).symm ▸ ha)
  · simpa [ErrCode.code_none, State.fatal] using hf

/-- Settles O27: a completed read ends with a logical block, latched with its size field. -/
theorem blockReadOutput : Obligations.BlockReadOutput := by
  unfold Obligations.BlockReadOutput
  intro s t hl hf he hn
  obtain ⟨d, m, b, cons, prod, rfl, hb, hprod, hmode, hcap⟩ := execBlockRead_completed hl hf he hn
  have hout := State.sectorSize_le_outCap hl
  have hread := readRange_bufferOf_zeroPadded (hb.trans_le hout)
  rw [hb] at hread
  have hp := State.toNat_ofNat_of_le_outCap hl (hprod.trans hout)
  have hphys := Memory.readRange_bufferOf s.readBlock
  rw [State.length_block] at hphys
  have hm : modeBit (withErr (withMode s.status m) .none) = m.toBool := by simp
  exact ⟨b, hb, hread, State.toNat_ofNat_of_le_outCap hl hout, hp.trans_le hprod, rfl, hphys,
    hmode.trans (iff_of_eq (congrArg (· = false) hm.symm)), hcap⟩

/-- Settles O28: past the latch a read writes results only, and none where it ends FATAL. -/
theorem blockReadFrame : Obligations.BlockReadFrame := by
  unfold Obligations.BlockReadFrame
  intro s t he
  obtain ⟨hdec, hfatal⟩ := execBlockRead_keeps he
  have kept : fatalBit t.status = true →
      (∀ a, Memory.read bufferBlank t.outBuf a = Memory.read bufferBlank s.outBuf a) ∧ t.outLen = s.outLen ∧
        t.consumed = s.consumed ∧ t.produced = s.produced ∧ modeBit t.status = modeBit s.status :=
    fun h => (hfatal h).imp_left fun ho _ => congrArg (Memory.read bufferBlank · _) ho
  rcases exec_cases he with ⟨hi, _⟩ | ⟨_, _, _, _, _, _, _, _, _, hres, rfl⟩ | ⟨_, _, _, _, _, _, _, hres, rfl⟩
  · cases hi
  · simpa using ⟨hres, hdec, kept⟩
  · exact ⟨rfl, rfl, rfl, rfl, rfl, hres, fun _ => rfl, fun _ => rfl, rfl, rfl, rfl, rfl, hdec, kept⟩

/-- Settles O51: DevWrite and DevRead are the only accesses, one in each live block command in range. -/
theorem storeCounters : Obligations.StoreCounters := by
  unfold Obligations.StoreCounters
  intro i s t he
  rcases exec_cases he with ⟨rfl, hf, hr, rfl⟩ | ⟨rfl, hf, hr, _, _, _, _, _, _, _, rfl⟩ |
    ⟨hno, _, _, _, _, _, _, _, rfl⟩
  · simp [hf, hr]
  · simp [hf, hr]
  · rw [if_neg fun h => hno ⟨.inl h.1, h.2⟩, if_neg fun h => hno ⟨.inr h.1, h.2⟩]
    exact ⟨(BitVec.add_zero _).symm, (BitVec.add_zero _).symm⟩

/-- Settles O52: a byte outside the block written reads as before. -/
theorem storeChangesOnlyByBlockWrite : Obligations.StoreChangesOnlyByBlockWrite := by
  unfold Obligations.StoreChangesOnlyByBlockWrite
  intro s t a hl hs hne
  obtain ⟨_, _, hd | ⟨u, hu, hf, hr, hul, hd⟩⟩ := step_store hs
  · exact absurd (by rw [hd]) hne
  · refine ⟨u, hu, hf, hr, ?_⟩
    by_contra hout
    rw [hd, Memory.read_write_other _ _ _ (by rw [State.length_packed (hul.trans hl)]; omega)] at hne
    exact hne rfl

/-- Settles O53: no step touches the parameters, and no sector is below 0. -/
theorem launchParametersFixed : Obligations.LaunchParametersFixed := by
  unfold Obligations.LaunchParametersFixed
  refine ⟨fun s t h hs => ?_, fun s h0 hf => ?_⟩
  · obtain ⟨hcfg, hdev, _⟩ := step_store hs
    obtain ⟨_, _, _, _, _, hle⟩ := s.legalConfig_iff.1 h.config
    exact ⟨hdev, hle, hcfg⟩
  · have hr : s.sectorOutOfRange = true := s.sectorOutOfRange_iff.2 (by omega)
    exact ⟨by rw [exec, execBlockWrite, State.whenLive_of_live hf, if_pos hr],
      by rw [exec, execBlockRead, State.whenLive_of_live hf, if_pos hr]⟩

/-! ## Registers and STATUS in the window -/

theorem toNat_statusView (st : Word) : (statusView st).toNat = st.toNat % 64 := by
  rw [statusView, BitVec.toNat_and]
  exact Nat.and_two_pow_sub_one_eq_mod st.toNat 6

theorem toNat_errField (st : Word) : (errField st).toNat = st.toNat % 16 := by
  rw [errField, BitVec.extractLsb'_toNat]; rfl

theorem toNat_fatalBit (st : Word) : (fatalBit st).toNat = st.toNat / 16 % 2 := Nat.toNat_testBit _ _

theorem toNat_modeBit (st : Word) : (modeBit st).toNat = st.toNat / 32 % 2 := Nat.toNat_testBit _ _

/-- A 32-bit read at a register's offset answers the register (R20). -/
theorem State.windowRead_reg (s : State) (r : Reg) : s.windowRead 32 r.offset = some (s.readReg r) := by
  simp [windowRead_32, r.offset_mod, regAt_eq_some_iff.2 rfl]

/-- A 32-bit write at a register's offset is the register's own write (R20). -/
theorem State.windowWrite_reg (s : State) (r : Reg) (v : Word) : s.windowWrite 32 r.offset v = s.writeReg v r := by
  simp [windowWrite_32, r.offset_mod, regAt_eq_some_iff.2 rfl]

/-! ## A reset as it is read -/

/-- After a reset every register reads 0 (R41). -/
theorem State.resetEngine_readReg (s : State) (r : Reg) : s.resetEngine.readReg r = 0 := by
  cases r with
  | status => exact BitVec.zero_and
  | _ => rfl

/-- After a reset every buffer byte is 0x00 (R41). -/
theorem State.resetEngine_bufferByte (s : State) (b : Buffer) (i : Nat) : s.resetEngine.bufferByte b i = 0x00 := by
  cases b <;> rfl

/-! ## The obligations about the window, reset and what a step runs -/

/-- Settles O50: the low six bits of STATUS, field by field. -/
theorem statusFieldsAsRead : Obligations.StatusFieldsAsRead := by
  unfold Obligations.StatusFieldsAsRead
  intro s
  refine ⟨statusView s.status, s.windowRead_reg .status, ?_⟩
  rw [toNat_statusView, toNat_errField, toNat_fatalBit, toNat_modeBit]
  omega

/-- Settles O49: the window at a register's offset is the register. -/
theorem registerWindow : Obligations.RegisterWindow := by
  unfold Obligations.RegisterWindow
  intro s v
  refine ⟨s.windowRead_reg, s.windowWrite_reg .cmd v, s.windowWrite_reg .inLen v, s.windowWrite_reg .origLen v,
    s.windowWrite_reg .sector v, ?_, rfl⟩
  rintro _ (rfl | rfl | rfl | rfl | rfl)
  exacts [s.windowWrite_reg .status v, s.windowWrite_reg .outLen v, s.windowWrite_reg .hdr v,
    s.windowWrite_reg .consumed v, s.windowWrite_reg .produced v]

/-- Settles O42: RESET is an action that starts no command, and its effect is `resetEngine`. -/
theorem resetEffect : Obligations.ResetEffect := by
  unfold Obligations.ResetEffect
  intro s rest hl hd hp
  exact ⟨_, step_of_action hl hd hp nofun, (s.withProgram rest).resetEngine_readReg, fatalBit_zero, errField_zero,
    modeBit_zero, (s.withProgram rest).resetEngine_bufferByte, rfl, rfl, rfl, rfl, rfl, rfl, rfl⟩

/-- Settles O58: fetching a CMD write is reading its command. -/
theorem stepRunsTheCommandWritten : Obligations.StepRunsTheCommandWritten := by
  unfold Obligations.StepRunsTheCommandWritten
  intro s w rest hl hd hp
  exact step_of_instr hl (State.fetch_command hd hp)

/-- Settles O59: the scan goes on exactly where a byte and capacity are left. -/
theorem stepRunsTheTokenAtTheScan : Obligations.StepRunsTheTokenAtTheScan := by
  unfold Obligations.StepRunsTheTokenAtTheScan
  intro s d hl hd
  refine ⟨fun i rest hroom ht => ?_, fun h => ?_⟩
  · have hne : d.rest ≠ [] := by
      intro e; rw [e, decodeToken_nil] at ht; cases ht
    exact step_of_instr hl
      (State.fetch_token hd (d.ready_iff.2 ⟨hne, hroom⟩) (Decoder.token_eq_some_iff.2 ⟨rest, ht⟩))
  · have hready : d.ready = false := by
      rw [← Bool.not_eq_true, d.ready_iff]
      rcases h with h | h <;> simp [h]
    exact step_of_plain hl (State.fetch_close hd hready)

end Sys2Proof.Machine

/-! SUPPORT. The host window as the Host uses it (20_memory.md section 5): what it reads and writes at each byte and
each word of a buffer (R46, R47), that it takes exactly the accesses of R51 and R52, and what a step that makes one
comes to (R53, R133). Then the obligations about accesses. -/

namespace Sys2Proof.Machine

/-! ## A buffer's bytes and words in the window -/

theorem Buffer.base_mod (b : Buffer) : b.base % 4 = 0 := by cases b <;> rfl

theorem regAt_base_add (b : Buffer) (i : Nat) : regAt (b.base + i) = none :=
  have hb : 0x1000 ≤ b.base := by cases b <;> decide
  regAt_of_le (hb.trans (Nat.le_add_right _ _))

/-- The bytes of a buffer stand from its base on (R49). -/
theorem bufferAt_base_add {c : Config} (hc : c.wf = true) {b : Buffer} {i n : Nat} (hn : 0 < n)
    (hi : i + n ≤ b.size c) : bufferAt c (b.base + i) n = some (b, i) :=
  (bufferAt_eq_some_iff hc hn).2 ⟨by omega, by omega, by omega⟩

/-- Bits 7:0 of a byte written as a value are the byte (R47). -/
theorem extractLsb'_setWidth_byte (b : Byte) : (b.setWidth 32).extractLsb' 0 8 = b := by
  have hb := b.isLt
  apply BitVec.eq_of_toNat_eq
  rw [BitVec.extractLsb'_toNat, BitVec.toNat_setWidth, Nat.shiftRight_zero]
  omega

namespace State

theorem cfg_wf_of_legalConfig {s : State} (hl : s.legalConfig = true) : s.cfg.wf = true :=
  (Bool.and_eq_true_iff.1 hl).1

theorem windowRead_byte {s : State} (hc : s.cfg.wf = true) {b : Buffer} {i : Nat} (hi : i < b.size s.cfg) :
    s.windowRead 8 (b.base + i) = some ((s.bufferByte b i).setWidth 32) := by
  rw [windowRead_8, bufferAt_base_add hc Nat.one_pos hi]

theorem windowRead_word {s : State} (hc : s.cfg.wf = true) {b : Buffer} {i : Nat} (h4 : i % 4 = 0)
    (hi : i + 4 ≤ b.size s.cfg) :
    s.windowRead 32 (b.base + i) = some (le32 (s.bufferByte b i) (s.bufferByte b (i + 1)) (s.bufferByte b (i + 2))
      (s.bufferByte b (i + 3))) := by
  have hb := b.base_mod
  rw [windowRead_32, if_neg (by omega), regAt_base_add, bufferAt_base_add hc (by decide) hi]

theorem windowWrite_byte {s : State} (hc : s.cfg.wf = true) {b : Buffer} {i : Nat} (hi : i < b.size s.cfg) (v : Word) :
    s.windowWrite 8 (b.base + i) v = s.writeBuffer b i [v.extractLsb' 0 8] := by
  rw [windowWrite_8, bufferAt_base_add hc Nat.one_pos hi]

theorem windowWrite_word {s : State} (hc : s.cfg.wf = true) {b : Buffer} {i : Nat} (h4 : i % 4 = 0)
    (hi : i + 4 ≤ b.size s.cfg) (v : Word) :
    s.windowWrite 32 (b.base + i) v = s.writeBuffer b i (bytesLE32 v) := by
  have hb := b.base_mod
  rw [windowWrite_32, if_neg (by omega), regAt_base_add, bufferAt_base_add hc (by decide) hi]

end State

/-- The four bytes of a word written read back in little-endian order (R46). -/
theorem Memory.read_write_bytesLE32 (m : Memory) (i : Nat) (v : Word) :
    read bufferBlank (write bufferBlank m i (bytesLE32 v)) i = v.extractLsb' 0 8 ∧
    read bufferBlank (write bufferBlank m i (bytesLE32 v)) (i + 1) = v.extractLsb' 8 8 ∧
    read bufferBlank (write bufferBlank m i (bytesLE32 v)) (i + 2) = v.extractLsb' 16 8 ∧
    read bufferBlank (write bufferBlank m i (bytesLE32 v)) (i + 3) = v.extractLsb' 24 8 :=
  have byteAt {j : Nat} (hj : j < (bytesLE32 v).length) := read_write_same (blank := bufferBlank) m i (bytesLE32 v) hj
  ⟨byteAt (j := 0) (by simp), byteAt (j := 1) (by simp), byteAt (j := 2) (by simp), byteAt (j := 3) (by simp)⟩

/-! ## The accesses the window takes -/

namespace State

theorem isSome_writeReg (s : State) (v : Word) (r : Reg) : (s.writeReg v r).isSome = r.hostWritable := by
  cases r <;> rfl

theorem isSome_writeBuffer {s : State} {b : Buffer} {i : Nat} {bs : List Byte} :
    (s.writeBuffer b i bs).isSome = true ↔ b = .inB := by
  cases b <;> simp [writeBuffer]

/-- The window gives a value for exactly the reads R51 and R52 let through. -/
theorem readTaken_iff {s : State} (hc : s.cfg.wf = true) (width off : Nat) :
    readTaken s.cfg width off ↔ (s.windowRead width off).isSome = true := by
  constructor
  · rintro (⟨rfl, h4, ⟨r, rfl⟩ | ⟨b, hb, hi⟩⟩ | ⟨rfl, b, hb, hi⟩)
    · rw [windowRead_reg]; rfl
    · obtain ⟨i, rfl⟩ := Nat.exists_eq_add_of_le hb
      have := b.base_mod
      rw [windowRead_word hc (by omega) (by omega)]; rfl
    · obtain ⟨i, rfl⟩ := Nat.exists_eq_add_of_le hb
      rw [windowRead_byte hc (by omega)]; rfl
  · intro h
    unfold windowRead at h
    split at h
    · split at h
      · cases h
      · rename_i h4
        refine .inl ⟨rfl, not_not.1 h4, ?_⟩
        split at h
        · rename_i r hr; exact .inl ⟨r, regAt_eq_some_iff.1 hr⟩
        · split at h
          · rename_i b i hb
            obtain ⟨hle, hi, _⟩ := (bufferAt_eq_some_iff hc (by decide)).1 hb
            exact .inr ⟨b, hle, hi⟩
          · cases h
    · split at h
      · rename_i b i hb
        obtain ⟨hle, hi, _⟩ := (bufferAt_eq_some_iff hc Nat.one_pos).1 hb
        exact .inr ⟨rfl, b, hle, hi⟩
      · cases h
    · cases h

/-- The window gives a write for exactly the writes R51 and R52 let through. -/
theorem writeTaken_iff {s : State} (hc : s.cfg.wf = true) (width off : Nat) (v : Word) :
    writeTaken s.cfg width off ↔ (s.windowWrite width off v).isSome = true := by
  constructor
  · rintro (⟨rfl, h4, ⟨r, rfl, hr⟩ | ⟨hb, hi⟩⟩ | ⟨rfl, hb, hi⟩)
    · rw [windowWrite_reg, isSome_writeReg, hr]
    · obtain ⟨i, rfl⟩ := Nat.exists_eq_add_of_le hb
      have := Buffer.base_mod .inB
      rw [windowWrite_word hc (by omega) (by rw [Buffer.size_inB]; omega)]; rfl
    · obtain ⟨i, rfl⟩ := Nat.exists_eq_add_of_le hb
      rw [windowWrite_byte hc (by rw [Buffer.size_inB]; omega)]; rfl
  · intro h
    unfold windowWrite at h
    split at h
    · split at h
      · cases h
      · rename_i h4
        refine .inl ⟨rfl, not_not.1 h4, ?_⟩
        split at h
        · rename_i r hr
          exact .inl ⟨r, regAt_eq_some_iff.1 hr, (s.isSome_writeReg v r).symm.trans h⟩
        · split at h
          · rename_i b i hb
            obtain rfl := isSome_writeBuffer.1 h
            obtain ⟨hle, hi, _⟩ := (bufferAt_eq_some_iff hc (by decide)).1 hb
            exact .inr ⟨hle, hi⟩
          · cases h
    · split at h
      · rename_i b i hb
        obtain rfl := isSome_writeBuffer.1 h
        obtain ⟨hle, hi, _⟩ := (bufferAt_eq_some_iff hc Nat.one_pos).1 hb
        exact .inr ⟨rfl, hle, hi⟩
      · cases h
    · cases h

/-! ## What a step that makes an access comes to -/

/-- What the Host has left to do is no part of what the window reads. -/
@[simp] theorem windowRead_withProgram (s : State) (rest : List HostAction) (width off : Nat) :
    (s.withProgram rest).windowRead width off = s.windowRead width off := rfl

end State

section
variable {s : State} {width off : Nat} {v : Word} {rest : List HostAction}

/-- A step that makes a read adds the Host's observation, and nothing else (R53). -/
theorem step_of_read (hl : s.legalConfig = true) (hd : s.decoder = none)
    (hp : s.program = .access ⟨.read, width, off, v⟩ :: rest) :
    step s = .next ((s.withProgram rest).respond ((s.windowRead width off).elim .busError .value)) := by
  rw [step_of_action hl hd hp nofun]
  simp only [State.actionEffect, State.accessOf, State.accessEffect, State.windowRead_withProgram]
  cases s.windowRead width off <;> rfl

/-- A step that makes a write outside CMD comes to the state with the location written, where the window takes it. -/
theorem step_of_write_taken {t : State} (hl : s.legalConfig = true) (hd : s.decoder = none)
    (hp : s.program = .access ⟨.write, width, off, v⟩ :: rest) (h0 : off ≠ 0)
    (hw : (s.withProgram rest).windowWrite width off v = some t) : step s = .next (t.respond .written) := by
  have hne : ∀ w, HostAction.access ⟨.write, width, off, v⟩ ≠ w32 0x000 w := by
    rintro w h; cases h; exact h0 rfl
  rw [step_of_action hl hd hp hne]
  simp only [State.actionEffect, State.accessOf, State.accessEffect, hw]

/-- A step that makes a write the window does not take is a bus error: CMD takes every 32-bit write (R52, R133). -/
theorem step_of_write_not_taken (hl : s.legalConfig = true) (hd : s.decoder = none)
    (hp : s.program = .access ⟨.write, width, off, v⟩ :: rest)
    (hw : (s.withProgram rest).windowWrite width off v = none) :
    step s = .next ((s.withProgram rest).respond .busError) := by
  have hne : ∀ w, HostAction.access ⟨.write, width, off, v⟩ ≠ w32 0x000 w := by
    rintro w h; cases h; cases hw
  rw [step_of_action hl hd hp hne]
  simp only [State.actionEffect, State.accessOf, State.accessEffect, hw]

end

/-! ## The obligations about accesses -/

/-- Settles O45: an access that is not taken has no value or no write in the window, and its step is the bus error. -/
theorem busErrorHasNoEffect : Obligations.BusErrorHasNoEffect := by
  unfold Obligations.BusErrorHasNoEffect
  intro s width off v rest hl hd
  have hc := State.cfg_wf_of_legalConfig hl
  have hr := State.readTaken_iff hc width off
  have hw := State.writeTaken_iff hc width off v
  refine ⟨fun hp hn => ?_, fun hp hn => ?_, hr.trans Option.isSome_iff_exists, hw.trans Option.isSome_iff_exists⟩
  · have hnone : s.windowRead width off = none := Option.not_isSome_iff_eq_none.1 (mt hr.2 hn)
    rw [step_of_read hl hd hp, hnone]; rfl
  · have hw' := State.writeTaken_iff (s := s.withProgram rest) hc width off v
    exact step_of_write_not_taken hl hd hp (Option.not_isSome_iff_eq_none.1 (mt hw'.2 hn))

/-- Settles O46: the observation is the window's value, or a bus error where it gives none. -/
theorem readsChangeNothing : Obligations.ReadsChangeNothing := by
  unfold Obligations.ReadsChangeNothing
  intro s t width off v rest hd hp hs
  obtain ⟨hl, _⟩ := step_cases hs
  cases (step_of_read hl hd hp).symm.trans hs
  refine ⟨_, rfl, fun x => ?_⟩
  cases s.windowRead width off <;> simp

/-- Settles O47: each location's write in the window is that location's own, and a write to IN keeps the other bytes. -/
theorem operandWrites : Obligations.OperandWrites := by
  unfold Obligations.OperandWrites
  intro s v rest hl hd
  have hc := State.cfg_wf_of_legalConfig hl
  refine ⟨fun hp => ?_, fun hp => ?_, fun hp => ?_, fun i b hi hp => ?_, fun i h4 hi hp => ?_⟩
  · exact step_of_write_taken hl hd hp (by decide) (State.windowWrite_reg _ .inLen v)
  · exact step_of_write_taken hl hd hp (by decide) (State.windowWrite_reg _ .origLen v)
  · exact step_of_write_taken hl hd hp (by decide) (State.windowWrite_reg _ .sector v)
  · refine ⟨Memory.write bufferBlank s.inBuf i [b], ?_, ?_, fun a ha => ?_⟩
    · have hw := State.windowWrite_byte (s := s.withProgram rest) hc (b := .inB) hi (b.setWidth 32)
      rw [extractLsb'_setWidth_byte] at hw
      exact step_of_write_taken hl hd hp (by omega) hw
    · exact Memory.read_write_same s.inBuf i [b] (j := 0) (by simp)
    · exact Memory.read_write_other _ _ _ (by simp only [List.length_singleton]; omega)
  · refine ⟨Memory.write bufferBlank s.inBuf i (bytesLE32 v), ?_, ?_, fun a ha => ?_⟩
    · exact step_of_write_taken hl hd hp (by omega)
        (State.windowWrite_word (s := s.withProgram rest) hc (b := .inB) h4 hi v)
    · obtain ⟨h0, h1, h2, h3⟩ := Memory.read_write_bytesLE32 s.inBuf i v
      rw [h0, h1, h2, h3, bytesLE32]
    · exact Memory.read_write_other _ _ _ (by rwa [length_bytesLE32])

/-- Settles O48: both widths read the same bytes, and the bytes of a word written make the word again. -/
theorem mixedWidthAccess : Obligations.MixedWidthAccess := by
  unfold Obligations.MixedWidthAccess
  intro s b i hl h4 hi
  have hc := State.cfg_wf_of_legalConfig hl
  refine ⟨fun j hj => ?_, State.windowRead_word hc h4 hi, ?_⟩
  · rw [Nat.add_assoc, State.windowRead_byte hc (by omega)]
  · rintro rfl v
    obtain ⟨h0, h1, h2, h3⟩ := Memory.read_write_bytesLE32 s.inBuf i v
    refine ⟨_, State.windowWrite_word hc h4 hi v, ?_, ?_⟩
    · simp only [State.bufferByte, State.buffer, h0, h1, h2, h3]; rfl
    · rw [State.windowRead_word (by exact hc) h4 (by exact hi)]
      simp only [State.bufferByte, State.buffer, h0, h1, h2, h3, le32_bytesLE32]

end Sys2Proof.Machine

/-! SUPPORT. The decoder and the encoder say the same (30_encoding.md): a word decodes to the well-formed command whose
word it is (R63, R64), and bytes decode to the well-formed instruction whose encoding they begin with (R62, R65, R68).
Then the obligations of 30_encoding.md. -/

namespace Sys2Proof

/-! ## Commands and their words -/

/-- A word is read as the one well-formed command that has it as its word (R63, R64). -/
theorem decodeCommand_eq_iff {w : Word} {i : Instr} :
    decodeCommand w = i ↔ i.wf = true ∧ commandWord i = some w := by
  constructor
  · rintro rfl
    rcases decodeCommand_cases w with ⟨rfl, h⟩ | ⟨rfl, h⟩ | ⟨rfl, h⟩ | ⟨rfl, h⟩ | ⟨hw, h⟩ <;> rw [h]
    case inr.inr.inr.inr => exact ⟨by simpa [Instr.wf] using hw, rfl⟩
    all_goals exact ⟨rfl, rfl⟩
  · rintro ⟨hi, hw⟩
    cases i with
    | compress | decompress | blockWrite | blockRead => cases hw; decide
    | illegalCmd v =>
      cases hw
      have hv : w ∉ legalCommandWords := by simpa [Instr.wf] using hi
      rcases decodeCommand_cases w with ⟨rfl, _⟩ | ⟨rfl, _⟩ | ⟨rfl, _⟩ | ⟨rfl, _⟩ | ⟨_, h⟩
      case inr.inr.inr.inr => exact h
      all_goals exact absurd (by decide) hv
    | run | lit0Tail | lit => cases hw

theorem decodeCommand_eq_iff_of_commandWord {w v : Word} {i : Instr} (hi : i.wf = true) (hv : commandWord i = some v) :
    decodeCommand w = i ↔ w = v := by
  rw [decodeCommand_eq_iff, hv, Option.some_inj]
  exact ⟨fun h => h.2.symm, fun h => ⟨hi, h.symm⟩⟩

theorem decodeCommand_eq_illegalCmd_iff (w : Word) : decodeCommand w = .illegalCmd w ↔ w ∉ legalCommandWords := by
  simp [decodeCommand_eq_iff, Instr.wf, commandWord]

theorem mem_legalCommandWords_iff (w : Word) : w ∈ legalCommandWords ↔ w = 1 ∨ w = 2 ∨ w = 3 ∨ w = 4 := by
  simp [legalCommandWords]

/-- The legal words by their fields: RSV is 0 and OP is 1 to 4 (R62, R63). -/
theorem notMem_legalCommandWords_iff_fields (w : Word) :
    w ∉ legalCommandWords ↔ opField w = 0 ∨ 5 ≤ opField w ∨ rsvField w ≠ 0 := by
  have hw := w.isLt
  simp only [mem_legalCommandWords_iff, opField, rsvField, ne_eq, ← BitVec.toNat_inj, BitVec.le_def,
    BitVec.extractLsb'_toNat, Nat.shiftRight_eq_div_pow, BitVec.toNat_ofNat, BitVec.ofNat_eq_ofNat]
  omega

theorem encode_of_commandWord {i : Instr} {w : Word} (h : commandWord i = some w) : encode i = bytesLE32 w := by
  cases i with
  | compress | decompress | blockWrite | blockRead | illegalCmd => cases h; rfl
  | run | lit0Tail | lit => cases h

theorem follows_of_commandWord {i : Instr} {w : Word} (h : commandWord i = some w) (rest : List Byte) :
    i.follows rest = true := by
  cases i with
  | compress | decompress | blockWrite | blockRead | illegalCmd => rfl
  | run | lit0Tail | lit => cases h

theorem format_eq_cmd_iff (i : Instr) : i.format = .cmd ↔ ∃ w, commandWord i = some w := by
  cases i <;> simp [Instr.format, commandWord]

/-! ## The decoder by the encoder -/

/-- The head of a byte list is a command word exactly where it is the four bytes of one (R13, R61). -/
theorem decode_cmd_eq_ok_iff {bs rest : List Byte} {i : Instr} :
    decode .cmd bs = .ok (i, rest) ↔ ∃ w, decodeCommand w = i ∧ bs = bytesLE32 w ++ rest := by
  constructor
  · intro h
    match bs, h with
    | b0 :: b1 :: b2 :: b3 :: _, h => cases h; exact ⟨_, rfl, by rw [bytesLE32_le32]; rfl⟩
  · rintro ⟨w, rfl, rfl⟩
    calc decode .cmd (bytesLE32 w ++ rest)
        = .ok (decodeCommand (le32 (w.extractLsb' 0 8) (w.extractLsb' 8 8) (w.extractLsb' 16 8)
            (w.extractLsb' 24 8)), rest) := rfl
      _ = .ok (decodeCommand w, rest) := by rw [le32_bytesLE32]

/-- The token read is the well-formed one whose encoding the stream begins with, where its row lets the rest follow
(R65, R68). -/
theorem decodeToken_eq_ok_iff {bs rest : List Byte} {i : Instr} :
    decodeToken bs = .ok (i, rest) ↔
      i.format = .rleToken ∧ i.wf = true ∧ i.follows rest = true ∧ bs = encode i ++ rest := by
  constructor
  · intro h
    have hbs : bs ≠ [] := by rintro rfl; cases h
    rcases decodeToken_cases hbs with ⟨c, v, r, rfl, e⟩ | ⟨r, rfl, hr, e⟩ | ⟨b, r, rfl, hb, e⟩ <;>
      cases e.symm.trans h
    · exact ⟨rfl, rfl, rfl, rfl⟩
    · exact ⟨rfl, rfl, decide_eq_true hr, rfl⟩
    · exact ⟨rfl, bne_iff_ne.2 hb, rfl, rfl⟩
  · rintro ⟨hformat, hwf, hfollows, rfl⟩
    cases i with
    | run c v => exact decodeToken_run c v rest
    | lit0Tail => exact decodeToken_tail (of_decide_eq_true hfollows)
    | lit l => exact decodeToken_lit (bne_iff_ne.1 hwf) rest
    | compress | decompress | blockWrite | blockRead | illegalCmd => cases hformat

/-- The decoder reads `i` and leaves `rest` exactly where `i` is a well-formed instruction of the format, `rest` may
follow it, and the bytes are its encoding and then `rest`. -/
theorem decode_eq_ok_iff {f : Format} {bs rest : List Byte} {i : Instr} :
    decode f bs = .ok (i, rest) ↔
      i.format = f ∧ i.wf = true ∧ i.follows rest = true ∧ bs = encode i ++ rest := by
  cases f with
  | cmd =>
    rw [decode_cmd_eq_ok_iff, format_eq_cmd_iff]
    constructor
    · rintro ⟨w, hi, rfl⟩
      obtain ⟨hwf, hw⟩ := decodeCommand_eq_iff.1 hi
      exact ⟨⟨w, hw⟩, hwf, follows_of_commandWord hw rest, by rw [encode_of_commandWord hw]⟩
    · rintro ⟨⟨w, hw⟩, hwf, _, rfl⟩
      exact ⟨w, decodeCommand_eq_iff.2 ⟨hwf, hw⟩, by rw [encode_of_commandWord hw]⟩
  | rleToken => exact decodeToken_eq_ok_iff

/-! ## Positions in a stream -/

/-- A position inside a list splits its suffix into the element there and the suffix after it. -/
theorem drop_eq_getD_cons {c : List Byte} {i : Nat} (h : i < c.length) : c.drop i = c.getD i 0 :: c.drop (i + 1) := by
  rw [List.drop_eq_getElem_cons h, List.getD_eq_getElem c 0 h]

/-! ## The obligations about encodings -/

/-- Settles O4: the decoder's characterization by the encoder, read from right to left. -/
theorem decodeOfEncode : Obligations.DecodeOfEncode := by
  unfold Obligations.DecodeOfEncode
  exact fun i rest hwf hfollows => decode_eq_ok_iff.2 ⟨rfl, hwf, hfollows, rfl⟩

/-- Settles O5: the decoder's characterization by the encoder, read from left to right. -/
theorem encodeOfDecode : Obligations.EncodeOfDecode := by
  unfold Obligations.EncodeOfDecode
  intro f bs i rest h
  obtain ⟨hformat, hwf, hfollows, hbs⟩ := decode_eq_ok_iff.1 h
  exact ⟨hwf, hfollows, hformat, hbs⟩

/-- Settles O1: each line is a closed fact of the decoder. -/
theorem sampleWordsDecode : Obligations.SampleWordsDecode := by
  unfold Obligations.SampleWordsDecode
  decide

/-- Settles O2: a word decodes to the command whose word it is, and a reserved OP stands in no legal word. -/
theorem opAssignment : Obligations.OpAssignment := by
  unfold Obligations.OpAssignment
  intro w
  refine ⟨decodeCommand_eq_iff_of_commandWord rfl rfl, decodeCommand_eq_iff_of_commandWord rfl rfl,
    decodeCommand_eq_iff_of_commandWord rfl rfl, decodeCommand_eq_iff_of_commandWord rfl rfl, fun hop => ?_, ?_⟩
  · rw [decodeCommand_eq_illegalCmd_iff, notMem_legalCommandWords_iff_fields]
    exact hop.imp_right .inl
  · rw [Ne, decodeCommand_eq_illegalCmd_iff, not_not]
    exact mem_legalCommandWords_iff w

/-- Settles O6: the suffix at the boundary, split at its first bytes, is one of the decoder's three cases. -/
theorem tokenAtBoundary : Obligations.TokenAtBoundary := by
  unfold Obligations.TokenAtBoundary
  intro c i hi
  refine ⟨fun hz h2 => ?_, fun hz h2 => ?_, fun hne => ?_⟩
  · rw [drop_eq_getD_cons hi, hz, drop_eq_getD_cons (by omega : i + 1 < c.length), drop_eq_getD_cons h2]
    exact decodeToken_run _ _ _
  · rw [drop_eq_getD_cons hi, hz]
    exact decodeToken_tail (by rw [List.length_drop]; omega)
  · rw [drop_eq_getD_cons hi]
    exact decodeToken_lit hne _

end Sys2Proof

namespace Sys2Proof.Machine

/-- Settles O3: the legal words by their fields, and ILLEGAL_CMD's meaning in a live state. -/
theorem illegalCommandWords : Obligations.IllegalCommandWords := by
  unfold Obligations.IllegalCommandWords
  intro w
  refine ⟨?_, ?_, fun s hf hw => ?_⟩
  · rw [decodeCommand_eq_illegalCmd_iff, notMem_legalCommandWords_iff_fields]
  · rw [Ne, decodeCommand_eq_illegalCmd_iff, not_not, ← mem_legalCommandWords_iff, and_self]
    exact (Decidable.em _).symm
  · rw [hw, exec, execIllegalCmd, State.whenLive_of_live hf]
    rfl

end Sys2Proof.Machine

/-! SUPPORT. The codec as a pair of functions: an input is its pieces (40_codec.md R84), its stream the tokens of its
pieces (R86), and a scan of that stream gives the input back (R97). Then the obligations of 40_codec.md. -/

namespace Sys2Proof.Machine

/-! ## Pieces -/

/-- Induction along the encoder's loop: from what follows the first piece, back over it. -/
theorem piece_induction {P : List Byte → Prop} (nil : P [])
    (piece : ∀ v bs, P ((v :: bs).drop (pieceLen (v :: bs))) → P (v :: bs)) (x : List Byte) : P x := by
  induction hn : x.length using Nat.strong_induction_on generalizing x with
  | _ n ih =>
    cases x with
    | nil => exact nil
    | cons v bs =>
      have hp := pieceLen_pos v bs
      exact piece v bs (ih _ (by rw [← hn, List.length_drop, List.length_cons]; omega) _ rfl)

/-- The bytes after the first piece, counted. -/
theorem length_drop_pieceLen (v : Byte) (bs : List Byte) :
    ((v :: bs).drop (pieceLen (v :: bs))).length + pieceLen (v :: bs) = (v :: bs).length := by
  rw [List.length_drop, Nat.sub_add_cancel (pieceLen_le_length v bs)]

theorem inTail_iff {x : List Byte} : inTail x = true ↔ x.length ≤ 2 := decide_eq_true_iff

/-! ## The tokens of a piece -/

theorem ne_verbatim_iff {mode : ZeroLitMode} : mode ≠ .verbatim ↔ mode = .escape := by cases mode <;> decide

theorem emitPiece_of_minRun_le (mode : ZeroLitMode) (v : Byte) {len : Nat} (tail : Bool) (h : 3 ≤ len) :
    emitPiece mode v len tail = [Config.marker, BitVec.ofNat 8 len, v] := if_pos h

/-- A short piece is literals, unless it is a zero away from the end in ESCAPE mode (R85). -/
theorem emitPiece_literals {mode : ZeroLitMode} {v : Byte} {len : Nat} {tail : Bool} (hl : len < 3)
    (h : v ≠ Config.marker ∨ mode = .verbatim ∨ tail = true) : emitPiece mode v len tail = List.replicate len v := by
  have hmin : ¬Config.minRun ≤ len := not_le.2 hl
  unfold emitPiece
  rw [if_neg hmin]
  split_ifs with hv hm ht
  · rfl
  · rw [not_not.1 hv]
  · rw [not_not.1 hv]
  · exact absurd h (by simp [hv, hm, ht])

/-- The zero escape (R85). -/
theorem emitPiece_escape {len : Nat} (hl : len < 3) :
    emitPiece .escape Config.marker len false = [Config.marker, BitVec.ofNat 8 len, Config.marker] := by
  have hmin : ¬Config.minRun ≤ len := not_le.2 hl
  simp [emitPiece, hmin]

/-- In its last two positions an input is its own stream (R85). -/
theorem encodeBytes_of_inTail (mode : ZeroLitMode) (x : List Byte) (h : x.length ≤ 2) : encodeBytes mode x = x := by
  induction x using piece_induction with
  | nil => rfl
  | piece v bs ih =>
    have hlen := length_drop_pieceLen v bs
    have hp := pieceLen_pos v bs
    rw [encodeBytes_cons, ih (by omega), emitPiece_literals (by omega) (.inr (.inr (inTail_iff.2 h)))]
    exact (piece_append_drop v bs).symm

/-! ## A scan of a piece's tokens -/

namespace Decoder

/-- A scan that stands at a RUN goes on behind it (R92). -/
theorem scan_run {room : Nat} (h : 0 < room) (c v : Byte) (rest made : List Byte) (pos : Nat) (o : Owner) :
    (Decoder.mk (Config.marker :: c :: v :: rest) pos made room o).scan =
      (Decoder.mk rest (pos + 3) (List.replicate (min c.toNat room) v ++ made) (room - min c.toNat room) o).scan :=
  scan_of_ready ((ready_iff _).2 ⟨List.cons_ne_nil _ _, h⟩)

/-- A scan that stands at a literal, or at a trailing zero, goes on behind it (R92). -/
theorem scan_lit {room : Nat} (h : 0 < room) {b : Byte} {rest : List Byte} (hb : b ≠ Config.marker ∨ rest.length < 2)
    (made : List Byte) (pos : Nat) (o : Owner) :
    (Decoder.mk (b :: rest) pos made room o).scan = (Decoder.mk rest (pos + 1) (b :: made) (room - 1) o).scan := by
  have hr : (Decoder.mk (b :: rest) pos made room o).ready = true := (ready_iff _).2 ⟨List.cons_ne_nil _ _, h⟩
  rw [scan_of_ready hr]
  rcases step_cases ((ready_iff _).1 hr).1 with ⟨c, v, r, e, _⟩ | ⟨r, e, _, _, hs⟩ | ⟨l, r, e, _, _, hs⟩
  · cases e; simp at hb
  · cases e; rw [hs]; rfl
  · cases e; rw [hs]; rfl

/-- A scan reads literals byte by byte. -/
theorem scan_literals {v : Byte} (hv : v ≠ Config.marker) {n room : Nat} (h : n ≤ room) (rest made : List Byte)
    (pos : Nat) (o : Owner) :
    (Decoder.mk (List.replicate n v ++ rest) pos made room o).scan =
      (Decoder.mk rest (pos + n) (List.replicate n v ++ made) (room - n) o).scan := by
  induction n generalizing pos made room with
  | zero => rfl
  | succ n ih =>
    rw [List.replicate_succ, List.cons_append, scan_lit (by omega) (.inl hv), ih (by omega)]
    congr 2
    · omega
    · rw [← List.singleton_append, ← List.append_assoc, ← List.replicate_succ', List.replicate_succ]
    · omega

/-- A scan of at most two bytes with room for them copies them (R92, R94). -/
theorem scan_inTail {x : List Byte} (hx : x.length ≤ 2) (pos : Nat) (made : List Byte) (o : Owner) :
    (Decoder.mk x pos made x.length o).scan = ⟨[], pos + x.length, x.reverse ++ made, 0, o⟩ := by
  induction x generalizing pos made with
  | nil => exact scan_of_not_ready rfl
  | cons b bs ih =>
    rw [List.length_cons] at hx
    rw [List.length_cons, scan_lit (by omega) (.inr (by omega)), Nat.add_sub_cancel, ih (by omega)]
    simp [Nat.add_assoc, Nat.add_comm 1]

/-- Reading the RUN of a piece of at most 255 bytes. -/
theorem scan_run_of_le {len room : Nat} (h1 : 1 ≤ len) (h255 : len ≤ 255) (hroom : len ≤ room) (v : Byte)
    (rest made : List Byte) (pos : Nat) (o : Owner) :
    (Decoder.mk ([Config.marker, BitVec.ofNat 8 len, v] ++ rest) pos made room o).scan =
      (Decoder.mk rest (pos + 3) (List.replicate len v ++ made) (room - len) o).scan := by
  have hc : min (BitVec.ofNat 8 len).toNat room = len := by
    rw [BitVec.toNat_ofNat, Nat.mod_eq_of_lt (by omega), min_eq_left hroom]
  have h := scan_run (by omega) (BitVec.ofNat 8 len) v rest made pos o (room := room)
  rwa [hc] at h

/-- A scan of an ESCAPE piece away from the end gives the piece back (R97). -/
theorem scan_emitPiece {len room : Nat} (h1 : 1 ≤ len) (h255 : len ≤ 255) (hroom : len ≤ room) (v : Byte)
    (rest made : List Byte) (pos : Nat) (o : Owner) :
    (Decoder.mk (emitPiece .escape v len false ++ rest) pos made room o).scan =
      (Decoder.mk rest (pos + (emitPiece .escape v len false).length) (List.replicate len v ++ made)
        (room - len) o).scan := by
  rcases Nat.lt_or_ge len 3 with hs | hl
  · by_cases hv : v = Config.marker
    · subst hv
      rw [emitPiece_escape hs, scan_run_of_le h1 h255 hroom]; rfl
    · rw [emitPiece_literals hs (.inl hv), scan_literals hv hroom, List.length_replicate]
  · rw [emitPiece_of_minRun_le _ _ _ hl, scan_run_of_le h1 h255 hroom]; rfl

/-- R97 from any position of a scan: with room for exactly x, the ESCAPE stream of x is read whole and gives x. -/
theorem scan_encodeBytes (x : List Byte) (pos : Nat) (made : List Byte) (o : Owner) :
    (Decoder.mk (encodeBytes .escape x) pos made x.length o).scan =
      ⟨[], pos + (encodeBytes .escape x).length, x.reverse ++ made, 0, o⟩ := by
  induction x using piece_induction generalizing pos made with
  | nil => exact scan_of_not_ready rfl
  | piece v bs ih =>
    cases ht : inTail (v :: bs) with
    | true =>
      rw [encodeBytes_of_inTail _ _ (inTail_iff.1 ht)]
      exact scan_inTail (inTail_iff.1 ht) pos made o
    | false =>
      have hroom : (v :: bs).length - pieceLen (v :: bs) = ((v :: bs).drop (pieceLen (v :: bs))).length :=
        List.length_drop.symm
      have hx : (v :: bs).reverse = ((v :: bs).drop (pieceLen (v :: bs))).reverse ++
          List.replicate (pieceLen (v :: bs)) v := by
        conv_lhs => rw [piece_append_drop v bs]
        rw [List.reverse_append, List.reverse_replicate]
      rw [encodeBytes_cons, ht, scan_emitPiece (pieceLen_pos v bs) (pieceLen_le_maxRun v bs) (pieceLen_le_length v bs),
        hroom, ih, hx, List.length_append, List.append_assoc, Nat.add_assoc]

end Decoder

/-! ## An input as its pieces -/

/-- Spare iterations of the cutting loop do nothing. -/
theorem piecesFor_eq {x : List Byte} {n m : Nat} (hn : x.length ≤ n) (hm : x.length ≤ m) :
    piecesFor n x = piecesFor m x := by
  induction x using piece_induction generalizing n m with
  | nil => cases n <;> cases m <;> rfl
  | piece v bs ih =>
    have hlen := length_drop_pieceLen v bs
    have hp := pieceLen_pos v bs
    match n, m, hn, hm with
    | n + 1, m + 1, hn, hm =>
      simp only [piecesFor]
      rw [ih (n := n) (m := m) (by omega) (by omega)]

/-- The first piece, then the pieces of what follows it (R84). -/
theorem pieces_cons (v : Byte) (bs : List Byte) :
    pieces (v :: bs) =
      ⟨v, pieceLen (v :: bs), inTail (v :: bs)⟩ :: pieces ((v :: bs).drop (pieceLen (v :: bs))) := by
  have hlen := length_drop_pieceLen v bs
  have hp := pieceLen_pos v bs
  rw [List.length_cons] at hlen
  conv_lhs => rw [pieces, List.length_cons, piecesFor]
  exact congrArg _ (piecesFor_eq (by omega) le_rfl)

theorem one_le_len_of_mem_pieces {x : List Byte} : ∀ p ∈ pieces x, 1 ≤ p.len := by
  induction x using piece_induction with
  | nil => exact nofun
  | piece v bs ih =>
    rw [pieces_cons]
    exact List.forall_mem_cons.2 ⟨pieceLen_pos v bs, ih⟩

/-- The pieces cover the input. -/
theorem sum_len_pieces (x : List Byte) : ((pieces x).map Piece.len).sum = x.length := by
  induction x using piece_induction with
  | nil => rfl
  | piece v bs ih => rw [pieces_cons, List.map_cons, List.sum_cons, ih, Nat.add_comm, length_drop_pieceLen]

namespace Piece

/-- The stream bytes of a piece (R85). -/
def tokens (mode : ZeroLitMode) (p : Piece) : List Byte := emitPiece mode p.byte p.len p.tail

theorem shortZero_iff {p : Piece} : p.shortZero = true ↔ p.byte = Config.marker ∧ p.len < 3 ∧ p.tail = false := by
  rw [shortZero, Bool.and_eq_true, Bool.and_eq_true, beq_iff_eq, decide_eq_true_iff, Bool.not_eq_true', and_assoc]
  rfl

theorem cost_of_minRun_le (mode : ZeroLitMode) {p : Piece} (h : 3 ≤ p.len) : p.cost mode = 3 := if_pos (.inl h)

theorem cost_of_shortZero {p : Piece} (h : p.shortZero = true) : p.cost .escape = 3 := if_pos (.inr ⟨rfl, h⟩)

theorem cost_literals {mode : ZeroLitMode} {p : Piece} (hl : p.len < 3)
    (h : mode = .verbatim ∨ p.shortZero = false) : p.cost mode = p.len := by
  refine if_neg ?_
  rintro (h3 | ⟨hm, hz⟩)
  · exact absurd h3 (not_le.2 hl)
  · rcases h with h | h
    · cases hm.symm.trans h
    · cases hz.symm.trans h

/-- A short piece is literals in a mode that does not escape it. -/
theorem tokens_literals {mode : ZeroLitMode} {p : Piece} (hl : p.len < 3)
    (h : mode = .verbatim ∨ p.shortZero = false) : p.tokens mode = List.replicate p.len p.byte := by
  refine emitPiece_literals hl ?_
  rcases h with h | h
  · exact .inr (.inl h)
  · by_contra hn
    simp only [not_or, not_not, Bool.not_eq_true] at hn
    cases h.symm.trans (shortZero_iff.2 ⟨hn.1, hl, hn.2.2⟩)

/-- The tokens of a piece have its cost as their length (R87). -/
theorem length_tokens (mode : ZeroLitMode) (p : Piece) : (p.tokens mode).length = p.cost mode := by
  rcases Nat.lt_or_ge p.len 3 with hs | hl
  · by_cases hz : mode = .escape ∧ p.shortZero = true
    · obtain ⟨rfl, hz⟩ := hz
      obtain ⟨hb, _, ht⟩ := shortZero_iff.1 hz
      rw [cost_of_shortZero hz, tokens, hb, ht, emitPiece_escape hs]; rfl
    · have h : mode = .verbatim ∨ p.shortZero = false := by
        rwa [← ne_verbatim_iff, not_and_or, not_not, Bool.not_eq_true] at hz
      rw [cost_literals hs h, tokens_literals hs h, List.length_replicate]
  · rw [cost_of_minRun_le mode hl, tokens, emitPiece_of_minRun_le _ _ _ hl]; rfl

/-- The modes write every piece but a short zero alike (R99). -/
theorem tokens_escape_of_not_shortZero {p : Piece} (h : p.shortZero = false) :
    p.tokens .escape = p.tokens .verbatim := by
  rcases Nat.lt_or_ge p.len 3 with hs | hl
  · rw [tokens_literals hs (.inr h), tokens_literals hs (.inl rfl)]
  · rw [tokens, tokens, emitPiece_of_minRun_le _ _ _ hl, emitPiece_of_minRun_le _ _ _ hl]

theorem one_le_cost (mode : ZeroLitMode) {p : Piece} (h : 1 ≤ p.len) : 1 ≤ p.cost mode := by
  unfold cost; split <;> omega

theorem cost_verbatim_le (p : Piece) : p.cost .verbatim ≤ p.len := by
  rcases Nat.lt_or_ge p.len 3 with hs | hl
  · exact (cost_literals hs (.inl rfl)).le
  · exact (cost_of_minRun_le _ hl).trans_le hl

/-- A short zero of length 1 costs 2 bytes more under ESCAPE, and one of length 2 costs 1 more (R99). -/
theorem cost_escape {p : Piece} (h1 : 1 ≤ p.len) :
    p.cost .escape = p.cost .verbatim + 2 * (if p.shortZero && decide (p.len = 1) then 1 else 0) +
      (if p.shortZero && decide (p.len = 2) then 1 else 0) := by
  cases hz : p.shortZero with
  | true =>
    obtain ⟨_, hs, _⟩ := shortZero_iff.1 hz
    rw [cost_of_shortZero hz, cost_literals hs (.inl rfl)]
    obtain h | h : p.len = 1 ∨ p.len = 2 := by omega
    · simp [h]
    · simp [h]
  | false =>
    rw [← length_tokens, ← length_tokens, tokens_escape_of_not_shortZero hz]
    simp

end Piece

/-- The stream of an input is the tokens of its pieces, in order (R86). -/
theorem encodeBytes_eq_flatMap (mode : ZeroLitMode) (x : List Byte) :
    encodeBytes mode x = (pieces x).flatMap (Piece.tokens mode) := by
  induction x using piece_induction with
  | nil => rfl
  | piece v bs ih => rw [encodeBytes_cons, pieces_cons, List.flatMap_cons, ih]; rfl

/-- R87's sum. -/
theorem length_encodeBytes (mode : ZeroLitMode) (x : List Byte) :
    (encodeBytes mode x).length = ((pieces x).map (Piece.cost mode)).sum := by
  rw [encodeBytes_eq_flatMap, List.length_flatMap]
  simp only [Piece.length_tokens]

theorem length_encodeBytes_verbatim_le (x : List Byte) : (encodeBytes .verbatim x).length ≤ x.length :=
  calc (encodeBytes .verbatim x).length
      = ((pieces x).map (Piece.cost .verbatim)).sum := length_encodeBytes .verbatim x
    _ ≤ ((pieces x).map Piece.len).sum := List.sum_le_sum fun p _ => p.cost_verbatim_le
    _ = x.length := sum_len_pieces x

theorem one_le_length_encodeBytes (mode : ZeroLitMode) {x : List Byte} (h : 1 ≤ x.length) :
    1 ≤ (encodeBytes mode x).length := by
  match x, h with
  | v :: bs, _ =>
    have := Piece.one_le_cost mode (p := ⟨v, pieceLen (v :: bs), inTail (v :: bs)⟩) (pieceLen_pos v bs)
    rw [length_encodeBytes, pieces_cons, List.map_cons, List.sum_cons]
    omega

/-- The modes agree on an input without a short zero piece (R99). -/
theorem encodeBytes_escape_of_no_shortZero {x : List Byte} (h : ∀ p ∈ pieces x, p.shortZero = false) :
    encodeBytes .escape x = encodeBytes .verbatim x := by
  rw [encodeBytes_eq_flatMap, encodeBytes_eq_flatMap]
  exact List.flatMap_congr fun p hp => Piece.tokens_escape_of_not_shortZero (h p hp)

/-- How many bytes more ESCAPE costs for some pieces (R99). -/
theorem sum_cost_escape {ps : List Piece} (h : ∀ p ∈ ps, 1 ≤ p.len) :
    (ps.map (Piece.cost .escape)).sum = (ps.map (Piece.cost .verbatim)).sum +
      2 * (ps.countP fun p => p.shortZero && decide (p.len = 1)) +
      ps.countP fun p => p.shortZero && decide (p.len = 2) := by
  induction ps with
  | nil => rfl
  | cons p ps ih =>
    obtain ⟨hp, hps⟩ := List.forall_mem_cons.1 h
    simp only [List.map_cons, List.sum_cons, List.countP_cons, ih hps, Piece.cost_escape hp]
    omega

/-- How many bytes longer ESCAPE's stream is (R99). -/
theorem length_encodeBytes_escape (x : List Byte) :
    (encodeBytes .escape x).length = (encodeBytes .verbatim x).length +
      2 * ((pieces x).countP fun p => p.shortZero && decide (p.len = 1)) +
      (pieces x).countP fun p => p.shortZero && decide (p.len = 2) := by
  rw [length_encodeBytes, length_encodeBytes, sum_cost_escape one_le_len_of_mem_pieces]

/-- A short zero piece makes ESCAPE's stream longer, so equal streams have none (R99). -/
theorem no_shortZero_of_encodeBytes_eq {x : List Byte} (h : encodeBytes .escape x = encodeBytes .verbatim x) :
    ∀ p ∈ pieces x, p.shortZero = false := by
  intro p hp
  by_contra hz
  rw [Bool.not_eq_false] at hz
  obtain ⟨_, hs, _⟩ := Piece.shortZero_iff.1 hz
  have h1 := one_le_len_of_mem_pieces p hp
  have hlen := length_encodeBytes_escape x
  rw [h] at hlen
  obtain hl | hl : p.len = 1 ∨ p.len = 2 := by omega
  · have : 0 < (pieces x).countP fun p => p.shortZero && decide (p.len = 1) :=
      List.countP_pos_iff.2 ⟨p, hp, by simp [hz, hl]⟩
    omega
  · have : 0 < (pieces x).countP fun p => p.shortZero && decide (p.len = 2) :=
      List.countP_pos_iff.2 ⟨p, hp, by simp [hz, hl]⟩
    omega

/-! ## A maximal run -/

/-- The run counted at the head of `n` copies is `n`, up to the limit. -/
theorem runLength_replicate_append {v : Byte} {after : List Byte} (h : after.head? ≠ some v) (limit n : Nat) :
    runLength v limit (List.replicate n v ++ after) = min n limit := by
  induction limit generalizing n with
  | zero => simp [runLength]
  | succ limit ih =>
    cases n with
    | zero =>
      cases after with
      | nil => simp [runLength]
      | cons b bs => simpa [runLength] using h
    | succ n =>
      rw [List.replicate_succ, List.cons_append, runLength, if_pos rfl, ih, Nat.add_min_add_right]

/-- A maximal run's first piece and what follows it (R84, R89). -/
theorem encodeBytes_replicate_append (mode : ZeroLitMode) {v : Byte} {n : Nat} {after : List Byte} (h1 : 1 ≤ n)
    (h : after.head? ≠ some v) :
    encodeBytes mode (List.replicate n v ++ after) =
      emitPiece mode v (min n 255) (inTail (List.replicate n v ++ after)) ++
        encodeBytes mode (List.replicate (n - 255) v ++ after) := by
  obtain ⟨m, rfl⟩ : ∃ m, n = m + 1 := ⟨n - 1, by omega⟩
  have hp : pieceLen (v :: (List.replicate m v ++ after)) = min (m + 1) 255 := by
    rw [pieceLen_cons, runLength_replicate_append h]; omega
  have hrest : m + 1 - min (m + 1) 255 = m + 1 - 255 := by omega
  have hdrop : (v :: (List.replicate m v ++ after)).drop (min (m + 1) 255) =
      List.replicate (m + 1 - 255) v ++ after := by
    rw [← List.cons_append, ← List.replicate_succ, List.drop_append_of_le_length (by simp), List.drop_replicate,
      hrest]
  rw [List.replicate_succ, List.cons_append, encodeBytes_cons, hp, hdrop]

/-- Each 255 bytes of a maximal run are one record (R89). -/
theorem encodeBytes_full_records (mode : ZeroLitMode) {v : Byte} (q r : Nat) {after : List Byte}
    (h : after.head? ≠ some v) :
    encodeBytes mode (List.replicate (255 * q + r) v ++ after) =
      (List.replicate q [0x00, 0xFF, v]).flatten ++ encodeBytes mode (List.replicate r v ++ after) := by
  induction q with
  | zero => simp
  | succ q ih =>
    have hmin : min (255 * (q + 1) + r) 255 = 255 := by omega
    have hsub : 255 * (q + 1) + r - 255 = 255 * q + r := by omega
    have hrecord : ∀ tail, emitPiece mode v 255 tail = [0x00, 0xFF, v] :=
      fun tail => emitPiece_of_minRun_le mode v tail (by decide)
    rw [encodeBytes_replicate_append mode (by omega) h, hmin, hsub, ih, hrecord, List.replicate_succ,
      List.flatten_cons, List.append_assoc]

/-- The remainder of a maximal run, by its length, its byte and its place (R85, R89). -/
theorem emitPiece_remainder (mode : ZeroLitMode) (v : Byte) (r : Nat) (after : List Byte) :
    emitPiece mode v r (inTail (List.replicate r v ++ after)) =
      if 3 ≤ r then [0x00, BitVec.ofNat 8 r, v]
      else if v ≠ 0x00 ∨ mode = .verbatim ∨ r + after.length ≤ 2 then List.replicate r v
      else [0x00, BitVec.ofNat 8 r, 0x00] := by
  have htail : inTail (List.replicate r v ++ after) = true ↔ r + after.length ≤ 2 := by
    rw [inTail_iff, List.length_append, List.length_replicate]
  split_ifs with h3 hlit
  · exact emitPiece_of_minRun_le _ _ _ h3
  · exact emitPiece_literals (not_le.1 h3) (by rwa [htail])
  · simp only [not_or, not_not] at hlit
    obtain ⟨rfl, hm, ht⟩ := hlit
    rw [← htail, Bool.not_eq_true] at ht
    rw [ne_verbatim_iff.1 hm, ht]
    exact emitPiece_escape (not_le.1 h3)

/-! ## The codec commands -/

theorem execCompress_of_live {s : State} (hf : s.fatal = false) (hv : s.compressInvalid = false) :
    execCompress s = .next (s.commitCompress (encodeBytes s.cfg.zeroLitMode s.codecInput)) := by
  rw [execCompress, State.whenLive_of_live hf, hv]; rfl

theorem execCompress_of_invalid {s : State} (hf : s.fatal = false) (hv : s.compressInvalid = true) :
    execCompress s = .next s.failInvalid := by
  rw [execCompress, State.whenLive_of_live hf, if_pos hv]

theorem execDecompress_of_invalid {s : State} (hf : s.fatal = false) (hv : s.decompressInvalid = true) :
    execDecompress s = .next s.failInvalid := by
  rw [execDecompress, State.whenLive_of_live hf, if_pos hv]

/-- Two ends of a codec command show the same results (R101): the same length and error, and where it completed the
same output and counts. -/
def State.SameResults (t v : State) : Prop :=
  t.outLen = v.outLen ∧ errField t.status = errField v.status ∧
    (errField t.status = ErrCode.none.code → t.outBuf = v.outBuf ∧ t.consumed = v.consumed ∧ t.produced = v.produced)

/-- An INVALID command's results depend on nothing. -/
theorem State.sameResults_failInvalid (s u : State) : s.failInvalid.SameResults u.failInvalid := by
  refine ⟨rfl, ?_, fun h => ?_⟩
  · rw [failInvalid_status, failInvalid_status, errField_withErr, errField_withErr]
  · rw [failInvalid_status, errField_withErr, ErrCode.code_inj] at h
    cases h

theorem outCap_congr {c c' : Config} (h : c.inCap = c'.inCap) : c.outCap = c'.outCap := by
  rw [Config.outCap, Config.outCap, h]

section SameOperands

variable {s u : State} (hcap : s.cfg.inCap = u.cfg.inCap) (hlen : s.inLen = u.inLen)
include hcap hlen

theorem compressInvalid_congr : s.compressInvalid = u.compressInvalid := by
  rw [State.compressInvalid, State.compressInvalid, State.inputLength, State.inputLength, hcap, hlen]

theorem decompressInvalid_congr (ho : s.origLen = u.origLen) : s.decompressInvalid = u.decompressInvalid := by
  rw [Bool.eq_iff_iff, s.decompressInvalid_iff, u.decompressInvalid_iff, hcap, hlen, ho, outCap_congr hcap]

variable (hs : s.fatal = false) (hu : u.fatal = false) (hin : s.codecInput = u.codecInput)
include hs hu hin

theorem execCompress_sameResults (hmode : s.cfg.zeroLitMode = u.cfg.zeroLitMode) {t v : State}
    (ht : execCompress s = .next t) (hv : execCompress u = .next v) : t.SameResults v := by
  have hinv := compressInvalid_congr hcap hlen
  cases hi : s.compressInvalid with
  | true =>
    cases (execCompress_of_invalid hs hi).symm.trans ht
    cases (execCompress_of_invalid hu (hinv ▸ hi)).symm.trans hv
    exact s.sameResults_failInvalid u
  | false =>
    cases (execCompress_of_live hs hi).symm.trans ht
    cases (execCompress_of_live hu (hinv ▸ hi)).symm.trans hv
    rw [hin, hmode]
    simp [State.SameResults, outCap_congr hcap, hlen]

theorem execDecompress_sameResults (ho : s.origLen = u.origLen) {t v : State}
    (ht : execDecompress s = .next t) (hv : execDecompress u = .next v) : t.SameResults v := by
  have hinv := decompressInvalid_congr hcap hlen ho
  have hwant : s.requestedLength = u.requestedLength := congrArg BitVec.toNat ho
  cases hi : s.decompressInvalid with
  | true =>
    cases (execDecompress_of_invalid hs hi).symm.trans ht
    cases (execDecompress_of_invalid hu (hinv ▸ hi)).symm.trans hv
    exact s.sameResults_failInvalid u
  | false =>
    cases (execDecompress_of_live hs hi).symm.trans ht
    cases (execDecompress_of_live hu (hinv ▸ hi)).symm.trans hv
    rw [hin, hwant]
    simp [State.SameResults, outCap_congr hcap]

end SameOperands

/-! ## Tokens -/

/-- A decoder goes on at a token exactly where it has room and the token stands at its position. -/
theorem Decoder.ready_and_token_iff {d : Decoder} {i : Instr} :
    d.ready = true ∧ d.token = some i ↔ 0 < d.room ∧ ∃ rest, decodeToken d.rest = .ok (i, rest) := by
  rw [ready_iff, token_eq_some_iff, and_comm (a := d.rest ≠ []), and_assoc, and_congr_right_iff]
  refine fun _ => and_iff_right_of_imp ?_
  rintro ⟨rest, h⟩ hn
  rw [hn] at h
  cases h

/-- A token that stands at a decoder with room runs as its step, and changes nothing but the decoder (R92). -/
theorem exec_token {s : State} {d : Decoder} {i : Instr} {rest : List Byte} (hd : s.decoder = some d)
    (hroom : 0 < d.room) (ht : decodeToken d.rest = .ok (i, rest)) :
    exec i s = .next { s with decoder := some (d.take i) } := by
  obtain ⟨hready, htoken⟩ := Decoder.ready_and_token_iff.2 ⟨hroom, rest, ht⟩
  rw [exec_of_token (Decoder.format_of_token htoken), State.tokenStep_of_at hd hready htoken]

/-- A token's step stops exactly where no decoder stands at the token. -/
theorem State.tokenStep_fault_iff {s : State} {i : Instr} {f : Decoder → Decoder} :
    s.tokenStep i f = .fault .tokenOutsideScan ↔
      ∀ d, s.decoder = some d → ¬(d.ready = true ∧ d.token = some i) := by
  cases hd : s.decoder with
  | none => simp [tokenStep, hd]
  | some d => simp [tokenStep, hd]

/-! ## The obligations of the codec -/

/-- Settles O7: the scan of the whole stream, from position 0 with nothing produced. -/
theorem encodeThenDecode : Obligations.EncodeThenDecode := by
  unfold Obligations.EncodeThenDecode
  intro x _
  rw [decodeBytes, Decoder.start, Decoder.scan_encodeBytes]
  simp [Decoder.result, Decoder.out]

/-- Settles O8: the bound holds of every input, the empty one too. -/
theorem encodeAtMostTwice : Obligations.EncodeAtMostTwice := by
  unfold Obligations.EncodeAtMostTwice
  exact fun mode x _ => length_encodeBytes_le mode x

/-- Settles O9: the sum over the pieces, and each bound from the cost of one piece. -/
theorem encodedLengthByPieces : Obligations.EncodedLengthByPieces := by
  unfold Obligations.EncodedLengthByPieces
  exact fun x h => ⟨fun mode => length_encodeBytes mode x, fun mode => one_le_length_encodeBytes mode h,
    length_encodeBytes_verbatim_le x, length_encodeBytes_le .escape x,
    fun hz => encodeBytes_escape_of_no_shortZero hz ▸ length_encodeBytes_verbatim_le x⟩

/-- Settles O10: the modes' tokens differ for a short zero piece only, and there in their number. -/
theorem modesDifferOnShortZeros : Obligations.ModesDifferOnShortZeros := by
  unfold Obligations.ModesDifferOnShortZeros
  intro x
  rw [← List.countP_eq_length_filter, ← List.countP_eq_length_filter]
  exact ⟨⟨no_shortZero_of_encodeBytes_eq, encodeBytes_escape_of_no_shortZero⟩, length_encodeBytes_escape x⟩

/-- Settles O11: such an input has the same stream under ESCAPE, which survives the round trip. -/
theorem verbatimRoundTrip : Obligations.VerbatimRoundTrip := by
  unfold Obligations.VerbatimRoundTrip
  intro x h hz
  rw [← encodeBytes_escape_of_no_shortZero hz]
  exact encodeThenDecode x h

/-- Settles O12: the full records by induction on their number, then the remainder as one piece. -/
theorem maximalRunEncoding : Obligations.MaximalRunEncoding := by
  unfold Obligations.MaximalRunEncoding
  intro mode v q r after hr _ h
  rw [encodeBytes_full_records mode q r h, List.append_assoc]
  congr 1
  rcases Nat.eq_zero_or_pos r with rfl | hpos
  · rfl
  · rw [encodeBytes_replicate_append mode hpos h, min_eq_left hr.le, Nat.sub_eq_zero_of_le hr.le, emitPiece_remainder,
      if_neg hpos.ne']
    rfl

/-- Settles O13: a scan keeps N and the requested length, and ends only where one of them is used up. -/
theorem decodeNeverFails : Obligations.DecodeNeverFails := by
  unfold Obligations.DecodeNeverFails
  intro c want _ _
  obtain ⟨_, hwant, hpos, hend⟩ := (Decoder.start c want .decompress).scan_keeps
  refine ⟨length_decodeBytes_data c want, decodeBytes_prod_le c want, decodeBytes_cons_le c want, ?_⟩
  rw [Decoder.start_want] at hwant
  simp only [decodeBytes, Decoder.result]
  generalize (Decoder.start c want .decompress).scan = d at *
  have hpos : d.pos + d.rest.length = 0 + c.length := hpos
  have hwant : d.made.length + d.room = want := hwant
  have hend : d.rest.length = 0 ∨ d.room = 0 := by
    rw [← Bool.not_eq_true, Decoder.ready_iff] at hend
    rw [List.length_eq_zero_iff]
    by_contra hn
    exact hend ⟨fun h => hn (.inl h), Nat.pos_of_ne_zero fun h => hn (.inr h)⟩
  omega

/-- Settles O16: a live DECOMPRESS is its scan's result committed, or INVALID. -/
theorem decompressCompletes : Obligations.DecompressCompletes := by
  unfold Obligations.DecompressCompletes
  refine fun s hf => ⟨fun h1 hin h2 hout => ?_, fun h => ?_⟩
  · have hw : BitVec.ofNat 32 s.requestedLength = s.origLen := by simp [State.requestedLength]
    have e := execDecompress_of_live hf (s.decompressInvalid_eq_false_iff.2 ⟨h1, hin, h2, hout⟩)
    rw [State.commitDecompress, zeroPadded, length_decodeBytes_data, hw] at e
    exact e
  · exact execDecompress_of_invalid hf (s.decompressInvalid_iff.2 h)

/-- Settles O18: each command's outcome is computed from its operands. -/
theorem codecDependsOnOperandsOnly : Obligations.CodecDependsOnOperandsOnly := by
  unfold Obligations.CodecDependsOnOperandsOnly
  intro s u t v hcap hs hu hlen hin
  exact ⟨fun hmode ht hv => execCompress_sameResults hcap hlen hs hu hin hmode ht hv,
    fun ho ht hv => execDecompress_sameResults hcap hlen hs hu hin ho ht hv⟩

/-- Settles O14: a live COMPRESS is its stream committed, or INVALID. -/
theorem compressCompletes : Obligations.CompressCompletes := by
  unfold Obligations.CompressCompletes
  exact fun s hf => ⟨fun h1 hin => execCompress_of_live hf (s.compressInvalid_eq_false_iff.2 ⟨h1, hin⟩),
    fun h => execCompress_of_invalid hf (s.compressInvalid_iff.2 h)⟩

/-- Settles O35: each token is what the decoder reads at its bytes, and its step is taken there. -/
theorem tokenSteps : Obligations.TokenSteps := by
  unfold Obligations.TokenSteps
  intro s d hd hroom
  refine ⟨fun c v rest e => ?_, fun rest e hl => ?_, fun l rest e hl => ?_⟩
  · rw [exec_token hd hroom (e ▸ decodeToken_run c v rest), Decoder.take, Decoder.takeRun, e]; rfl
  · rw [exec_token hd hroom (e ▸ decodeToken_tail hl), Decoder.take, Decoder.takeLit, e]; rfl
  · rw [exec_token hd hroom (e ▸ decodeToken_lit hl rest), Decoder.take, Decoder.takeLit, e]; rfl

/-- Settles O37: a token runs as a token step, which stops away from the token. -/
theorem tokenOutsideScanStops : Obligations.TokenOutsideScanStops := by
  unfold Obligations.TokenOutsideScanStops
  intro i s hi
  rw [exec_of_token hi, State.tokenStep_fault_iff]
  simp only [Decoder.ready_and_token_iff]

end Sys2Proof.Machine

/-! SUPPORT. The block adapter as a pair of commands (41_adapter.md): a block's parts read back as they were packed
(R73 to R75, R107), where a BLOCK_WRITE comes to (R111), how a BLOCK_READ ends by the class of the size field (R105,
R112), and what it makes of a block that a BLOCK_WRITE stored (R113 to R117). Then the obligations of 41_adapter.md. -/

namespace Sys2Proof.Machine

/-! ## A block's parts -/

/-- What stands between two parts of a block is its slice. -/
theorem slice_append {a b c : List Byte} {i j : Nat} (hi : a.length = i) (hj : i + b.length = j) :
    slice (a ++ (b ++ c)) i j = b := by
  subst hi hj
  rw [slice, Nat.add_sub_cancel_left, List.drop_left, List.take_left]

theorem slice_append_right {a b : List Byte} {i j : Nat} (hi : a.length = i) (hj : i + b.length = j) :
    slice (a ++ b) i j = b := by
  simpa using slice_append (c := []) hi hj

/-- A slice depends on the bytes up to its end only. -/
theorem slice_take (p : List Byte) (i j : Nat) : slice (p.take j) i j = slice p i j := by
  rw [slice, slice, List.drop_take, List.take_take, min_self]

/-- The size field depends on the first four bytes only (R72). -/
theorem sizeField_take {p : List Byte} {n : Nat} (h : 4 ≤ n) : sizeField (p.take n) = sizeField p := by
  have byte : ∀ i < 4, (p.take n).getD i 0 = p.getD i 0 := fun i hi => by
    rw [List.getD_eq_getElem?_getD, List.getD_eq_getElem?_getD, List.getElem?_take_of_lt (by omega)]
  simp only [sizeField, byte 0 (by decide), byte 1 (by decide), byte 2 (by decide), byte 3 (by decide)]

theorem length_zeroPadded {n : Nat} {bs : List Byte} (h : bs.length ≤ n) : (zeroPadded n bs).length = n := by
  rw [zeroPadded, List.length_append, List.length_replicate, Nat.add_sub_cancel' h]

/-- A zero fill in two stages is one (R96, R112). -/
theorem zeroPadded_zeroPadded {m n : Nat} (bs : List Byte) (h : m ≤ n) :
    zeroPadded n (zeroPadded m bs) = zeroPadded n bs := by
  simp only [zeroPadded, List.append_assoc, List.length_append, List.length_replicate, ← List.replicate_add]
  congr 2
  omega

/-- A buffer filled with a list reads as that list's first bytes. -/
theorem Memory.readRange_bufferOf_take {bs : List Byte} {k : Nat} (h : k ≤ bs.length) :
    readRange bufferBlank (bufferOf bs) 0 k = bs.take k := by
  rw [readRange_eq_map (bufferOf_wf bs)]
  refine List.ext_getElem (by simpa using h) fun j _ hj => ?_
  have hjb : j < bs.length := (List.length_take_le' k bs).trans_lt' hj
  simp [read_bufferOf, List.getElem?_eq_getElem hjb]

/-- A result in a zero-filled buffer reads as itself. -/
theorem readRange_zeroPadded_head {n : Nat} {bs : List Byte} (h : bs.length ≤ n) :
    Memory.readRange bufferBlank (bufferOf (zeroPadded n bs)) 0 bs.length = bs := by
  rw [Memory.readRange_bufferOf_take (h.trans_eq (length_zeroPadded h).symm), zeroPadded, List.take_left]

/-! ## What a BLOCK_WRITE stores -/

/-- The stream a BLOCK_WRITE encodes (R106). -/
abbrev State.blockStream (s : State) : List Byte := encodeBytes s.cfg.zeroLitMode s.logicalBlock

/-- The payload a BLOCK_WRITE stores RAW: the logical block, cut to S - 4 bytes under TRUNC (R74, R75). -/
def State.rawPayload (s : State) : List Byte :=
  match s.cfg.rawMode with
  | .wide => s.logicalBlock
  | .trunc => s.logicalBlock.take (s.cfg.sectorSize - 4)

theorem exec_blockWrite_of_out_of_range {s : State} (hf : s.fatal = false) (hr : s.devSectors ≤ s.sector.toNat) :
    exec .blockWrite s = .next (s.raiseFatal .range) := by
  rw [exec, execBlockWrite, State.whenLive_of_live hf, if_pos (s.sectorOutOfRange_iff.2 hr)]

/-- A live BLOCK_WRITE in range comes to one state only. -/
theorem eq_stored_of_exec {s t : State} (hf : s.fatal = false) (hr : s.sector.toNat < s.devSectors)
    (he : exec .blockWrite s = .next t) : t = s.stored := by
  cases (execBlockWrite_of_live hf hr).symm.trans he
  rfl

namespace State

theorem packed_of_fits {s : State} (h : s.blockStream.length ≤ s.cfg.cap) :
    s.packed = bytesLE32 (BitVec.ofNat 32 s.blockStream.length) ++
      (s.blockStream ++ List.replicate (s.cfg.physSize - 4 - s.blockStream.length) 0x00) := by
  rw [packed, selectWrite_of_le h, pack, List.append_assoc]
  rfl

theorem packed_of_exceeds {s : State} (h : s.cfg.cap < s.blockStream.length) :
    s.packed = bytesLE32 0 ++ s.rawPayload := by
  rw [packed, selectWrite_of_gt h, pack, rawPayload]
  cases s.cfg.rawMode <;> rfl

theorem stored_of_fits {s : State} (h : s.blockStream.length ≤ s.cfg.cap) :
    s.stored = { s with
      phys := bufferOf s.packed
      disk := Memory.write storeBlank s.disk (s.sector.toNat * s.cfg.physSize) s.packed
      wrCnt := s.wrCnt + 1
      hdr := BitVec.ofNat 32 s.blockStream.length
      status := withErr (withMode s.status .encoded) .none } := by
  rw [stored, selectWrite_of_le h]
  rfl

theorem stored_of_exceeds {s : State} (h : s.cfg.cap < s.blockStream.length) :
    s.stored = { s with
      phys := bufferOf s.packed
      disk := Memory.write storeBlank s.disk (s.sector.toNat * s.cfg.physSize) s.packed
      wrCnt := s.wrCnt + 1
      hdr := 0
      status := withErr (withMode s.status .raw) .none } := by
  rw [stored, selectWrite_of_gt h]
  rfl

theorem modeBit_stored_of_fits {s : State} (h : s.blockStream.length ≤ s.cfg.cap) :
    modeBit s.stored.status = true := by simp [selectWrite_of_le h, BlockMode.toBool]

theorem modeBit_stored_of_exceeds {s : State} (h : s.cfg.cap < s.blockStream.length) :
    modeBit s.stored.status = false := by simp [selectWrite_of_gt h, BlockMode.toBool]

/-- STATUS.MODE says whether the stream fitted (R106, R108). -/
theorem fits_of_modeBit_stored {s : State} (h : modeBit s.stored.status = true) :
    s.blockStream.length ≤ s.cfg.cap := by
  by_contra hn
  cases (modeBit_stored_of_exceeds (not_le.1 hn)).symm.trans h

theorem hdr_stored_of_fits {s : State} (h : s.blockStream.length ≤ s.cfg.cap) :
    s.stored.hdr = BitVec.ofNat 32 s.blockStream.length := by rw [stored_of_fits h]

theorem hdr_stored_of_exceeds {s : State} (h : s.cfg.cap < s.blockStream.length) : s.stored.hdr = 0 := by
  rw [stored_of_exceeds h]

theorem cap_le_outCap {s : State} (hl : s.legalConfig = true) : s.cfg.cap ≤ s.cfg.outCap :=
  (Nat.sub_le _ _).trans (sectorSize_le_outCap hl)

/-- The length of a stream that fits CAP fits the size field. -/
theorem toNat_ofNat_length_blockStream {s : State} (hl : s.legalConfig = true)
    (h : s.blockStream.length ≤ s.cfg.cap) :
    (BitVec.ofNat 32 s.blockStream.length).toNat = s.blockStream.length :=
  toNat_ofNat_of_le_outCap hl (h.trans (cap_le_outCap hl))

theorem one_le_length_blockStream {s : State} (hl : s.legalConfig = true) : 1 ≤ s.blockStream.length := by
  obtain ⟨h5, _⟩ := s.legalConfig_iff.1 hl
  exact one_le_length_encodeBytes _ (by rw [length_logicalBlock]; omega)

theorem four_add_cap_le_physSize {s : State} (hl : s.legalConfig = true) : 4 + s.cfg.cap ≤ s.cfg.physSize := by
  obtain ⟨h5, _⟩ := s.legalConfig_iff.1 hl
  unfold Config.cap Config.physSize Config.hdrSize
  split <;> omega

/-- The stream of a packed block. -/
theorem slice_packed_stream {s : State} (h : s.blockStream.length ≤ s.cfg.cap) :
    slice s.packed 4 (4 + s.blockStream.length) = s.blockStream := by
  rw [packed_of_fits h]
  exact slice_append (length_bytesLE32 _) rfl

/-- The padding of a packed block. -/
theorem slice_packed_padding {s : State} (hl : s.legalConfig = true) (h : s.blockStream.length ≤ s.cfg.cap) :
    slice s.packed (4 + s.blockStream.length) s.cfg.physSize =
      List.replicate (s.cfg.physSize - (4 + s.blockStream.length)) 0x00 := by
  have hroom := four_add_cap_le_physSize hl
  rw [packed_of_fits h, ← List.append_assoc, Nat.sub_sub]
  refine slice_append_right ?_ ?_
  · rw [List.length_append, length_bytesLE32]
  · rw [List.length_replicate]; omega

/-- `Blk[SECTOR]` after a BLOCK_WRITE (R111). -/
theorem block_stored_sector {s : State} (hl : s.legalConfig = true) :
    s.stored.block s.sector.toNat = s.packed := block_stored hl

/-- Every BLOCK_WRITE stores a block whose size field is HDR. -/
theorem sizeField_block_stored {s : State} (hl : s.legalConfig = true) :
    sizeField (s.stored.block s.sector.toNat) = s.stored.hdr := by
  rw [block_stored_sector hl]
  exact sizeField_pack_selectWrite _ _

end State

/-! ## How a BLOCK_READ ends -/

/-- A BLOCK_READ of an ENCODED block whose scan has ended: the block is latched, and nothing of the scan is left. -/
abbrev State.latched (s : State) : State := { s.latchBlock s.readBlock with decoder := none }

theorem exec_blockRead_of_out_of_range {s : State} (hf : s.fatal = false) (hr : s.devSectors ≤ s.sector.toNat) :
    exec .blockRead s = .next (s.raiseFatal .range) := by
  rw [exec, execBlockRead, State.whenLive_of_live hf, if_pos (s.sectorOutOfRange_iff.2 hr)]

section LiveRead

variable {s : State} (hf : s.fatal = false) (hr : s.sector.toNat < s.devSectors)
include hf hr

theorem exec_blockRead_raw (h : (sizeField s.readBlock).toNat = 0) :
    exec .blockRead s = .next ((s.latchBlock s.readBlock).commitRead (unpackRaw s.cfg s.readBlock)) := by
  have hc := classify_raw_iff (c := s.cfg).2 h
  rcases execBlockRead_of_live hf hr with ⟨_, e⟩ | ⟨h', _⟩ | ⟨h', _⟩
  · exact e
  · cases hc.symm.trans h'
  · cases hc.symm.trans h'

theorem exec_blockRead_invalid (h : s.cfg.cap < (sizeField s.readBlock).toNat) :
    exec .blockRead s = .next ((s.latchBlock s.readBlock).raiseFatal .corrupt) := by
  have hc := classify_invalid_iff.2 ⟨by omega, h⟩
  rcases execBlockRead_of_live hf hr with ⟨h', _⟩ | ⟨_, e⟩ | ⟨h', _⟩
  · cases hc.symm.trans h'
  · exact e
  · cases hc.symm.trans h'

theorem exec_blockRead_encoded {h : Nat} (hh : (sizeField s.readBlock).toNat = h) (h1 : 1 ≤ h)
    (hcap : h ≤ s.cfg.cap) :
    exec .blockRead s = .next (s.latched.commitRead
      (unpackDecoded s.cfg h (decodeBytes (slice s.readBlock 4 (4 + h)) s.cfg.sectorSize))) := by
  subst hh
  have hc := classify_encoded_iff.2 ⟨h1, hcap⟩
  rcases execBlockRead_of_live hf hr with ⟨h', _⟩ | ⟨h', _⟩ | ⟨_, e⟩
  · cases hc.symm.trans h'
  · cases hc.symm.trans h'
  · exact e

end LiveRead

/-- A decode that STRICT_DECODE does not turn away is zero-filled to a logical block (R109). -/
theorem unpackDecoded_ok {c : Config} {h : Nat} {r : Decoded}
    (hs : c.strictDecode = true → c.sectorSize ≤ r.prod ∧ h ≤ r.cons) :
    unpackDecoded c h r = .ok .encoded (r.data ++ List.replicate (c.sectorSize - r.prod) 0x00) r.cons r.prod := by
  rcases unpackDecoded_cases c h r with ⟨_, hstrict, hshort⟩ | ⟨e, _⟩
  · obtain ⟨hp, hc⟩ := hs hstrict
    omega
  · exact e

/-- A BLOCK_READ's decode, zero-filled to S, is a zero-padded DECOMPRESS result (R117). -/
theorem decodeBytes_data_append_zeros (c : List Byte) (n : Nat) :
    (decodeBytes c n).data ++ List.replicate (n - (decodeBytes c n).prod) 0x00 =
      zeroPadded n (decodeBytes c n).data := by
  rw [zeroPadded, length_decodeBytes_data]

/-- The RAW case under WIDE gives the payload. -/
theorem unpackRaw_wide {c : Config} {l : List Byte} (hm : c.rawMode = .wide) (hl : l.length = c.sectorSize) :
    unpackRaw c (bytesLE32 0 ++ l) = .ok .raw l 0 c.sectorSize := by
  simp only [unpackRaw, hm]
  rw [slice_append_right (length_bytesLE32 _) (by rw [hl, Nat.add_comm])]

/-- The RAW case under TRUNC gives the payload and four zero bytes. -/
theorem unpackRaw_trunc {c : Config} {l : List Byte} (hm : c.rawMode = .trunc) (h4 : 4 ≤ c.sectorSize)
    (hl : l.length = c.sectorSize - 4) :
    unpackRaw c (bytesLE32 0 ++ l) = .ok .raw (l ++ List.replicate 4 0x00) 0 (c.sectorSize - 4) := by
  simp only [unpackRaw, hm]
  rw [slice_append_right (length_bytesLE32 _) (by rw [hl]; omega)]

/-- Two reads that end alike show the same results: the same size field and error, and where they completed the same
output, counts and mode. -/
theorem State.commitRead_same {x y : State} (hcfg : x.cfg = y.cfg) (hhdr : x.hdr = y.hdr) (r : Unpacked) :
    (x.commitRead r).hdr = (y.commitRead r).hdr ∧
    errField (x.commitRead r).status = errField (y.commitRead r).status ∧
    (errField (x.commitRead r).status = ErrCode.none.code →
      (x.commitRead r).outBuf = (y.commitRead r).outBuf ∧ (x.commitRead r).outLen = (y.commitRead r).outLen ∧
      (x.commitRead r).consumed = (y.commitRead r).consumed ∧
      (x.commitRead r).produced = (y.commitRead r).produced ∧
      modeBit (x.commitRead r).status = modeBit (y.commitRead r).status) := by
  cases r with
  | corrupt => simp [hhdr, FatalCode.err]
  | ok m b cons prod => simp [hhdr, hcfg]

/-- A BLOCK_READ that completes on an ENCODED block leaves what a DECOMPRESS of its stream for S bytes does (R117). -/
theorem exec_blockRead_completed_encoded {s t : State} (hl : s.legalConfig = true) (hf : s.fatal = false)
    (hr : s.sector.toNat < s.devSectors) (he : exec .blockRead s = .next t)
    (hn : errField t.status = ErrCode.none.code) (hm : modeBit t.status = true) :
    1 ≤ t.hdr.toNat ∧ t.hdr.toNat ≤ s.cfg.cap ∧
    ∀ r, decodeBytes (slice s.readBlock 4 (4 + t.hdr.toNat)) s.cfg.sectorSize = r →
      t.outBuf = bufferOf (zeroPadded s.cfg.outCap r.data) ∧ t.consumed = BitVec.ofNat 32 r.cons ∧
      t.produced = BitVec.ofNat 32 r.prod := by
  rcases execBlockRead_of_live hf hr with ⟨_, e⟩ | ⟨_, e⟩ | ⟨hc, e⟩
  · obtain ⟨b, n, eu, _⟩ := unpackRaw_ok s.cfg s.readBlock
    cases e.symm.trans he
    simp [eu, BlockMode.toBool] at hm
  · cases e.symm.trans he
    simp [FatalCode.err] at hn
  · obtain ⟨h1, hcap⟩ := classify_encoded_iff.1 hc
    generalize hh : (sizeField s.readBlock).toNat = h at *
    rcases unpackDecoded_cases s.cfg h (decodeBytes (slice s.readBlock 4 (4 + h)) s.cfg.sectorSize) with
      ⟨eu, _⟩ | ⟨eu, _⟩ <;> rw [eu] at e <;> cases e.symm.trans he
    · simp [FatalCode.err] at hn
    · have hhdr : ∀ r, (s.latched.commitRead r).hdr.toNat = h := fun r => by cases r <;> exact hh
      rw [hhdr]
      refine ⟨h1, hcap, ?_⟩
      rintro _ rfl
      refine ⟨congrArg bufferOf ?_, rfl, rfl⟩
      rw [decodeBytes_data_append_zeros]
      exact zeroPadded_zeroPadded _ (State.sectorSize_le_outCap hl)

/-- A BLOCK_READ of `u` completes with ERR = NONE, mode `m` and the logical block `b` in OUT. -/
def State.ReadsAs (u : State) (m : BlockMode) (b : List Byte) : Prop :=
  ∃ v, exec .blockRead u = .next v ∧ v.outBytes u.cfg.sectorSize = b ∧ errField v.status = ErrCode.none.code ∧
    v.fatal = false ∧ modeBit v.status = m.toBool

/-! ## Reading back what a BLOCK_WRITE stored -/

/-- `u` is a live block of the parameters of `s` that is about to read the block a BLOCK_WRITE of `s` stores: no write
to the sector came in between (R113, R114, R116). -/
structure State.ReadsBack (s u : State) : Prop where
  cfg : u.cfg = s.cfg
  live : u.fatal = false
  inRange : u.sector.toNat < u.devSectors
  block : u.readBlock = s.packed

theorem State.readsBack_of_stored {s u : State} (hl : s.legalConfig = true) (hr : s.sector.toNat < s.devSectors)
    (hcfg : u.cfg = s.stored.cfg) (hdev : u.devSectors = s.stored.devSectors) (hsec : u.sector = s.sector)
    (hf : u.fatal = false) (hblk : u.block s.sector.toNat = s.stored.block s.sector.toNat) : s.ReadsBack u where
  cfg := hcfg
  live := hf
  inRange := by rw [hsec, hdev]; exact hr
  block := by
    rw [readBlock, sectorIndex, hsec, hblk, block_stored_sector hl]

/-- The block that wrote reads back what it stored. -/
theorem State.readsBack_stored {s : State} (hl : s.legalConfig = true) (hf : s.fatal = false)
    (hr : s.sector.toNat < s.devSectors) : s.ReadsBack s.stored :=
  readsBack_of_stored hl hr rfl rfl rfl (by simpa [fatal] using hf) rfl

/-- Under ESCAPE a block's stream decodes to the block, in full (R97). -/
theorem State.decodeBytes_blockStream {s : State} (hl : s.legalConfig = true) (hm : s.cfg.zeroLitMode = .escape) :
    decodeBytes s.blockStream s.cfg.sectorSize = ⟨s.logicalBlock, s.blockStream.length, s.cfg.sectorSize⟩ := by
  obtain ⟨h5, _⟩ := s.legalConfig_iff.1 hl
  have e := encodeThenDecode s.logicalBlock (by rw [length_logicalBlock]; omega)
  rwa [← hm, length_logicalBlock] at e

namespace State.ReadsBack

variable {s u : State} (h : s.ReadsBack u) (hl : s.legalConfig = true)
include h hl

/-- A read that ends with a logical block shows it to the Host. -/
theorem readsAs_of_exec {x : State} {m : BlockMode} {b : List Byte} {cons prod : Nat}
    (he : exec .blockRead u = .next (x.commitRead (.ok m b cons prod))) (hx : x.cfg = u.cfg ∧ x.fatal = false)
    (hb : b.length = s.cfg.sectorSize) : u.ReadsAs m b := by
  obtain ⟨hcfg, hlive⟩ := hx
  have hout : b.length ≤ x.cfg.outCap := by rw [hb, hcfg, h.cfg]; exact sectorSize_le_outCap hl
  refine ⟨_, he, ?_, by simp, by simpa [fatal] using hlive, by simp⟩
  rw [h.cfg, ← hb]
  exact readRange_zeroPadded_head hout

/-- An ENCODED block reads back as the decode of its stream, unless STRICT_DECODE turns it away. -/
theorem encoded (hz : s.blockStream.length ≤ s.cfg.cap) {r : Decoded}
    (hdec : decodeBytes s.blockStream s.cfg.sectorSize = r)
    (hs : s.cfg.strictDecode = true → s.cfg.sectorSize ≤ r.prod ∧ s.blockStream.length ≤ r.cons) :
    u.ReadsAs .encoded (zeroPadded s.cfg.sectorSize r.data) := by
  subst hdec
  have hsize : (sizeField u.readBlock).toNat = s.blockStream.length := by
    rw [h.block, sizeField_pack_selectWrite, selectWrite_of_le hz]
    exact toNat_ofNat_length_blockStream hl hz
  have e := exec_blockRead_encoded h.live h.inRange hsize (one_le_length_blockStream hl) (h.cfg.symm ▸ hz)
  rw [h.block, slice_packed_stream hz, h.cfg, unpackDecoded_ok hs, decodeBytes_data_append_zeros] at e
  have hlen := length_zeroPadded
    ((length_decodeBytes_data s.blockStream s.cfg.sectorSize).trans_le (decodeBytes_prod_le _ _))
  exact h.readsAs_of_exec hl e ⟨rfl, h.live⟩ hlen

/-- A RAW block reads back as what the mux makes of its payload. -/
theorem raw (hz : s.cfg.cap < s.blockStream.length) {b : List Byte} {prod : Nat}
    (hu : unpackRaw s.cfg s.packed = .ok .raw b 0 prod) (hb : b.length = s.cfg.sectorSize) : u.ReadsAs .raw b := by
  have hsize : (sizeField u.readBlock).toNat = 0 := by
    rw [h.block, sizeField_pack_selectWrite, selectWrite_of_gt hz]
    rfl
  have e := exec_blockRead_raw h.live h.inRange hsize
  rw [h.block, h.cfg, hu] at e
  exact h.readsAs_of_exec hl e ⟨rfl, h.live⟩ hb

theorem raw_wide (hz : s.cfg.cap < s.blockStream.length) (hm : s.cfg.rawMode = .wide) :
    u.ReadsAs .raw s.logicalBlock := by
  refine h.raw hl hz (prod := s.cfg.sectorSize) ?_ s.length_logicalBlock
  rw [packed_of_exceeds hz, rawPayload, hm]
  exact unpackRaw_wide hm s.length_logicalBlock

theorem raw_trunc (hz : s.cfg.cap < s.blockStream.length) (hm : s.cfg.rawMode = .trunc) :
    u.ReadsAs .raw (s.logicalBlock.take (s.cfg.sectorSize - 4) ++ List.replicate 4 0x00) := by
  obtain ⟨h5, _⟩ := s.legalConfig_iff.1 hl
  have hlen : (s.logicalBlock.take (s.cfg.sectorSize - 4)).length = s.cfg.sectorSize - 4 := by simp
  refine h.raw hl hz (prod := s.cfg.sectorSize - 4) ?_ ?_
  · rw [packed_of_exceeds hz, rawPayload, hm]
    exact unpackRaw_trunc hm (by omega) hlen
  · rw [List.length_append, hlen, List.length_replicate]
    omega

/-- Under ESCAPE an ENCODED block reads back as the block that was written. -/
theorem encoded_escape (hz : s.blockStream.length ≤ s.cfg.cap) (hm : s.cfg.zeroLitMode = .escape) :
    u.ReadsAs .encoded s.logicalBlock := by
  have e := h.encoded hl hz (decodeBytes_blockStream hl hm) fun _ => ⟨le_rfl, le_rfl⟩
  rwa [zeroPadded, length_logicalBlock, Nat.sub_self, List.replicate_zero, List.append_nil] at e

end State.ReadsBack

/-- A logical block is its stored part and four zero bytes exactly where it ends in four zero bytes (R113). -/
theorem take_append_eq_self_iff {l z : List Byte} {n : Nat} : l.take n ++ z = l ↔ l.drop n = z := by
  conv_lhs => rhs; rw [← List.take_append_drop n l]
  rw [List.append_cancel_left_eq, eq_comm]

/-! ## The codec commands on a block -/

/-- A COMPRESS of a logical block leaves the stream a BLOCK_WRITE encodes (R117). -/
theorem exec_compress_logicalBlock {s c : State} (hl : s.legalConfig = true) (hcfg : c.cfg = s.cfg)
    (hf : c.fatal = false) (hlen : c.inLen.toNat = s.cfg.sectorSize)
    (hin : c.inBytes s.cfg.sectorSize = s.logicalBlock) :
    exec .compress c = .next (c.commitCompress s.blockStream) := by
  obtain ⟨h5, hS, _⟩ := s.legalConfig_iff.1 hl
  have hv : c.compressInvalid = false := c.compressInvalid_eq_false_iff.2 ⟨by omega, by rw [hcfg]; omega⟩
  have hcodec : c.codecInput = s.logicalBlock := by rw [State.codecInput, State.inputLength, hlen, hin]
  have e := execCompress_of_live hf hv
  rwa [hcodec, hcfg] at e

/-- A DECOMPRESS for S bytes of a stream that fits a block (R117). -/
theorem exec_decompress_sectorSize {s d : State} (hl : s.legalConfig = true) (hcfg : d.cfg = s.cfg)
    (hf : d.fatal = false) (h1 : 1 ≤ d.inLen.toNat) (hcap : d.inLen.toNat ≤ s.cfg.cap)
    (hwant : d.origLen.toNat = s.cfg.sectorSize) :
    exec .decompress d = .next ({ d with decoder := none }.commitDecompress s.cfg.sectorSize
      (decodeBytes (d.inBytes d.inLen.toNat) s.cfg.sectorSize)) := by
  obtain ⟨h5, hS, _⟩ := s.legalConfig_iff.1 hl
  have hout := State.sectorSize_le_outCap hl
  have hcapS : s.cfg.cap ≤ s.cfg.sectorSize := Nat.sub_le _ _
  have e := execDecompress_of_live hf (d.decompressInvalid_eq_false_iff.2
    ⟨h1, by rw [hcfg]; omega, by omega, by rw [hcfg]; omega⟩)
  rwa [State.codecInput, State.inputLength, State.requestedLength, hwant] at e

/-! ## Blocks that do not survive -/

/-- A block about to write the logical block `bs` to the one sector of its Store. -/
def State.writing (c : Config) (bs : List Byte) : State :=
  { State.launch c 1 [] 0 0 [] with inBuf := bufferOf bs }

/-- Under VERBATIM the stream `00 00 07 41` of this block opens with a RUN of no bytes when it is read (R98, R114). -/
def verbatimShortZero : State :=
  .writing { sectorSize := 8, inCap := 8, zeroLitMode := .verbatim } (0x00 :: List.replicate 7 0x41)

/-- Under TRUNC this block, whose stream of 8 bytes exceeds CAP = 4, loses its last four bytes (R113, R114). -/
def truncNonzeroTail : State :=
  .writing { sectorSize := 8, inCap := 8, rawMode := .trunc } [0x01, 0x02, 0x03, 0x04, 0x05, 0x06, 0x07, 0x08]

/-! ## The obligations of the adapter -/

/-- Settles O23: the range check comes first in both block commands. -/
theorem sectorOutOfRangeIsFatal : Obligations.SectorOutOfRangeIsFatal := by
  unfold Obligations.SectorOutOfRangeIsFatal
  rintro i s (rfl | rfl) hf hr
  · exact exec_blockWrite_of_out_of_range hf hr
  · exact exec_blockRead_of_out_of_range hf hr

/-- Settles O20: a live BLOCK_WRITE comes to `stored`, and the block is packed by whether the stream fits. -/
theorem blockWriteCompletes : Obligations.BlockWriteCompletes := by
  unfold Obligations.BlockWriteCompletes
  rintro s hf hr z blk rfl
  refine ⟨fun hz hblk => ?_, fun hz hblk => ?_⟩
  · have hp : s.packed = blk := by rw [hblk, List.append_assoc]; exact State.packed_of_fits hz
    subst hp
    exact (execBlockWrite_of_live hf hr).trans (congrArg _ (State.stored_of_fits hz))
  · have hp : s.packed = blk := (State.packed_of_exceeds hz).trans hblk.symm
    subst hp
    exact (execBlockWrite_of_live hf hr).trans (congrArg _ (State.stored_of_exceeds hz))

/-- Settles O24: the RAW case of the read side, in each RAW mode. -/
theorem blockReadRawCompletes : Obligations.BlockReadRawCompletes := by
  unfold Obligations.BlockReadRawCompletes
  rintro s _ hf hr rfl h0
  rw [exec_blockRead_raw hf hr h0, unpackRaw]
  cases s.cfg.rawMode <;> rfl

/-- Settles O25: the ENCODED case of the read side, where the decode is not turned away. -/
theorem blockReadEncodedCompletes : Obligations.BlockReadEncodedCompletes := by
  unfold Obligations.BlockReadEncodedCompletes
  rintro s _ h r hf hr rfl hh h1 hcap hdec hs
  refine (exec_blockRead_encoded hf hr hh.symm h1 hcap).trans ?_
  rw [State.readBlock, State.sectorIndex, ← hdec, unpackDecoded_ok hs]
  rfl

/-- Settles O22: HDR, MODE and the class follow from whether the stream fits CAP. -/
theorem writtenBlockState : Obligations.WrittenBlockState := by
  unfold Obligations.WrittenBlockState
  intro s t hl hf hr he
  cases eq_stored_of_exec hf hr he
  refine ⟨State.sizeField_block_stored hl, ?_⟩
  rcases Nat.lt_or_ge s.cfg.cap s.blockStream.length with hz | hz
  · rw [State.hdr_stored_of_exceeds hz]
    exact .inl ⟨rfl, State.modeBit_stored_of_exceeds hz, rfl⟩
  · have h1 := State.one_le_length_blockStream hl
    rw [State.hdr_stored_of_fits hz, State.toNat_ofNat_length_blockStream hl hz]
    exact .inr ⟨h1, hz, State.modeBit_stored_of_fits hz, classify_encoded_iff.2 ⟨h1, hz⟩⟩

/-- Settles O29: RAW under WIDE and ENCODED under ESCAPE read back whole; VERBATIM and TRUNC each lose a block. -/
theorem adapterRoundTrip : Obligations.AdapterRoundTrip := by
  unfold Obligations.AdapterRoundTrip
  refine ⟨fun s t u hl hf hr hesc hwide he hcfg hdev hsec hu hblk => ?_, ?_, ?_⟩
  · cases eq_stored_of_exec hf hr he
    have back := State.readsBack_of_stored hl hr hcfg hdev hsec hu hblk
    rw [← back.cfg]
    rcases Nat.lt_or_ge s.cfg.cap s.blockStream.length with hz | hz
    · rw [State.modeBit_stored_of_exceeds hz]
      exact back.raw_wide hl hz hwide
    · rw [State.modeBit_stored_of_fits hz]
      exact back.encoded_escape hl hz hesc
  · have hl : verbatimShortZero.legalConfig = true := by decide
    have hz : verbatimShortZero.blockStream.length ≤ verbatimShortZero.cfg.cap := by decide
    obtain ⟨v, hv, hout, _⟩ := (State.readsBack_stored hl rfl (by decide)).encoded hl hz rfl nofun
    exact ⟨_, _, v, hl, rfl, by decide, rfl, rfl, execBlockWrite_of_live rfl (by decide),
      State.modeBit_stored_of_fits hz, hv, ne_of_eq_of_ne hout (by decide)⟩
  · have hl : truncNonzeroTail.legalConfig = true := by decide
    have hz : truncNonzeroTail.cfg.cap < truncNonzeroTail.blockStream.length := by decide
    obtain ⟨v, hv, hout, _⟩ := (State.readsBack_stored hl rfl (by decide)).raw_trunc hl hz rfl
    exact ⟨_, _, v, hl, rfl, by decide, rfl, rfl, execBlockWrite_of_live rfl (by decide),
      State.modeBit_stored_of_exceeds hz, hv, ne_of_eq_of_ne hout (by decide)⟩

/-- Settles O30: a RAW block reads back as its payload, which under TRUNC is the block less its last four bytes. -/
theorem fallbackLaw : Obligations.FallbackLaw := by
  unfold Obligations.FallbackLaw
  intro s t u hl hf hr hz he hcfg hdev hsec hu hblk
  cases eq_stored_of_exec hf hr he
  have back := State.readsBack_of_stored hl hr hcfg hdev hsec hu hblk
  refine ⟨State.hdr_stored_of_exceeds hz, State.modeBit_stored_of_exceeds hz, ?_⟩
  cases hm : s.cfg.rawMode with
  | wide =>
    obtain ⟨v, hv, hout, herr, _⟩ := back.raw_wide hl hz hm
    rw [back.cfg] at hout
    exact ⟨v, hv, herr, fun _ => hout, nofun⟩
  | trunc =>
    obtain ⟨v, hv, hout, herr, _⟩ := back.raw_trunc hl hz hm
    rw [back.cfg] at hout
    exact ⟨v, hv, herr, nofun, fun _ => by rw [hout]; exact take_append_eq_self_iff⟩

/-- Settles O31: a decode is turned away only under STRICT_DECODE, and under ESCAPE the stream decodes in full (R97). -/
theorem encodedBlockReadsBack : Obligations.EncodedBlockReadsBack := by
  unfold Obligations.EncodedBlockReadsBack
  intro s t u hl hf hr he hm hcfg hdev hsec hu hblk
  cases eq_stored_of_exec hf hr he
  have hz := State.fits_of_modeBit_stored hm
  have back := State.readsBack_of_stored hl hr hcfg hdev hsec hu hblk
  have full := State.decodeBytes_blockStream hl
  refine ⟨fun hesc => ?_, fun hmode => ?_⟩
  · rw [State.block_stored_sector hl, State.hdr_stored_of_fits hz, State.toNat_ofNat_length_blockStream hl hz,
      State.slice_packed_stream hz, validStream, full hesc]
    exact ⟨rfl, rfl⟩
  · obtain ⟨v, hv, _, herr, hlive, hvm⟩ := back.encoded hl hz rfl fun hstrict => by
      rcases hmode with hesc | hlax
      · rw [full hesc]; exact ⟨le_rfl, le_rfl⟩
      · cases hlax.symm.trans hstrict
    exact ⟨v, hv, herr, hlive, hvm⟩

/-- Settles O32: both commands encode with the same function, and decode with the same function and zero fill. -/
theorem blockStreamIsCodecStream : Obligations.BlockStreamIsCodecStream := by
  unfold Obligations.BlockStreamIsCodecStream
  refine ⟨fun s t c u hl hf hr he hm hcfg hc hlen hin hu => ?_,
    fun s t d u hl hf hr he hn hm hcfg hd hlen hwant hin hu => ?_⟩
  · cases eq_stored_of_exec hf hr he
    have hz := State.fits_of_modeBit_stored hm
    cases (exec_compress_logicalBlock hl hcfg hc hlen hin).symm.trans hu
    have hout : s.blockStream.length ≤ c.cfg.outCap := by rw [hcfg]; exact hz.trans (State.cap_le_outCap hl)
    rw [State.block_stored_sector hl, State.hdr_stored_of_fits hz, State.commitCompress_outLen,
      State.toNat_ofNat_length_blockStream hl hz, State.slice_packed_stream hz]
    exact ⟨(readRange_zeroPadded_head hout).symm, rfl⟩
  · obtain ⟨h1, hcap, hread⟩ := exec_blockRead_completed_encoded hl hf hr he hn hm
    rw [← hlen] at h1 hcap
    cases (exec_decompress_sectorSize hl hcfg hd h1 hcap hwant).symm.trans hu
    obtain ⟨hbuf, hcons, hprod⟩ := hread _ (congrArg (decodeBytes · s.cfg.sectorSize) hin.symm)
    refine ⟨?_, hcons, hprod⟩
    rw [State.outBytes, State.outBytes, hbuf, State.commitDecompress_outBuf, hcfg]

/-- Settles O33: a BLOCK_READ of an ENCODED block is computed from its size field and its stream. -/
theorem paddingNeverRead : Obligations.PaddingNeverRead := by
  unfold Obligations.PaddingNeverRead
  refine ⟨fun s t hl hf hr he hm => ?_, fun s u t v hl hcfg hs hu hrs hru h1 hcap hp ht hv => ?_⟩
  · cases eq_stored_of_exec hf hr he
    have hz := State.fits_of_modeBit_stored hm
    rw [State.block_stored_sector hl, State.hdr_stored_of_fits hz, State.toNat_ofNat_length_blockStream hl hz]
    exact State.slice_packed_padding hl hz
  · have hsize : sizeField (u.block u.sector.toNat) = sizeField (s.block s.sector.toNat) := by
      rw [← sizeField_take (Nat.le_add_right 4 _), ← hp, sizeField_take (Nat.le_add_right 4 _)]
    have hstream := congrArg (slice · 4 (4 + (sizeField (s.block s.sector.toNat)).toNat)) hp
    simp only [slice_take] at hstream
    cases (exec_blockRead_encoded hs hrs rfl h1 hcap).symm.trans ht
    have ev := exec_blockRead_encoded hu hru (congrArg BitVec.toNat hsize) h1 (hcfg ▸ hcap)
    rw [State.readBlock, State.sectorIndex, ← hstream, ← hcfg] at ev
    cases ev.symm.trans hv
    exact State.commitRead_same (x := s.latched) (y := u.latched) hcfg hsize.symm _

/-- Settles O34: 508 is CAP for S = 512. -/
theorem capBoundary : Obligations.CapBoundary := by
  unfold Obligations.CapBoundary
  intro s t hl hS hf hr
  have hcap : s.cfg.cap = 508 := by rw [Config.cap, hS]; rfl
  refine ⟨fun hz he => ?_, fun hz he => ?_, fun hp he => ?_⟩
  · cases eq_stored_of_exec hf hr he
    have hfit : s.blockStream.length ≤ s.cfg.cap := (hz.trans hcap.symm).le
    refine ⟨?_, ?_, State.modeBit_stored_of_fits hfit⟩
    · rw [State.block_stored_sector hl, State.packed_of_fits hfit, List.take_append_of_le_length (by simp), hz]
      rfl
    · rw [State.hdr_stored_of_fits hfit, hz]; rfl
  · cases eq_stored_of_exec hf hr he
    have hover : s.cfg.cap < s.blockStream.length := by rw [hcap]; exact hz.ge
    refine ⟨?_, State.hdr_stored_of_exceeds hover, State.modeBit_stored_of_exceeds hover⟩
    · rw [State.block_stored_sector hl, State.packed_of_exceeds hover]
      rfl
  · have hsize : (sizeField s.readBlock).toNat = 509 := by
      rw [← sizeField_take le_rfl]
      exact (congrArg (fun p => (sizeField p).toNat) hp).trans (by decide)
    cases (exec_blockRead_invalid hf hr (by omega)).symm.trans he
    exact ⟨(errField_withFatal _).trans (errField_withErr _ _), fatalBit_withFatal _⟩

end Sys2Proof.Machine

/-! SUPPORT. Errors and the FATAL condition (60_exceptions.md): the code a live machine ends each command word with (R126
to R132), in the order of the checks (R134), what STATUS can hold after any instruction, and what each host action comes
to while STATUS.FATAL = 1 (R130). Then the obligations of 60_exceptions.md. -/

namespace Sys2Proof.Machine

/-! ## The error code of a command -/

/-- What makes a BLOCK_READ raise CORRUPT once its sector is in range (R132): (a) a size field above CAP, (b) under
STRICT_DECODE a decode that is short or leaves stream bytes. -/
abbrev State.ReadsCorrupt (s : State) : Prop :=
  let h := (sizeField s.readBlock).toNat
  let r := decodeBytes (slice s.readBlock 4 (4 + h)) s.cfg.sectorSize
  s.cfg.cap < h ∨ (1 ≤ h ∧ s.cfg.strictDecode = true ∧ (r.prod < s.cfg.sectorSize ∨ r.cons < h))

/-- The error code a command ends with on a live machine, by the first of its checks that fails (R134). A token ends no
command. -/
def State.commandErr (s : State) : Instr → ErrCode
  | .compress => if s.compressInvalid then .invalid else .none
  | .decompress => if s.decompressInvalid then .invalid else .none
  | .blockWrite => if s.sectorOutOfRange then .range else .none
  | .blockRead => if s.sectorOutOfRange then .range else if s.ReadsCorrupt then .corrupt else .none
  | .illegalCmd _ => .illegalCmd
  | .run _ _ | .lit0Tail | .lit _ => .none

/-- BLOCK_READ alone ends CORRUPT (R132). -/
theorem State.commandErr_ne_corrupt {i : Instr} (hi : i ≠ .blockRead) (s : State) : s.commandErr i ≠ .corrupt := by
  cases i with
  | blockRead => exact absurd rfl hi
  | compress | decompress | blockWrite => simp only [commandErr]; split <;> nofun
  | illegalCmd | run | lit0Tail | lit => nofun

theorem errField_raiseFatal (s : State) (c : FatalCode) : errField (s.raiseFatal c).status = c.err.code :=
  (errField_withFatal _).trans (errField_withErr _ _)

/-- A live BLOCK_READ of an ENCODED block whose decode STRICT_DECODE turns away (R109, R132 (b)). -/
theorem exec_blockRead_turned_away {s : State} {h : Nat} {r : Decoded} (hf : s.fatal = false)
    (hr : s.sector.toNat < s.devSectors) (hh : (sizeField s.readBlock).toNat = h)
    (hd : decodeBytes (slice s.readBlock 4 (4 + h)) s.cfg.sectorSize = r) (h1 : 1 ≤ h) (hcap : h ≤ s.cfg.cap)
    (hstrict : s.cfg.strictDecode = true) (hbad : r.prod < s.cfg.sectorSize ∨ r.cons < h) :
    exec .blockRead s = .next (s.latched.raiseFatal .corrupt) := by
  rw [exec_blockRead_encoded hf hr hh h1 hcap, hd]
  rcases unpackDecoded_cases s.cfg h r with ⟨e, _⟩ | ⟨_, hn⟩
  · rw [e]; rfl
  · exact absurd ⟨hstrict, hbad⟩ hn

/-- A live BLOCK_READ in range raises CORRUPT exactly where the block is corrupt, and else completes (R112, R132). -/
theorem errField_execBlockRead {s t : State} (hf : s.fatal = false) (hr : s.sector.toNat < s.devSectors)
    (he : execBlockRead s = .next t) :
    errField t.status = ErrCode.code (if s.ReadsCorrupt then .corrupt else .none) := by
  rcases execBlockRead_of_live hf hr with ⟨hc, e⟩ | ⟨hc, e⟩ | ⟨hc, e⟩ <;> cases e.symm.trans he
  · have h0 := classify_raw_iff.1 hc
    obtain ⟨b, n, eu, _⟩ := unpackRaw_ok s.cfg s.readBlock
    rw [if_neg (by simp [State.ReadsCorrupt, h0]), eu]
    exact errField_withErr _ _
  · rw [if_pos (.inl (classify_invalid_iff.1 hc).2)]
    exact errField_raiseFatal _ _
  · obtain ⟨h1, hcap⟩ := classify_encoded_iff.1 hc
    rcases unpackDecoded_cases s.cfg (sizeField s.readBlock).toNat (decodeBytes
      (slice s.readBlock 4 (4 + (sizeField s.readBlock).toNat)) s.cfg.sectorSize) with ⟨eu, hbad⟩ | ⟨eu, hgood⟩ <;>
      rw [eu]
    · rw [if_pos (.inr ⟨h1, hbad⟩)]
      exact errField_raiseFatal _ _
    · rw [if_neg (not_or.2 ⟨hcap.not_gt, fun h => hgood h.2⟩)]
      exact errField_withErr _ _

/-- On a live machine a command ends with the code of the first check that fails (R134). -/
theorem errField_exec_command {i : Instr} (hi : i.format = .cmd) {s t : State} (hf : s.fatal = false)
    (he : exec i s = .next t) : errField t.status = (s.commandErr i).code := by
  have gated {p : Prop} (h : s.fatal = true) : p := by cases h.symm.trans hf
  cases i with
  | compress =>
    rcases execCompress_cases s with ⟨h, _⟩ | ⟨_, hv, e⟩ | ⟨_, hv, e⟩
    · exact gated h
    all_goals
      cases e.symm.trans he
      rw [State.commandErr, hv]
      exact errField_withErr _ _
  | decompress =>
    rcases execDecompress_cases s with ⟨h, _⟩ | ⟨_, hv, e⟩ | ⟨_, hv, _⟩
    · exact gated h
    · cases e.symm.trans he
      rw [State.commandErr, hv]
      exact errField_withErr _ _
    · cases (execDecompress_of_live hf hv).symm.trans he
      rw [State.commandErr, hv]
      exact errField_withErr _ _
  | blockWrite =>
    rcases execBlockWrite_cases s with ⟨h, _⟩ | ⟨_, hr, e⟩ | ⟨_, hr, e⟩
    · exact gated h
    all_goals
      cases e.symm.trans he
      rw [State.commandErr, hr]
    · exact errField_raiseFatal _ _
    · exact errField_withErr _ _
  | blockRead =>
    rw [State.commandErr]
    cases hr : s.sectorOutOfRange with
    | true =>
      cases (exec_blockRead_of_out_of_range hf (s.sectorOutOfRange_iff.1 hr)).symm.trans he
      exact errField_raiseFatal _ _
    | false => exact errField_execBlockRead hf (s.sectorOutOfRange_eq_false_iff.1 hr) he
  | illegalCmd w =>
    rcases execIllegalCmd_cases w s with ⟨h, _⟩ | ⟨_, e⟩
    · exact gated h
    · cases e.symm.trans he
      exact errField_withErr _ _
  | run | lit0Tail | lit => cases hi

/-- An instruction keeps STATUS, or is a live command that ends with its code (R126, R128, R129). -/
theorem exec_status_cases {i : Instr} {s t : State} (he : exec i s = .next t) :
    t.status = s.status ∨ errField t.status = (s.commandErr i).code := by
  cases hi : i.format with
  | rleToken =>
    obtain ⟨_, _, _, _, rfl⟩ := State.tokenStep_next (exec_of_token hi s ▸ he)
    exact .inl rfl
  | cmd =>
    cases hf : s.fatal with
    | true =>
      cases (exec_command_of_fatal hi hf).symm.trans he
      exact .inl rfl
    | false => exact .inr (errField_exec_command hi hf he)

/-! ## The Host's actions while STATUS.FATAL = 1 -/

/-- A host action that starts no command makes no Store access (R38, R53). -/
theorem State.actionEffect_counters (s : State) (a : HostAction) :
    (s.actionEffect a).rdCnt = s.rdCnt ∧ (s.actionEffect a).wrCnt = s.wrCnt := by
  rcases s.actionEffect_cases a with ⟨_, e⟩ | ⟨_, t, r, e, rfl | ⟨w, off, v, h⟩⟩ <;> rw [e]
  · exact ⟨rfl, rfl⟩
  · exact ⟨rfl, rfl⟩
  · rcases windowWrite_cases h with rfl | rfl | rfl | rfl | ⟨_, _, _, rfl⟩ <;> exact ⟨rfl, rfl⟩

/-- The FATAL condition is entered where no scan is open (R36, R129). -/
theorem State.Inv.decoder_of_fatal {s : State} (h : s.Inv) (hf : s.fatal = true) : s.decoder = none :=
  Option.eq_none_iff_forall_ne_some.2 fun d hd => by cases hf.symm.trans (h.scan_live d hd)

theorem State.normalEnd_of_fatal {s : State} (hf : s.fatal = true) : s.normalEnd = false := by
  by_contra h
  cases hf.symm.trans (fatal_of_normalEnd (by simpa using h))

/-- A CMD write to a FATAL machine stores its word and executes nothing (R130). -/
theorem step_of_fatal_command {s : State} {w : Word} {rest : List HostAction} (hl : s.legalConfig = true)
    (hd : s.decoder = none) (hf : s.fatal = true) (hp : s.program = w32 0x000 w :: rest) :
    step s = .next ((s.withProgram rest).acceptCommand w) :=
  (step_of_instr hl (State.fetch_command hd hp)).trans (exec_command_of_fatal (format_decodeCommand w) hf)

/-! ## The obligations of the exceptions -/

/-- Settles O26: the class of the size field and the strict decode give the CORRUPT outcomes, and a command's code is
CORRUPT in no other case. -/
theorem corruptBlockIsFatal : Obligations.CorruptBlockIsFatal := by
  unfold Obligations.CorruptBlockIsFatal
  constructor
  · rintro s _ _ _ hf hr rfl rfl rfl
    refine ⟨exec_blockRead_invalid hf hr, exec_blockRead_turned_away hf hr rfl rfl, fun t he hc => ?_⟩
    rw [errField_execBlockRead hf hr he, ErrCode.code_inj, ite_eq_left_iff] at hc
    by_contra hn
    cases hc hn
  · intro i s t hi he hc
    rcases exec_status_cases he with h | h
    · exact h
    · exact absurd (ErrCode.code_inj.1 (h.symm.trans hc)) (s.commandErr_ne_corrupt hi)

/-- Settles O36: an illegal word writes STATUS.ERR at most, and a token's step keeps what every step of a scan keeps. -/
theorem illegalAndTokenFrame : Obligations.IllegalAndTokenFrame := by
  unfold Obligations.IllegalAndTokenFrame
  refine ⟨fun w s t he => ?_, fun i s t hi he => ?_⟩
  · rcases execIllegalCmd_cases w s with ⟨_, e⟩ | ⟨_, e⟩ <;> cases e.symm.trans he
    · exact ⟨s.status, rfl, rfl, rfl, rfl⟩
    · exact ⟨withErr s.status .illegalCmd, rfl, fatalBit_withErr _ _, modeBit_withErr _ _, reservedBits_withErr _ _⟩
  · obtain ⟨d, hd, hready, htoken, _⟩ := State.tokenStep_next (exec_of_token hi s ▸ he)
    cases (exec_token_at hd hready htoken).symm.trans he
    exact ⟨d, d.step, hd, rfl, Decoder.step_keeps hready⟩

/-- Settles O39: the gate of every command. -/
theorem fatalMachineExecutesNothing : Obligations.FatalMachineExecutesNothing := by
  unfold Obligations.FatalMachineExecutesNothing
  intro i s hi hf
  exact exec_command_of_fatal hi hf

/-- Settles O40: no scan is open, so the step is the Host's action: RESET, a CMD write, or one that starts no command. -/
theorem fatalConditionHolds : Obligations.FatalConditionHolds := by
  unfold Obligations.FatalConditionHolds
  intro s t a rest h hf hp hs
  have hd := h.decoder_of_fatal hf
  refine ⟨fun ha => ?_, fun ha => ?_⟩
  · subst ha
    cases (step_of_action h.config hd hp nofun).symm.trans hs
    exact fatalBit_zero
  · by_cases hw : ∃ w, a = w32 0x000 w
    · obtain ⟨w, rfl⟩ := hw
      cases (step_of_fatal_command h.config hd hf hp).symm.trans hs
      refine ⟨rfl, State.normalEnd_of_fatal hf, rfl, rfl, rfl, fun v hv => ?_, fun hn => absurd rfl (hn w)⟩
      cases hv
      rfl
    · rw [not_exists] at hw
      cases (step_of_action h.config hd hp hw).symm.trans hs
      have hstatus := State.actionEffect_status (s := s.withProgram rest) ha
      obtain ⟨_, _, hdisk⟩ := (s.withProgram rest).actionEffect_store a
      obtain ⟨hrd, hwr⟩ := (s.withProgram rest).actionEffect_counters a
      exact ⟨hstatus, State.normalEnd_of_fatal ((congrArg fatalBit hstatus).trans hf), hdisk, hrd, hwr,
        fun w hv => absurd hv (hw w), fun _ => rfl⟩

/-- Settles O44: the word's fields pick the command, and its code is that of the first check that fails. -/
theorem checkOrder : Obligations.CheckOrder := by
  unfold Obligations.CheckOrder
  rintro w s t _ _ _ he rfl rfl rfl
  have hcmd := format_decodeCommand w
  refine ⟨fun hf => ?_, fun hf => ?_⟩
  · cases (exec_command_of_fatal hcmd hf).symm.trans he
    rfl
  · rw [errField_exec_command hcmd hf he, ErrCode.code_inj]
    rcases decodeCommand_cases w with ⟨rfl, e⟩ | ⟨rfl, e⟩ | ⟨rfl, e⟩ | ⟨rfl, e⟩ | ⟨hw, e⟩ <;> rw [e, State.commandErr]
    · simp [State.compressInvalid_iff, rsvField, opField]
    · simp [State.decompressInvalid_iff, rsvField, opField, ite_or]
    · simp [State.sectorOutOfRange_iff, rsvField, opField]
    · simp [State.sectorOutOfRange_iff, rsvField, opField, ite_or, Nat.one_le_iff_ne_zero, and_left_comm,
        State.readBlock, State.sectorIndex]
    · exact (if_pos (or_rotate.2 ((notMem_legalCommandWords_iff_fields w).1 hw))).symm

end Sys2Proof.Machine

/-! SUPPORT. The machine straight after reset (70_reset_and_hazards.md R146): what each command comes to on the state a
block is launched in, whose STATUS, operand registers and buffers are 0 whatever the launch arguments. -/

namespace Sys2Proof.Machine

/-- An empty IN holds the all-zero logical block (R41). -/
theorem State.logicalBlock_of_inBuf_nil {s : State} (h : s.inBuf = []) :
    s.logicalBlock = List.replicate s.cfg.sectorSize 0x00 := by
  rw [State.logicalBlock, State.inBytes, h]
  exact Memory.unroll_nil 0 _

/-- A live BLOCK_READ in range ends with the block of its sector latched, however its unpacking ends (R112). -/
theorem exec_blockRead_latches {s : State} (hf : s.fatal = false) (hr : s.sector.toNat < s.devSectors) :
    ∃ t, exec .blockRead s = .next t ∧ t.physBytes s.cfg.physSize = s.readBlock ∧ t.rdCnt = s.rdCnt + 1 := by
  obtain ⟨t, he, _⟩ := exec_command_next (i := .blockRead) rfl s
  rcases exec_cases he with ⟨hi, _⟩ | ⟨_, _, _, _, _, _, _, _, _, _, rfl⟩ | ⟨hno, _⟩
  · cases hi
  · have hphys := Memory.readRange_bufferOf s.readBlock
    rw [State.length_block] at hphys
    exact ⟨_, he, hphys, rfl⟩
  · exact absurd ⟨.inr rfl, hf, hr⟩ hno

/-- A live command ends with the code of the first check that fails (R134). -/
theorem exists_exec_command_errField {i : Instr} (hi : i.format = .cmd) {s : State} (hf : s.fatal = false)
    {e : ErrCode} (hc : s.commandErr i = e) : ∃ t, exec i s = .next t ∧ errField t.status = e.code := by
  obtain ⟨t, he, _⟩ := exec_command_next hi s
  exact ⟨t, he, hc ▸ errField_exec_command hi hf he⟩

/-- A BLOCK_WRITE to sector 0 right after reset stores the all-zero logical block (R111, R146). -/
theorem block_stored_launch {c : Config} (n : Nat) (m : Memory) (rd wr : Word) (p : List HostAction)
    (hc : c.wf = true) :
    (State.launch c n m rd wr p).stored.block 0 =
      pack c (selectWrite c (List.replicate c.sectorSize 0x00)) (List.replicate c.sectorSize 0x00) := by
  -- What a block reads as does not depend on the Store's size, so a Store of one block will do.
  have hl : (State.launch c 1 m rd wr p).legalConfig = true :=
    Bool.and_eq_true_iff.2 ⟨hc, (by decide : devSectorsLegal 1 = true)⟩
  have hzero : (State.launch c 1 m rd wr p).logicalBlock = _ := State.logicalBlock_of_inBuf_nil rfl
  have h := State.block_stored hl
  rwa [State.packed, hzero] at h

/-- Settles O43: after reset IN_LEN is 0, so a codec command fails its check; SECTOR is 0, so a block command is in range
exactly where the Store has a block; and IN is all zero. -/
theorem commandsAfterReset : Obligations.CommandsAfterReset := by
  unfold Obligations.CommandsAfterReset
  rintro c n m rd wr p s hc rfl
  have hf : (State.launch c n m rd wr p).fatal = false := fatalBit_zero
  have hcompress : (State.launch c n m rd wr p).commandErr .compress = .invalid := rfl
  have hdecompress : (State.launch c n m rd wr p).commandErr .decompress = .invalid := rfl
  refine ⟨exists_exec_command_errField rfl hf hcompress, exists_exec_command_errField rfl hf hdecompress,
    fun hn => ?_, fun hn => ?_, exec_blockRead_latches hf⟩
  · exact ⟨_, execBlockWrite_of_live hf hn, errField_withErr _ _, State.logicalBlock_of_inBuf_nil rfl,
      block_stored_launch n m rd wr p hc⟩
  · exact ⟨_, exec_blockWrite_of_out_of_range hf hn.le, errField_raiseFatal _ _, fatalBit_withFatal _⟩

end Sys2Proof.Machine
